-- ==== Sys2Proof/Word.lean ====
section
/-! DEFINITION. The one word of the machine: every register, datum and address is 8 bits wide
(`00_scope.md` R2, `20_memory.md` R35). -/

namespace Sys2Proof

/-- The machine's only word: a datum, a register's content or an address (R2, R32, R35). -/
abbrev Byte := BitVec 8

/-- `u(v)` is `BitVec.toNat`; `v[k]` of `00_scope.md` section 5.1 is `v.getLsbD k`.
The sign bit, bit 7, under its own name. -/
abbrev Byte.sign (v : Byte) : Bool := v.getLsbD 7

end Sys2Proof
end

