-- ==== Sys2Proof/Config.lean ====
section
/-! DEFINITION. What is fixed for a machine: the five fixed addresses (`20_memory.md` R33) and the
parameters that `92_eei_decisions.md` leaves OPEN, each a constant with no body, so that a proof holds
whatever the value is. Two more parameters are plain data of the state: `WRITABLE` (field `readOnly`)
and the scheduled part of `IRQ_LINE` and `IO_READ` (fields `inputs`, `portIn`). -/

namespace Sys2Proof

/-- What a peripheral sees of one access to a port (R34, R40): the byte it answered to a read, or the
byte it received. -/
inductive PortEvent where
  /-- a read of the port at `addr`, answered with `v` -/
  | input (addr v : Byte)
  /-- a write of `v` to the port at `addr` -/
  | output (addr v : Byte)
  deriving DecidableEq, Repr

/-- The port address of an event. -/
def PortEvent.addr : PortEvent → Byte
  | .input a _ => a
  | .output a _ => a

/-- The reset vector's address (R33). -/
def Config.resetVector : Byte := 0xFF#8
/-- The trap vector's address (R33). -/
def Config.trapVector : Byte := 0xFE#8
/-- The interrupt vector's address (R33). -/
def Config.irqVector : Byte := 0xFD#8
/-- The upper I/O port's address (R33). -/
def Config.portHigh : Byte := 0xFC#8
/-- The lower I/O port's address (R33). -/
def Config.portLow : Byte := 0xFB#8

/-- `CC_HI` (R15, D2): what bits 7..5 read as at the k-th read of CC as a byte. Log entry 4. -/
opaque Config.ccHi : Nat → BitVec 3

/-- `TRAP_SETS_I` (R252, D5): whether trap entry sets I. Log entry 5. -/
opaque Config.trapSetsI : Bool

/-- What a byte of storage that nothing has written holds: one unknown value per address, fixed for
the run (R30, R284, U2). Log entry 3. -/
opaque Config.initialByte : Byte → Byte

/-- `IRQ_LINE` (R22, R255, D9) at the boundary of this index, where the state schedules no sample.
Log entry 6. -/
opaque Config.irqLine : Nat → Bool

/-- `IO_READ(addr, history)` (R34, D10), where the state schedules no answer. Log entry 8. -/
opaque Config.ioRead : Byte → List PortEvent → Byte

/-- The cycles of trap entry, for which the spec gives no number (R290, N25). Log entry 12. -/
opaque Config.trapCycles : Nat
/-- The cycles of IRQ entry, for which the spec gives no number (R290, N25). Log entry 12. -/
opaque Config.irqCycles : Nat
/-- The cycles of the reset sequence, for which the spec gives no number (R290, N25). Log entry 12. -/
opaque Config.resetCycles : Nat

/-- What the steps before boundary `n + 1` leave in hidden register `k` (0 T, 1 R, 2 TA, 3 the
instruction register): the micro-sequences are lost (R21, R233, N13). Log entry 13. -/
opaque Config.hiddenRegister (k n : Nat) : Byte

end Sys2Proof
end

