-- ==== Sys2Proof/Machine/State.lean ====
section
/-! DEFINITION. The state of the machine (`10_state.md`), as plain data, and the state right after reset
(`70_reset_and_hazards.md` R281). The six registers of R10, the memory of R20, the outside world's inputs
and the trace of the ports (R22, R34), the hidden registers of Part 2 (R21, R233), and the model's own
counters that free values are applied to. -/

namespace Sys2Proof.Machine

/-- Why the machine stops with a fault: never. No access faults (R32, R36, R39), no arithmetic traps
(R162), and an illegal opcode is an exception the machine takes (R252); `93_implementation_defined.md`
section 2 ends: every state has a successor. So the type has no constructor. Safe: no behaviour of the
hardware is cut off. -/
inductive Fault where
  deriving DecidableEq, Repr

/-- Why an instruction has no meaning. -/
inductive Refusal where
  /-- Raised by an arm of `exec` whose instruction has no meaning in this model yet. No arm does. Safe: it
  would stop where the hardware goes on. -/
  | notModelled (mnemonic : String)
  deriving DecidableEq, Repr

/-- The condition-code register: storage for five flags and for nothing else (R16, R17). -/
structure CC where
  /-- bit 4, the interrupt mask: `true` masks IRQ (R18) -/
  i : Bool
  /-- bit 3, negative -/
  n : Bool
  /-- bit 2, zero -/
  z : Bool
  /-- bit 1, two's-complement overflow -/
  v : Bool
  /-- bit 0, carry or borrow -/
  c : Bool
  deriving DecidableEq, Repr

/-- The storage: (address, byte) pairs with rising addresses, for the bytes that the host's image or the
program has defined (R20, R30). An address not listed holds the unknown byte `Config.initialByte`. -/
abbrev Memory := List Host.Cell

/-- What the outside world drives at one instruction boundary (R22, R250): the two input signals. -/
structure Inputs where
  /-- the `Reset` input is active -/
  reset : Bool
  /-- the sampled `Interrupt` input, `IRQ_LINE` -/
  irq : Bool
  deriving DecidableEq, Repr

/-- The control unit's state between two steps (R281, row `Q_state`; R255 for NF). -/
inductive Phase where
  /-- reset is in progress: the reset sequence of R280, with its vector fetch, comes next -/
  | vectorFetch
  /-- NF, a new fetch: an instruction boundary -/
  | newFetch
  deriving DecidableEq, Repr

/-- The registers of the data path that no instruction names (R21, R233). -/
structure Hidden where
  /-- T, temporary register -/
  t : Byte
  /-- R, result register -/
  r : Byte
  /-- TA, temporary address register -/
  ta : Byte
  /-- the instruction register -/
  ir : Byte
  deriving DecidableEq, Repr

/-- The whole state. -/
structure State where
  /-- the accumulator (R11) -/
  a : Byte
  /-- address register X (R12) -/
  x : Byte
  /-- address register Y (R12) -/
  y : Byte
  /-- the stack pointer (R13) -/
  sp : Byte
  /-- the program counter (R14) -/
  pc : Byte
  /-- the condition-code register (R17) -/
  cc : CC
  /-- the memory (R20) -/
  mem : Memory
  /-- where the control unit stands (R281) -/
  phase : Phase
  /-- the inputs of the coming boundaries, the next one first (R22, R255). Environment. -/
  inputs : List Inputs
  /-- the peripherals' answers to the coming port reads, the next one first (R34). Environment. -/
  portIn : List Byte
  /-- every access to a port so far, the oldest first (R34, R40) -/
  ports : List PortEvent
  /-- the addresses where `WRITABLE` is false (R31, D18). Platform; no step changes it. -/
  readOnly : List Byte
  /-- how many steps the machine has made: the index of the boundary (R255, R291). Model's own. -/
  boundary : Nat
  /-- how often CC has been read as a byte: what `Config.ccHi` is applied to (R15). Model's own. -/
  ccReads : Nat
  /-- the cycle counter R290 allows as a ghost variable -/
  cycles : Nat
  /-- the hidden registers (R21, R233) -/
  hidden : Hidden
  deriving DecidableEq, Repr

/-- The machine right after reset (R281): reset in progress, its vector fetch still to come, and no image
loaded. DESIGN CHOICE (log entry 1): A, X, Y, SP, N, Z, V, C are 0 and I is 1, the `RESET_STATE` that D8
suggests for test benches; the spec gives none of them. Log entry 2 on PC and `phase`, which the spec fixes
by the vector fetch that follows. -/
def State.reset : State where
  a := 0#8
  x := 0#8
  y := 0#8
  sp := 0#8
  pc := 0#8
  cc := ⟨true, false, false, false, false⟩
  mem := []
  phase := .vectorFetch
  inputs := []
  portIn := []
  ports := []
  readOnly := []
  boundary := 0
  ccReads := 0
  cycles := 0
  hidden := ⟨0#8, 0#8, 0#8, 0#8⟩

end Sys2Proof.Machine
end

