-- ==== Sys2Proof/Machine/Flags.lean ====
section
/-! DEFINITION. The flag arithmetic: the primitives `add8`, `sub8`, `nz` (`00_scope.md` R6 to R8), `shl`,
`shr`, `sar` (`46_shift_rotate.md` R200), the byte view of CC (`10_state.md` R15, R16), and the ways an
instruction's flag columns (R19) store a result's flags. -/

namespace Sys2Proof.Machine

/-- A result with its four flags, as R6, R7 and R200 return it. -/
structure Result where
  r : Byte
  n : Bool
  z : Bool
  v : Bool
  c : Bool
  deriving DecidableEq, Repr

/-- `add8(a, b, cin)` (R6). -/
def add8 (a b : Byte) (cin : Bool) : Result :=
  let t := a.toNat + b.toNat + cin.toNat
  let r : Byte := BitVec.ofNat 8 t
  { r := r
    n := r.sign
    z := r == 0#8
    v := (!r.sign && a.sign && b.sign) || (r.sign && !a.sign && !b.sign)
    c := decide (256 ≤ t) }

/-- `sub8(a, b, bin)` (R7): `a + ~b + (1 - bin)`, with C the borrow, the inverse of the carry out. -/
def sub8 (a b : Byte) (bin : Bool) : Result :=
  let s := add8 a (~~~b) (!bin)
  { s with c := !s.c }

/-- `nz(r)` (R8). -/
def nz (r : Byte) : Bool × Bool :=
  (r.sign, r == 0#8)

/-- `shl(d, cin)` (R200): ALU function 1101. -/
def shl (d : Byte) (cin : Bool) : Result :=
  let u : Byte := (d <<< 1) ||| BitVec.setWidth 8 (BitVec.ofBool cin)
  { r := u, n := u.sign, z := u == 0#8, v := Bool.xor (d.getLsbD 7) (d.getLsbD 6), c := d.getLsbD 7 }

/-- `shr(d, cin)` (R200): ALU function 1110. -/
def shr (d : Byte) (cin : Bool) : Result :=
  let u : Byte := (d >>> 1) ||| (BitVec.setWidth 8 (BitVec.ofBool cin) <<< 7)
  { r := u, n := u.sign, z := u == 0#8, v := Bool.xor cin (d.getLsbD 7), c := d.getLsbD 0 }

/-- `sar(d)` (R200): ALU function 1111. -/
def sar (d : Byte) : Result :=
  let u : Byte := (d >>> 1) ||| (d &&& 0x80#8)
  { r := u, n := u.sign, z := u == 0#8, v := false, c := d.getLsbD 0 }

/-! ### CC as a byte -/

/-- CC read as a byte (R15): `CC_HI ++ I ++ N ++ Z ++ V ++ C`. -/
def CC.toByte (cc : CC) (hi : BitVec 3) : Byte :=
  BitVec.append hi
    (BitVec.ofBool cc.i ++ BitVec.ofBool cc.n ++ BitVec.ofBool cc.z ++ BitVec.ofBool cc.v ++
      BitVec.ofBool cc.c)

/-- A byte written to CC (R16): bits 4..0 are the flags, bits 7..5 are dropped. -/
def CC.ofByte (v : Byte) : CC :=
  ⟨v.getLsbD 4, v.getLsbD 3, v.getLsbD 2, v.getLsbD 1, v.getLsbD 0⟩

/-- ANDCC on the five flags (R182). -/
def CC.and (cc : CC) (v : Byte) : CC :=
  ⟨cc.i && v.getLsbD 4, cc.n && v.getLsbD 3, cc.z && v.getLsbD 2, cc.v && v.getLsbD 1,
    cc.c && v.getLsbD 0⟩

/-- ORCC on the five flags (R183). -/
def CC.or (cc : CC) (v : Byte) : CC :=
  ⟨cc.i || v.getLsbD 4, cc.n || v.getLsbD 3, cc.z || v.getLsbD 2, cc.v || v.getLsbD 1,
    cc.c || v.getLsbD 0⟩

/-! ### Storing a result's flags, by the columns of R19 -/

/-- `Δ Δ Δ Δ`: N, Z, V, C from the result. -/
def CC.withNZVC (cc : CC) (o : Result) : CC :=
  { cc with n := o.n, z := o.z, v := o.v, c := o.c }

/-- `Δ Δ Δ -`: N, Z, V from the result, C kept (INC, DEC). -/
def CC.withNZV (cc : CC) (o : Result) : CC :=
  { cc with n := o.n, z := o.z, v := o.v }

/-- `Δ Δ 0 -`: N, Z from the byte, V cleared, C kept (loads, logical, COM, BITA). -/
def CC.withNZ0 (cc : CC) (r : Byte) : CC :=
  { cc with n := (nz r).1, z := (nz r).2, v := false }

/-- `Δ Δ 0 0`: N, Z from the byte, V and C cleared (TST, TSTA). -/
def CC.withNZ00 (cc : CC) (r : Byte) : CC :=
  { cc with n := (nz r).1, z := (nz r).2, v := false, c := false }

/-- `0 1 0 0` (CLR, CLRA). -/
def CC.cleared (cc : CC) : CC :=
  { cc with n := false, z := true, v := false, c := false }

end Sys2Proof.Machine
end

