-- ==== Sys2Proof/Machine/Ops.lean ====
section
/-! DEFINITION. The named operations over memory and registers: `MemRead`, `MemWrite` (`20_memory.md` R30,
R31, R34), `fetch8`, `push`, `pull` (`00_scope.md` R4, R5), reading and writing CC (`10_state.md` R15,
R16), taking an exception (`60_exceptions.md` R253), returning from one (`42_flow_control.md` R141) and the
reset sequence (`70_reset_and_hazards.md` R280). -/

namespace Sys2Proof.Machine

/-! ### Storage -/

/-- The byte that a memory lists for an address, if it lists one. -/
def Memory.find : Memory → Nat → Option Byte
  | [], _ => none
  | (k, w) :: rest, adr => if k = adr then some w else Memory.find rest adr

/-- The memory with one byte written, its addresses still rising. -/
def Memory.store : Memory → Nat → Byte → Memory
  | [], adr, v => [(adr, v)]
  | (k, w) :: rest, adr, v =>
    if adr < k then (adr, v) :: (k, w) :: rest
    else if adr = k then (adr, v) :: rest
    else (k, w) :: Memory.store rest adr v

/-- The two port addresses (R34). -/
def isPort (adr : Byte) : Bool :=
  adr == Config.portLow || adr == Config.portHigh

/-- The canonical form: strictly rising addresses, all in the address space, none of a port, which stores
nothing (R31, R32). What an unlisted address holds is no value that an entry could equal (log entry 3). -/
abbrev Memory.wf (m : Memory) : Prop :=
  m.Pairwise (fun c d => c.1 < d.1) ∧ ∀ c ∈ m, c.1 < 256 ∧ isPort (BitVec.ofNat 8 c.1) = false

/-- `M(adr)` of the storage: the byte listed, or the unknown byte that nothing has defined (R30). For a
port address this is no byte a program can see (`State.memRead`). -/
def State.byteAt (s : State) (adr : Byte) : Byte :=
  (Memory.find s.mem adr.toNat).getD (Config.initialByte adr)

/-- `WRITABLE(adr)` (R31, D18). -/
def State.writable (s : State) (adr : Byte) : Bool :=
  !s.readOnly.contains adr

/-- `IO_READ(adr, history)` (R34, D10): the scheduled answer, else the environment's free one. -/
def State.portAnswer (s : State) (adr : Byte) : Byte :=
  match s.portIn with
  | v :: _ => v
  | [] => Config.ioRead adr s.ports

/-- `MemRead(adr, 1)` (R30): a port asks the peripheral, which sees the read; storage gives its byte. -/
def State.memRead (s : State) (adr : Byte) : Byte × State :=
  if isPort adr then
    (s.portAnswer adr,
      { s with portIn := s.portIn.tail, ports := s.ports ++ [.input adr (s.portAnswer adr)] })
  else (s.byteAt adr, s)

/-- `MemWrite(adr, 1, v)` (R31): a port outputs the byte and stores nothing; storage takes it where it is
writable and is unchanged where it is not. -/
def State.memWrite (s : State) (adr v : Byte) : State :=
  if isPort adr then { s with ports := s.ports ++ [.output adr v] }
  else if s.writable adr then { s with mem := Memory.store s.mem adr.toNat v }
  else s

/-! ### Fetch and stack -/

/-- `fetch8()` (R4): the byte at PC, and PC moved past it, modulo 256. -/
def State.fetch8 (s : State) : Byte × State :=
  let b := s.memRead s.pc
  (b.1, { b.2 with pc := s.pc + 1#8 })

/-- `push(v)` (R5): SP is decremented first, then the byte is written. -/
def State.push (s : State) (v : Byte) : State :=
  { s with sp := s.sp - 1#8 }.memWrite (s.sp - 1#8) v

/-- `pull()` (R5): the byte at SP is read, then SP is incremented. -/
def State.pull (s : State) : Byte × State :=
  let b := s.memRead s.sp
  (b.1, { b.2 with sp := s.sp + 1#8 })

/-! ### CC -/

/-- Reading CC as a byte (R15): the three upper bits are a new free value at each read. -/
def State.ccRead (s : State) : Byte × State :=
  (s.cc.toByte (Config.ccHi s.ccReads), { s with ccReads := s.ccReads + 1 })

/-- Writing a byte to CC (R16), I included (D14). -/
def State.ccWrite (s : State) (v : Byte) : State :=
  { s with cc := CC.ofByte v }

/-! ### Exceptions -/

/-- `enter(vector, return_pc, set_i)` (R253): push PC, Y, X, A, CC; set I where asked; then read the
vector. The stacked CC has the old I. -/
def State.enter (s : State) (vector returnPc : Byte) (setI : Bool) : State :=
  let s1 := (((s.push returnPc).push s.y).push s.x).push s.a
  let b := s1.ccRead
  let s2 := b.2.push b.1
  let s3 := { s2 with cc := { s2.cc with i := s2.cc.i || setI } }
  let w := s3.memRead vector
  { w.2 with pc := w.1 }

/-- The trap for an opcode that is not implemented (R252): PC is already past the opcode byte. -/
def State.trap (s : State) : State :=
  s.enter Config.trapVector s.pc Config.trapSetsI

/-- IRQ entry (R254): PC is the instruction that would have been executed. -/
def State.irqEntry (s : State) : State :=
  { s.enter Config.irqVector s.pc true with cycles := s.cycles + Config.irqCycles }

/-- The return from an exception (R141): pull CC, A, X, Y, PC. -/
def State.returnFromException (s : State) : State :=
  let cc := s.pull
  let a := (cc.2.ccWrite cc.1).pull
  let x := { a.2 with a := a.1 }.pull
  let y := { x.2 with x := x.1 }.pull
  let pc := { y.2 with y := y.1 }.pull
  { pc.2 with pc := pc.1 }

/-- The reset sequence (R280, R281): nothing is pushed, memory stays, the registers take `RESET_STATE`
(that of `State.reset`) and PC is loaded from the reset vector. -/
def State.resetSequence (s : State) : State :=
  let w := s.memRead Config.resetVector
  { w.2 with
    a := State.reset.a
    x := State.reset.x
    y := State.reset.y
    sp := State.reset.sp
    cc := State.reset.cc
    pc := w.1
    phase := .newFetch
    cycles := s.cycles + Config.resetCycles }

end Sys2Proof.Machine
end

