-- ==== Sys2Proof/Machine/DataMovement.lean ====
section
/-! DEFINITION. Data movement (`41_data_movement.md`): the eight TFR and the four EXG. -/

namespace Sys2Proof.Machine

/-- TFR A,CC (R100). -/
def execTfrAcc (s : State) : Host.Outcome State Fault Refusal :=
  .next (s.ccWrite s.a)

/-- TFR CC,A (R101). -/
def execTfrCcA (s : State) : Host.Outcome State Fault Refusal :=
  .next { s.ccRead.2 with a := s.ccRead.1 }

/-- TFR X,Y (R102). -/
def execTfrXY (s : State) : Host.Outcome State Fault Refusal :=
  .next { s with y := s.x }

/-- TFR Y,X (R103). -/
def execTfrYX (s : State) : Host.Outcome State Fault Refusal :=
  .next { s with x := s.y }

/-- TFR X,SP (R104). -/
def execTfrXSp (s : State) : Host.Outcome State Fault Refusal :=
  .next { s with sp := s.x }

/-- TFR SP,X (R105). -/
def execTfrSpX (s : State) : Host.Outcome State Fault Refusal :=
  .next { s with x := s.sp }

/-- TFR Y,SP (R106). -/
def execTfrYSp (s : State) : Host.Outcome State Fault Refusal :=
  .next { s with sp := s.y }

/-- TFR SP,Y (R107). -/
def execTfrSpY (s : State) : Host.Outcome State Fault Refusal :=
  .next { s with y := s.sp }

/-- EXG A,CC (R108): both reads are of the values before the instruction. -/
def execExgAcc (s : State) : Host.Outcome State Fault Refusal :=
  .next { (s.ccRead.2.ccWrite s.a) with a := s.ccRead.1 }

/-- EXG X,Y (R109). -/
def execExgXY (s : State) : Host.Outcome State Fault Refusal :=
  .next { s with x := s.y, y := s.x }

/-- EXG X,SP (R110). -/
def execExgXSp (s : State) : Host.Outcome State Fault Refusal :=
  .next { s with x := s.sp, sp := s.x }

/-- EXG Y,SP (R111). -/
def execExgYSp (s : State) : Host.Outcome State Fault Refusal :=
  .next { s with y := s.sp, sp := s.y }

end Sys2Proof.Machine
end

