-- ==== Sys2Proof/Syntax.lean ====
section
/-! DEFINITION. The instructions: one constructor per mnemonic of `spec/opcode_table.json` (all its 256
rows: a mnemonic's rows differ in the addressing mode only, which is the constructor's argument). -/

namespace Sys2Proof

/-- The addressing modes that form an address (`30_encoding.md` R58 to R66). -/
inductive AddrMode where
  /-- `ab`, absolute: `Adr` (R58) -/
  | ab (adr : Byte)
  /-- `ns`: `n,SP` (R59) -/
  | ns (n : Byte)
  /-- `nx`: `n,X` (R60) -/
  | nx (n : Byte)
  /-- `ny`: `n,Y` (R60) -/
  | ny (n : Byte)
  /-- `ax`: `A,X` (R61) -/
  | ax
  /-- `ay`: `A,Y` (R61) -/
  | ay
  /-- `x+`: `,X+` (R64) -/
  | xPostInc
  /-- `x-`: `,X-` (R65) -/
  | xPostDec
  /-- `+x`: `,+X` (R62) -/
  | xPreInc
  /-- `-x`: `,-X` (R63) -/
  | xPreDec
  /-- `y+`: `,Y+` (R64) -/
  | yPostInc
  /-- `y-`: `,Y-` (R65) -/
  | yPostDec
  /-- `+y`: `,+Y` (R62) -/
  | yPreInc
  /-- `-y`: `,-Y` (R63) -/
  | yPreDec
  deriving DecidableEq, Repr

/-- The operand of an instruction that reads a datum: immediate (R56) or in memory. -/
inductive Operand where
  /-- `im`: `#Data` (R56) -/
  | im (data : Byte)
  /-- a byte of memory at the mode's effective address -/
  | mem (m : AddrMode)
  deriving DecidableEq, Repr

/-- The instructions of the opcode map (R52), under HB's mnemonics. -/
inductive Instr where
  -- load and store (`40_load_store.md`)
  | lda (o : Operand) | ldx (o : Operand) | ldy (o : Operand) | ldsp (o : Operand)
  | leax (m : AddrMode) | leay (m : AddrMode) | leasp (m : AddrMode)
  | sta (m : AddrMode) | stx (m : AddrMode) | sty (m : AddrMode) | stsp (m : AddrMode)
  -- data movement (`41_data_movement.md`)
  | tfrAcc | tfrCcA | tfrXY | tfrYX | tfrXSp | tfrSpX | tfrYSp | tfrSpY
  | exgAcc | exgXY | exgXSp | exgYSp
  -- flow control (`42_flow_control.md`)
  | jmp (m : AddrMode) | jsr (m : AddrMode)
  | bsr (off : Byte) | bra (off : Byte)
  | bmi (off : Byte) | bpl (off : Byte) | beq (off : Byte) | bne (off : Byte)
  | bvs (off : Byte) | bvc (off : Byte) | bcs (off : Byte) | bcc (off : Byte)
  | bhi (off : Byte) | bls (off : Byte) | bgt (off : Byte) | bge (off : Byte)
  | ble (off : Byte) | blt (off : Byte)
  | rts | rti
  -- integer arithmetic (`43_integer_arithmetic.md`)
  | adda (o : Operand) | adca (o : Operand) | suba (o : Operand) | sbca (o : Operand)
  | clra | clr (m : AddrMode) | nega | neg (m : AddrMode)
  | deca | dec (m : AddrMode) | inca | inc (m : AddrMode)
  -- integer test (`44_integer_test.md`)
  | cmpa (o : Operand) | cmpx (o : Operand) | cmpy (o : Operand) | cmpsp (o : Operand)
  | bita (o : Operand) | tsta | tst (m : AddrMode)
  -- logical (`45_logical.md`)
  | anda (o : Operand) | ora (o : Operand) | eora (o : Operand)
  | andcc (data : Byte) | orcc (data : Byte) | coma | com (m : AddrMode)
  -- shift and rotate (`46_shift_rotate.md`)
  | lsla | lsl (m : AddrMode) | lsra | lsr (m : AddrMode) | asra | asr (m : AddrMode)
  | rola | rol (m : AddrMode) | rora | ror (m : AddrMode)
  -- stack (`47_stack.md`)
  | psha | pshx | pshy | pshcc | pula | pulx | puly | pulcc
  -- miscellaneous (`48_misc.md`) and the six blank cells of the map (R53), each with its opcode byte
  | nop
  | notImplemented (op : Byte)
  deriving DecidableEq, Repr

end Sys2Proof
end

