-- ==== Sys2Proof/Machine/Operands.lean ====
section
/-! DEFINITION. The addressing modes (`30_encoding.md` R55 to R66): the effective address with the register
side effect of the auto modes, the operand, and the read-modify-write pattern (`43_integer_arithmetic.md`
R163). No addressing mode changes a flag (R38). -/

namespace Sys2Proof.Machine

/-- `EA(mode)` (R66): the effective address, every sum modulo 256, and the state after the mode's side
effect on X or Y. A post-increment's update is made here too: no access reads X or Y, so it cannot be told
from one made after the access (log entry 15). -/
def State.ea (s : State) : AddrMode → Byte × State
  | .ab n => (n, s)
  | .ns n => (s.sp + n, s)
  | .nx n => (s.x + n, s)
  | .ny n => (s.y + n, s)
  | .ax => (s.x + s.a, s)
  | .ay => (s.y + s.a, s)
  | .xPostInc => (s.x, { s with x := s.x + 1#8 })
  | .xPostDec => (s.x, { s with x := s.x - 1#8 })
  | .xPreInc => (s.x + 1#8, { s with x := s.x + 1#8 })
  | .xPreDec => (s.x - 1#8, { s with x := s.x - 1#8 })
  | .yPostInc => (s.y, { s with y := s.y + 1#8 })
  | .yPostDec => (s.y, { s with y := s.y - 1#8 })
  | .yPreInc => (s.y + 1#8, { s with y := s.y + 1#8 })
  | .yPreDec => (s.y - 1#8, { s with y := s.y - 1#8 })

/-- `Opr` (R56, R66): the immediate datum, or the byte read at the effective address. -/
def State.operand (s : State) : Operand → Byte × State
  | .im d => (d, s)
  | .mem m => (s.ea m).2.memRead (s.ea m).1

/-- The relative address (R57, R121): the offset added to the address after the branch. -/
def State.branchTarget (s : State) (off : Byte) : Byte :=
  s.pc + off

/-- PC after a branch that is taken when `taken` holds (R121). -/
def State.branch (s : State) (taken : Bool) (off : Byte) : State :=
  if taken then { s with pc := s.branchTarget off } else s

/-- A read-modify-write form (R163): the address is computed once, the byte read, the result of `f` on it
written back to the same address, and CC set by `g` from the byte and the old CC. -/
def State.modify (s : State) (m : AddrMode) (f : Byte → CC → Byte) (g : Byte → CC → CC) : State :=
  let e := s.ea m
  let d := e.2.memRead e.1
  { d.2.memWrite e.1 (f d.1 d.2.cc) with cc := g d.1 d.2.cc }

/-- A store (R87): the byte written at the effective address, after the mode's side effect. -/
def State.storeAt (s : State) (m : AddrMode) (v : Byte) : State :=
  (s.ea m).2.memWrite (s.ea m).1 v

end Sys2Proof.Machine
end

