-- ==== Sys2Proof/Machine/FlowControl.lean ====
section
/-! DEFINITION. Program flow control (`42_flow_control.md`): JMP JSR BSR, the branches, RTS RTI. PC is the
address after the instruction when a meaning starts (R4). -/

namespace Sys2Proof.Machine

/-- JMP (R120): the effective address itself is the target; memory is not read there. -/
def execJmp (m : AddrMode) (s : State) : Host.Outcome State Fault Refusal :=
  .next { (s.ea m).2 with pc := (s.ea m).1 }

/-- JSR (R123): the address after the instruction is pushed. -/
def execJsr (m : AddrMode) (s : State) : Host.Outcome State Fault Refusal :=
  .next { (s.ea m).2.push s.pc with pc := (s.ea m).1 }

/-- BSR (R122): the byte pushed and the base of the offset are the same value. -/
def execBsr (off : Byte) (s : State) : Host.Outcome State Fault Refusal :=
  .next { s.push s.pc with pc := s.branchTarget off }

/-- BRA (R125): always. -/
def execBra (off : Byte) (s : State) : Host.Outcome State Fault Refusal :=
  .next (s.branch true off)

/-- BMI (R126): N = 1. -/
def execBmi (off : Byte) (s : State) : Host.Outcome State Fault Refusal :=
  .next (s.branch s.cc.n off)

/-- BPL (R127): N = 0. -/
def execBpl (off : Byte) (s : State) : Host.Outcome State Fault Refusal :=
  .next (s.branch (!s.cc.n) off)

/-- BEQ (R128): Z = 1. -/
def execBeq (off : Byte) (s : State) : Host.Outcome State Fault Refusal :=
  .next (s.branch s.cc.z off)

/-- BNE (R129): Z = 0. -/
def execBne (off : Byte) (s : State) : Host.Outcome State Fault Refusal :=
  .next (s.branch (!s.cc.z) off)

/-- BVS (R130): V = 1. -/
def execBvs (off : Byte) (s : State) : Host.Outcome State Fault Refusal :=
  .next (s.branch s.cc.v off)

/-- BVC (R131): V = 0. -/
def execBvc (off : Byte) (s : State) : Host.Outcome State Fault Refusal :=
  .next (s.branch (!s.cc.v) off)

/-- BCS, second name BLO (R132): C = 1. -/
def execBcs (off : Byte) (s : State) : Host.Outcome State Fault Refusal :=
  .next (s.branch s.cc.c off)

/-- BCC, second name BHS (R133): C = 0. -/
def execBcc (off : Byte) (s : State) : Host.Outcome State Fault Refusal :=
  .next (s.branch (!s.cc.c) off)

/-- BHI (R134): C + Z = 0. -/
def execBhi (off : Byte) (s : State) : Host.Outcome State Fault Refusal :=
  .next (s.branch (!(s.cc.c || s.cc.z)) off)

/-- BLS (R135): C + Z = 1. -/
def execBls (off : Byte) (s : State) : Host.Outcome State Fault Refusal :=
  .next (s.branch (s.cc.c || s.cc.z) off)

/-- BGT (R136): (N ⊕ V) + Z = 0. -/
def execBgt (off : Byte) (s : State) : Host.Outcome State Fault Refusal :=
  .next (s.branch (!(Bool.xor s.cc.n s.cc.v || s.cc.z)) off)

/-- BGE (R137): N ⊕ V = 0. -/
def execBge (off : Byte) (s : State) : Host.Outcome State Fault Refusal :=
  .next (s.branch (!Bool.xor s.cc.n s.cc.v) off)

/-- BLE (R138): (N ⊕ V) + Z = 1. -/
def execBle (off : Byte) (s : State) : Host.Outcome State Fault Refusal :=
  .next (s.branch (Bool.xor s.cc.n s.cc.v || s.cc.z) off)

/-- BLT (R139): N ⊕ V = 1. -/
def execBlt (off : Byte) (s : State) : Host.Outcome State Fault Refusal :=
  .next (s.branch (Bool.xor s.cc.n s.cc.v) off)

/-- RTS (R140). -/
def execRts (s : State) : Host.Outcome State Fault Refusal :=
  .next { s.pull.2 with pc := s.pull.1 }

/-- RTI (R141). -/
def execRti (s : State) : Host.Outcome State Fault Refusal :=
  .next s.returnFromException

end Sys2Proof.Machine
end

