-- ==== Sys2Proof/Machine/IntegerArithmetic.lean ====
section
/-! DEFINITION. Integer arithmetic (`43_integer_arithmetic.md`): ADDA ADCA SUBA SBCA, CLRA CLR, NEGA NEG,
DECA DEC, INCA INC. -/

namespace Sys2Proof.Machine

/-- ADDA (R150). -/
def execAdda (o : Operand) (s : State) : Host.Outcome State Fault Refusal :=
  let d := s.operand o
  let q := add8 d.2.a d.1 false
  .next { d.2 with a := q.r, cc := d.2.cc.withNZVC q }

/-- ADCA (R151): the old C is the carry in. -/
def execAdca (o : Operand) (s : State) : Host.Outcome State Fault Refusal :=
  let d := s.operand o
  let q := add8 d.2.a d.1 d.2.cc.c
  .next { d.2 with a := q.r, cc := d.2.cc.withNZVC q }

/-- SUBA (R152). -/
def execSuba (o : Operand) (s : State) : Host.Outcome State Fault Refusal :=
  let d := s.operand o
  let q := sub8 d.2.a d.1 false
  .next { d.2 with a := q.r, cc := d.2.cc.withNZVC q }

/-- SBCA (R153): the old C is the borrow in. -/
def execSbca (o : Operand) (s : State) : Host.Outcome State Fault Refusal :=
  let d := s.operand o
  let q := sub8 d.2.a d.1 d.2.cc.c
  .next { d.2 with a := q.r, cc := d.2.cc.withNZVC q }

/-- CLRA (R154). -/
def execClra (s : State) : Host.Outcome State Fault Refusal :=
  .next { s with a := 0#8, cc := s.cc.cleared }

/-- CLR (R155): one write, no read (D26). -/
def execClr (m : AddrMode) (s : State) : Host.Outcome State Fault Refusal :=
  .next { s.storeAt m 0#8 with cc := s.cc.cleared }

/-- NEGA (R156): `0 - A`. -/
def execNega (s : State) : Host.Outcome State Fault Refusal :=
  let q := sub8 0#8 s.a false
  .next { s with a := q.r, cc := s.cc.withNZVC q }

/-- NEG (R157). -/
def execNeg (m : AddrMode) (s : State) : Host.Outcome State Fault Refusal :=
  .next (s.modify m (fun d _ => (sub8 0#8 d false).r) (fun d cc => cc.withNZVC (sub8 0#8 d false)))

/-- DECA (R158): ALU function `D + $FF`, C kept. -/
def execDeca (s : State) : Host.Outcome State Fault Refusal :=
  let q := add8 s.a 0xFF#8 false
  .next { s with a := q.r, cc := s.cc.withNZV q }

/-- DEC (R159). -/
def execDec (m : AddrMode) (s : State) : Host.Outcome State Fault Refusal :=
  .next (s.modify m (fun d _ => (add8 d 0xFF#8 false).r) (fun d cc => cc.withNZV (add8 d 0xFF#8 false)))

/-- INCA (R160): ALU function `D + Cin` with Cin = 1, C kept. -/
def execInca (s : State) : Host.Outcome State Fault Refusal :=
  let q := add8 s.a 0x00#8 true
  .next { s with a := q.r, cc := s.cc.withNZV q }

/-- INC (R161). -/
def execInc (m : AddrMode) (s : State) : Host.Outcome State Fault Refusal :=
  .next (s.modify m (fun d _ => (add8 d 0x00#8 true).r) (fun d cc => cc.withNZV (add8 d 0x00#8 true)))

end Sys2Proof.Machine
end

