-- ==== Sys2Proof/Machine/IntegerTest.lean ====
section
/-! DEFINITION. Integer test (`44_integer_test.md`): CMPA CMPX CMPY CMPSP, BITA, TSTA TST. They change flags
only. -/

namespace Sys2Proof.Machine

/-- CMPA (R170). -/
def execCmpa (o : Operand) (s : State) : Host.Outcome State Fault Refusal :=
  let d := s.operand o
  .next { d.2 with cc := d.2.cc.withNZVC (sub8 d.2.a d.1 false) }

/-- CMPX (R171). -/
def execCmpx (o : Operand) (s : State) : Host.Outcome State Fault Refusal :=
  let d := s.operand o
  .next { d.2 with cc := d.2.cc.withNZVC (sub8 d.2.x d.1 false) }

/-- CMPY (R172). -/
def execCmpy (o : Operand) (s : State) : Host.Outcome State Fault Refusal :=
  let d := s.operand o
  .next { d.2 with cc := d.2.cc.withNZVC (sub8 d.2.y d.1 false) }

/-- CMPSP (R173). -/
def execCmpsp (o : Operand) (s : State) : Host.Outcome State Fault Refusal :=
  let d := s.operand o
  .next { d.2 with cc := d.2.cc.withNZVC (sub8 d.2.sp d.1 false) }

/-- BITA (R174). -/
def execBita (o : Operand) (s : State) : Host.Outcome State Fault Refusal :=
  let d := s.operand o
  .next { d.2 with cc := d.2.cc.withNZ0 (d.2.a &&& d.1) }

/-- TSTA (R175): C is cleared too. -/
def execTsta (s : State) : Host.Outcome State Fault Refusal :=
  .next { s with cc := s.cc.withNZ00 s.a }

/-- TST (R176): one read, no write. -/
def execTst (m : AddrMode) (s : State) : Host.Outcome State Fault Refusal :=
  let d := s.operand (.mem m)
  .next { d.2 with cc := d.2.cc.withNZ00 d.1 }

end Sys2Proof.Machine
end

