-- ==== Sys2Proof/Machine/LoadStore.lean ====
section
/-! DEFINITION. Load and store (`40_load_store.md`): LDA LDX LDY LDSP, LEAX LEAY LEASP, STA STX STY STSP.
In every meaning the instruction's bytes have been fetched: PC is the next instruction's address (R4). -/

namespace Sys2Proof.Machine

/-- LDA (R80). -/
def execLda (o : Operand) (s : State) : Host.Outcome State Fault Refusal :=
  let d := s.operand o
  .next { d.2 with a := d.1, cc := d.2.cc.withNZ0 d.1 }

/-- LDX (R81). -/
def execLdx (o : Operand) (s : State) : Host.Outcome State Fault Refusal :=
  let d := s.operand o
  .next { d.2 with x := d.1, cc := d.2.cc.withNZ0 d.1 }

/-- LDY (R82). -/
def execLdy (o : Operand) (s : State) : Host.Outcome State Fault Refusal :=
  let d := s.operand o
  .next { d.2 with y := d.1, cc := d.2.cc.withNZ0 d.1 }

/-- LDSP (R83). -/
def execLdsp (o : Operand) (s : State) : Host.Outcome State Fault Refusal :=
  let d := s.operand o
  .next { d.2 with sp := d.1, cc := d.2.cc.withNZ0 d.1 }

/-- LEAX (R84): no memory access, no flag. -/
def execLeax (m : AddrMode) (s : State) : Host.Outcome State Fault Refusal :=
  .next { (s.ea m).2 with x := (s.ea m).1 }

/-- LEAY (R85). -/
def execLeay (m : AddrMode) (s : State) : Host.Outcome State Fault Refusal :=
  .next { (s.ea m).2 with y := (s.ea m).1 }

/-- LEASP (R86). -/
def execLeasp (m : AddrMode) (s : State) : Host.Outcome State Fault Refusal :=
  .next { (s.ea m).2 with sp := (s.ea m).1 }

/-- STA (R87). -/
def execSta (m : AddrMode) (s : State) : Host.Outcome State Fault Refusal :=
  .next (s.storeAt m s.a)

/-- STX (R88). -/
def execStx (m : AddrMode) (s : State) : Host.Outcome State Fault Refusal :=
  .next (s.storeAt m s.x)

/-- STY (R89). -/
def execSty (m : AddrMode) (s : State) : Host.Outcome State Fault Refusal :=
  .next (s.storeAt m s.y)

/-- STSP (R90). -/
def execStsp (m : AddrMode) (s : State) : Host.Outcome State Fault Refusal :=
  .next (s.storeAt m s.sp)

end Sys2Proof.Machine
end

