-- ==== Sys2Proof/Machine/Logical.lean ====
section
/-! DEFINITION. Logical operations (`45_logical.md`): ANDA ORA EORA, ANDCC ORCC, COMA COM. -/

namespace Sys2Proof.Machine

/-- ANDA (R180). -/
def execAnda (o : Operand) (s : State) : Host.Outcome State Fault Refusal :=
  let d := s.operand o
  .next { d.2 with a := d.2.a &&& d.1, cc := d.2.cc.withNZ0 (d.2.a &&& d.1) }

/-- ORA (R181). -/
def execOra (o : Operand) (s : State) : Host.Outcome State Fault Refusal :=
  let d := s.operand o
  .next { d.2 with a := d.2.a ||| d.1, cc := d.2.cc.withNZ0 (d.2.a ||| d.1) }

/-- EORA (R184). -/
def execEora (o : Operand) (s : State) : Host.Outcome State Fault Refusal :=
  let d := s.operand o
  .next { d.2 with a := d.2.a ^^^ d.1, cc := d.2.cc.withNZ0 (d.2.a ^^^ d.1) }

/-- ANDCC (R182): bits 7..5 of the operand have no effect. -/
def execAndcc (data : Byte) (s : State) : Host.Outcome State Fault Refusal :=
  .next { s with cc := s.cc.and data }

/-- ORCC (R183): bits 7..5 of the operand have no effect. -/
def execOrcc (data : Byte) (s : State) : Host.Outcome State Fault Refusal :=
  .next { s with cc := s.cc.or data }

/-- COMA (R185). -/
def execComa (s : State) : Host.Outcome State Fault Refusal :=
  .next { s with a := ~~~s.a, cc := s.cc.withNZ0 (~~~s.a) }

/-- COM (R186). -/
def execCom (m : AddrMode) (s : State) : Host.Outcome State Fault Refusal :=
  .next (s.modify m (fun d _ => ~~~d) (fun d cc => cc.withNZ0 (~~~d)))

end Sys2Proof.Machine
end

