-- ==== Sys2Proof/Machine/Misc.lean ====
section
/-! DEFINITION. NOP (`48_misc.md`) and the six opcodes that are not implemented, whose effect is the trap
(`60_exceptions.md` R252). -/

namespace Sys2Proof.Machine

/-- NOP (R220): nothing beyond the fetch. -/
def execNop (s : State) : Host.Outcome State Fault Refusal :=
  .next s

/-- An opcode that is not implemented (R252): the trap through `$FE`. The opcode byte itself is recorded
nowhere. -/
def execNotImplemented (_op : Byte) (s : State) : Host.Outcome State Fault Refusal :=
  .next s.trap

end Sys2Proof.Machine
end

