-- ==== Sys2Proof/Machine/ShiftRotate.lean ====
section
/-! DEFINITION. Shift and rotate by one position (`46_shift_rotate.md`): LSLA LSL (ASLA ASL), LSRA LSR, ASRA
ASR, ROLA ROL, RORA ROR. -/

namespace Sys2Proof.Machine

/-- LSLA, second name ASLA (R192). -/
def execLsla (s : State) : Host.Outcome State Fault Refusal :=
  let q := shl s.a false
  .next { s with a := q.r, cc := s.cc.withNZVC q }

/-- LSL, second name ASL (R193). -/
def execLsl (m : AddrMode) (s : State) : Host.Outcome State Fault Refusal :=
  .next (s.modify m (fun d _ => (shl d false).r) (fun d cc => cc.withNZVC (shl d false)))

/-- LSRA (R194). -/
def execLsra (s : State) : Host.Outcome State Fault Refusal :=
  let q := shr s.a false
  .next { s with a := q.r, cc := s.cc.withNZVC q }

/-- LSR (R195). -/
def execLsr (m : AddrMode) (s : State) : Host.Outcome State Fault Refusal :=
  .next (s.modify m (fun d _ => (shr d false).r) (fun d cc => cc.withNZVC (shr d false)))

/-- ASRA (R190). -/
def execAsra (s : State) : Host.Outcome State Fault Refusal :=
  let q := sar s.a
  .next { s with a := q.r, cc := s.cc.withNZVC q }

/-- ASR (R191). -/
def execAsr (m : AddrMode) (s : State) : Host.Outcome State Fault Refusal :=
  .next (s.modify m (fun d _ => (sar d).r) (fun d cc => cc.withNZVC (sar d)))

/-- ROLA (R196): the old C enters bit 0 (D19). -/
def execRola (s : State) : Host.Outcome State Fault Refusal :=
  let q := shl s.a s.cc.c
  .next { s with a := q.r, cc := s.cc.withNZVC q }

/-- ROL (R197): the old C enters bit 0 (D19). -/
def execRol (m : AddrMode) (s : State) : Host.Outcome State Fault Refusal :=
  .next (s.modify m (fun d cc => (shl d cc.c).r) (fun d cc => cc.withNZVC (shl d cc.c)))

/-- RORA (R198): the old C enters bit 7. -/
def execRora (s : State) : Host.Outcome State Fault Refusal :=
  let q := shr s.a s.cc.c
  .next { s with a := q.r, cc := s.cc.withNZVC q }

/-- ROR (R199): the old C enters bit 7. -/
def execRor (m : AddrMode) (s : State) : Host.Outcome State Fault Refusal :=
  .next (s.modify m (fun d cc => (shr d cc.c).r) (fun d cc => cc.withNZVC (shr d cc.c)))

end Sys2Proof.Machine
end

