-- ==== Sys2Proof/Machine/Stack.lean ====
section
/-! DEFINITION. Stack operations (`47_stack.md`): PSHA PSHX PSHY PSHCC, PULA PULX PULY PULCC. -/

namespace Sys2Proof.Machine

/-- PSHA (R210). -/
def execPsha (s : State) : Host.Outcome State Fault Refusal :=
  .next (s.push s.a)

/-- PSHX (R212). -/
def execPshx (s : State) : Host.Outcome State Fault Refusal :=
  .next (s.push s.x)

/-- PSHY (R213). -/
def execPshy (s : State) : Host.Outcome State Fault Refusal :=
  .next (s.push s.y)

/-- PSHCC (R211). -/
def execPshcc (s : State) : Host.Outcome State Fault Refusal :=
  .next (s.ccRead.2.push s.ccRead.1)

/-- PULA (R214): no flag changes. -/
def execPula (s : State) : Host.Outcome State Fault Refusal :=
  .next { s.pull.2 with a := s.pull.1 }

/-- PULX (R216): no flag changes. -/
def execPulx (s : State) : Host.Outcome State Fault Refusal :=
  .next { s.pull.2 with x := s.pull.1 }

/-- PULY (R217): no flag changes. -/
def execPuly (s : State) : Host.Outcome State Fault Refusal :=
  .next { s.pull.2 with y := s.pull.1 }

/-- PULCC (R215): all five flags, I included (D14). -/
def execPulcc (s : State) : Host.Outcome State Fault Refusal :=
  .next (s.pull.2.ccWrite s.pull.1)

end Sys2Proof.Machine
end

