-- ==== Sys2Proof/WellFormed.lean ====
section
/-! DEFINITION. Which instructions exist: the addressing modes each mnemonic has in the opcode map
(`30_encoding.md` R52, R67) and the six opcodes that are not implemented (R53). -/

namespace Sys2Proof

/-- The modes of the one-operand memory group, columns `3x` to `8x` (R67 (a)): ab ns nx ax ny ay. -/
def AddrMode.isUnary : AddrMode → Bool
  | .ab _ | .ns _ | .nx _ | .ax | .ny _ | .ay => true
  | .xPostInc | .xPostDec | .xPreInc | .xPreDec => false
  | .yPostInc | .yPostDec | .yPreInc | .yPreDec => false

/-- The modes of JMP and JSR: those of the column group without `n,SP` (R120, R123). -/
def AddrMode.isJump : AddrMode → Bool
  | .ns _ => false
  | m => m.isUnary

/-- The operands of the two-operand group, columns `9x` to `Dx` (R67 (c)): im ab ns nx ny. -/
def Operand.isBinary : Operand → Bool
  | .im _ | .mem (.ab _) | .mem (.ns _) | .mem (.nx _) | .mem (.ny _) => true
  | .mem _ => false

/-- The operands of CMPX and CMPY: im ab ns (R171, R172). -/
def Operand.isCmpXY : Operand → Bool
  | .im _ | .mem (.ab _) | .mem (.ns _) => true
  | .mem _ => false

/-- The operands of CMPSP: im ab (R173). -/
def Operand.isCmpSP : Operand → Bool
  | .im _ | .mem (.ab _) => true
  | .mem _ => false

/-- The modes of LEAX: `n,X` and `n,SP` (R84). -/
def AddrMode.isLeaX : AddrMode → Bool
  | .nx _ | .ns _ => true
  | _ => false

/-- The modes of LEAY: `n,Y` and `n,SP` (R85). -/
def AddrMode.isLeaY : AddrMode → Bool
  | .ny _ | .ns _ => true
  | _ => false

/-- The modes of LEASP: `n,SP`, `n,X` and `n,Y` (R86). -/
def AddrMode.isLeaSP : AddrMode → Bool
  | .ns _ | .nx _ | .ny _ => true
  | _ => false

/-- The six opcode values that are not implemented (R53). -/
def isIllegalOpcode (op : Byte) : Bool :=
  op == 0x03#8 || op == 0x04#8 || op == 0xDF#8 || op == 0xE0#8 || op == 0xEF#8 || op == 0xFF#8

/-- The instruction has an encoding in the opcode map. -/
def Instr.wf : Instr → Bool
  | .lda _ => true
  | .ldx o | .ldy o | .ldsp o => o.isBinary
  | .leax m => m.isLeaX
  | .leay m => m.isLeaY
  | .leasp m => m.isLeaSP
  | .sta _ => true
  | .stx m | .sty m | .stsp m => m.isUnary
  | .tfrAcc | .tfrCcA | .tfrXY | .tfrYX | .tfrXSp | .tfrSpX | .tfrYSp | .tfrSpY => true
  | .exgAcc | .exgXY | .exgXSp | .exgYSp => true
  | .jmp m | .jsr m => m.isJump
  | .bsr _ | .bra _ | .bmi _ | .bpl _ | .beq _ | .bne _ | .bvs _ | .bvc _ | .bcs _ | .bcc _ => true
  | .bhi _ | .bls _ | .bgt _ | .bge _ | .ble _ | .blt _ => true
  | .rts | .rti => true
  | .adda o | .adca o | .suba o | .sbca o => o.isBinary
  | .clra | .nega | .deca | .inca => true
  | .clr m | .neg m | .dec m | .inc m => m.isUnary
  | .cmpa o | .bita o => o.isBinary
  | .cmpx o | .cmpy o => o.isCmpXY
  | .cmpsp o => o.isCmpSP
  | .tsta => true
  | .tst m => m.isUnary
  | .anda o | .ora o | .eora o => o.isBinary
  | .andcc _ | .orcc _ | .coma => true
  | .com m => m.isUnary
  | .lsla | .lsra | .asra | .rola | .rora => true
  | .lsl m | .lsr m | .asr m | .rol m | .ror m => m.isUnary
  | .psha | .pshx | .pshy | .pshcc | .pula | .pulx | .puly | .pulcc => true
  | .nop => true
  | .notImplemented op => isIllegalOpcode op

end Sys2Proof
end

