-- ==== Sys2Proof/Decode.lean ====
section
/-! DEFINITION. The decoder, from the opcode map (`30_encoding.md` R50 to R53), and the encoder, from the
opcode lists of the instruction rules (R80 to R220). The first byte alone selects operation, mode and
length; every value of an operand byte is legal. -/

namespace Sys2Proof

/-- The two formats of R50: `F1` is the opcode alone, `F2` is the opcode and one operand byte. -/
inductive Form where
  /-- format `F1` -/
  | one (i : Instr)
  /-- format `F2`: the instruction, given its operand byte -/
  | two (f : Byte → Instr)

/-- Column `0x` of the opcode map (R52), rows `x0` to `xF`. -/
def opcodeColumn0 : List Form :=
  [ .one .nop,
    .two fun n => .andcc n,
    .two fun n => .orcc n,
    .one (.notImplemented 0x03#8),
    .one (.notImplemented 0x04#8),
    .one .clra,
    .one .nega,
    .one .inca,
    .one .deca,
    .one .tsta,
    .one .coma,
    .one .lsla,
    .one .lsra,
    .one .rola,
    .one .rora,
    .one .asra ]

/-- Column `1x` of the opcode map (R52), rows `x0` to `xF`. -/
def opcodeColumn1 : List Form :=
  [ .one .psha,
    .one .pshx,
    .one .pshy,
    .one .pshcc,
    .one .pula,
    .one .pulx,
    .one .puly,
    .one .pulcc,
    .one .tfrAcc,
    .one .tfrCcA,
    .one .tfrXY,
    .one .tfrYX,
    .one .tfrXSp,
    .one .tfrSpX,
    .one .tfrYSp,
    .one .tfrSpY ]

/-- Column `2x` of the opcode map (R52), rows `x0` to `xF`. -/
def opcodeColumn2 : List Form :=
  [ .two fun n => .bsr n,
    .two fun n => .bra n,
    .two fun n => .bmi n,
    .two fun n => .bpl n,
    .two fun n => .beq n,
    .two fun n => .bne n,
    .two fun n => .bvs n,
    .two fun n => .bvc n,
    .two fun n => .bcs n,
    .two fun n => .bcc n,
    .two fun n => .bhi n,
    .two fun n => .bls n,
    .two fun n => .bgt n,
    .two fun n => .bge n,
    .two fun n => .ble n,
    .two fun n => .blt n ]

/-- Column `3x` of the opcode map (R52), rows `x0` to `xF`. -/
def opcodeColumn3 : List Form :=
  [ .two fun n => .stx (.ab n),
    .two fun n => .sty (.ab n),
    .two fun n => .stsp (.ab n),
    .two fun n => .jmp (.ab n),
    .two fun n => .jsr (.ab n),
    .two fun n => .clr (.ab n),
    .two fun n => .neg (.ab n),
    .two fun n => .inc (.ab n),
    .two fun n => .dec (.ab n),
    .two fun n => .tst (.ab n),
    .two fun n => .com (.ab n),
    .two fun n => .lsl (.ab n),
    .two fun n => .lsr (.ab n),
    .two fun n => .rol (.ab n),
    .two fun n => .ror (.ab n),
    .two fun n => .asr (.ab n) ]

/-- Column `4x` of the opcode map (R52), rows `x0` to `xF`. -/
def opcodeColumn4 : List Form :=
  [ .two fun n => .stx (.ns n),
    .two fun n => .sty (.ns n),
    .two fun n => .stsp (.ns n),
    .one .rts,
    .one .rti,
    .two fun n => .clr (.ns n),
    .two fun n => .neg (.ns n),
    .two fun n => .inc (.ns n),
    .two fun n => .dec (.ns n),
    .two fun n => .tst (.ns n),
    .two fun n => .com (.ns n),
    .two fun n => .lsl (.ns n),
    .two fun n => .lsr (.ns n),
    .two fun n => .rol (.ns n),
    .two fun n => .ror (.ns n),
    .two fun n => .asr (.ns n) ]

/-- Column `5x` of the opcode map (R52), rows `x0` to `xF`. -/
def opcodeColumn5 : List Form :=
  [ .two fun n => .stx (.nx n),
    .two fun n => .sty (.nx n),
    .two fun n => .stsp (.nx n),
    .two fun n => .jmp (.nx n),
    .two fun n => .jsr (.nx n),
    .two fun n => .clr (.nx n),
    .two fun n => .neg (.nx n),
    .two fun n => .inc (.nx n),
    .two fun n => .dec (.nx n),
    .two fun n => .tst (.nx n),
    .two fun n => .com (.nx n),
    .two fun n => .lsl (.nx n),
    .two fun n => .lsr (.nx n),
    .two fun n => .rol (.nx n),
    .two fun n => .ror (.nx n),
    .two fun n => .asr (.nx n) ]

/-- Column `6x` of the opcode map (R52), rows `x0` to `xF`. -/
def opcodeColumn6 : List Form :=
  [ .one (.stx .ax),
    .one (.sty .ax),
    .one (.stsp .ax),
    .one (.jmp .ax),
    .one (.jsr .ax),
    .one (.clr .ax),
    .one (.neg .ax),
    .one (.inc .ax),
    .one (.dec .ax),
    .one (.tst .ax),
    .one (.com .ax),
    .one (.lsl .ax),
    .one (.lsr .ax),
    .one (.rol .ax),
    .one (.ror .ax),
    .one (.asr .ax) ]

/-- Column `7x` of the opcode map (R52), rows `x0` to `xF`. -/
def opcodeColumn7 : List Form :=
  [ .two fun n => .stx (.ny n),
    .two fun n => .sty (.ny n),
    .two fun n => .stsp (.ny n),
    .two fun n => .jmp (.ny n),
    .two fun n => .jsr (.ny n),
    .two fun n => .clr (.ny n),
    .two fun n => .neg (.ny n),
    .two fun n => .inc (.ny n),
    .two fun n => .dec (.ny n),
    .two fun n => .tst (.ny n),
    .two fun n => .com (.ny n),
    .two fun n => .lsl (.ny n),
    .two fun n => .lsr (.ny n),
    .two fun n => .rol (.ny n),
    .two fun n => .ror (.ny n),
    .two fun n => .asr (.ny n) ]

/-- Column `8x` of the opcode map (R52), rows `x0` to `xF`. -/
def opcodeColumn8 : List Form :=
  [ .one (.stx .ay),
    .one (.sty .ay),
    .one (.stsp .ay),
    .one (.jmp .ay),
    .one (.jsr .ay),
    .one (.clr .ay),
    .one (.neg .ay),
    .one (.inc .ay),
    .one (.dec .ay),
    .one (.tst .ay),
    .one (.com .ay),
    .one (.lsl .ay),
    .one (.lsr .ay),
    .one (.rol .ay),
    .one (.ror .ay),
    .one (.asr .ay) ]

/-- Column `9x` of the opcode map (R52), rows `x0` to `xF`. -/
def opcodeColumn9 : List Form :=
  [ .two fun n => .ldx (.im n),
    .two fun n => .ldy (.im n),
    .two fun n => .ldsp (.im n),
    .two fun n => .sbca (.im n),
    .two fun n => .suba (.im n),
    .two fun n => .adca (.im n),
    .two fun n => .adda (.im n),
    .two fun n => .cmpa (.im n),
    .two fun n => .bita (.im n),
    .two fun n => .anda (.im n),
    .two fun n => .ora (.im n),
    .two fun n => .eora (.im n),
    .two fun n => .cmpx (.im n),
    .two fun n => .cmpy (.im n),
    .two fun n => .cmpsp (.im n),
    .one .exgAcc ]

/-- Column `Ax` of the opcode map (R52), rows `x0` to `xF`. -/
def opcodeColumnA : List Form :=
  [ .two fun n => .ldx (.mem (.ab n)),
    .two fun n => .ldy (.mem (.ab n)),
    .two fun n => .ldsp (.mem (.ab n)),
    .two fun n => .sbca (.mem (.ab n)),
    .two fun n => .suba (.mem (.ab n)),
    .two fun n => .adca (.mem (.ab n)),
    .two fun n => .adda (.mem (.ab n)),
    .two fun n => .cmpa (.mem (.ab n)),
    .two fun n => .bita (.mem (.ab n)),
    .two fun n => .anda (.mem (.ab n)),
    .two fun n => .ora (.mem (.ab n)),
    .two fun n => .eora (.mem (.ab n)),
    .two fun n => .cmpx (.mem (.ab n)),
    .two fun n => .cmpy (.mem (.ab n)),
    .two fun n => .cmpsp (.mem (.ab n)),
    .one .exgXY ]

/-- Column `Bx` of the opcode map (R52), rows `x0` to `xF`. -/
def opcodeColumnB : List Form :=
  [ .two fun n => .ldx (.mem (.ns n)),
    .two fun n => .ldy (.mem (.ns n)),
    .two fun n => .ldsp (.mem (.ns n)),
    .two fun n => .sbca (.mem (.ns n)),
    .two fun n => .suba (.mem (.ns n)),
    .two fun n => .adca (.mem (.ns n)),
    .two fun n => .adda (.mem (.ns n)),
    .two fun n => .cmpa (.mem (.ns n)),
    .two fun n => .bita (.mem (.ns n)),
    .two fun n => .anda (.mem (.ns n)),
    .two fun n => .ora (.mem (.ns n)),
    .two fun n => .eora (.mem (.ns n)),
    .two fun n => .cmpx (.mem (.ns n)),
    .two fun n => .cmpy (.mem (.ns n)),
    .two fun n => .leasp (.ns n),
    .one .exgXSp ]

/-- Column `Cx` of the opcode map (R52), rows `x0` to `xF`. -/
def opcodeColumnC : List Form :=
  [ .two fun n => .ldx (.mem (.nx n)),
    .two fun n => .ldy (.mem (.nx n)),
    .two fun n => .ldsp (.mem (.nx n)),
    .two fun n => .sbca (.mem (.nx n)),
    .two fun n => .suba (.mem (.nx n)),
    .two fun n => .adca (.mem (.nx n)),
    .two fun n => .adda (.mem (.nx n)),
    .two fun n => .cmpa (.mem (.nx n)),
    .two fun n => .bita (.mem (.nx n)),
    .two fun n => .anda (.mem (.nx n)),
    .two fun n => .ora (.mem (.nx n)),
    .two fun n => .eora (.mem (.nx n)),
    .two fun n => .leax (.nx n),
    .two fun n => .leay (.ny n),
    .two fun n => .leasp (.nx n),
    .one .exgYSp ]

/-- Column `Dx` of the opcode map (R52), rows `x0` to `xF`. -/
def opcodeColumnD : List Form :=
  [ .two fun n => .ldx (.mem (.ny n)),
    .two fun n => .ldy (.mem (.ny n)),
    .two fun n => .ldsp (.mem (.ny n)),
    .two fun n => .sbca (.mem (.ny n)),
    .two fun n => .suba (.mem (.ny n)),
    .two fun n => .adca (.mem (.ny n)),
    .two fun n => .adda (.mem (.ny n)),
    .two fun n => .cmpa (.mem (.ny n)),
    .two fun n => .bita (.mem (.ny n)),
    .two fun n => .anda (.mem (.ny n)),
    .two fun n => .ora (.mem (.ny n)),
    .two fun n => .eora (.mem (.ny n)),
    .two fun n => .leax (.ns n),
    .two fun n => .leay (.ns n),
    .two fun n => .leasp (.ny n),
    .one (.notImplemented 0xDF#8) ]

/-- Column `Ex` of the opcode map (R52), rows `x0` to `xF`. -/
def opcodeColumnE : List Form :=
  [ .one (.notImplemented 0xE0#8),
    .two fun n => .sta (.ab n),
    .two fun n => .sta (.ns n),
    .two fun n => .sta (.nx n),
    .one (.sta .ax),
    .one (.sta .xPostInc),
    .one (.sta .xPostDec),
    .one (.sta .xPreInc),
    .one (.sta .xPreDec),
    .two fun n => .sta (.ny n),
    .one (.sta .ay),
    .one (.sta .yPostInc),
    .one (.sta .yPostDec),
    .one (.sta .yPreInc),
    .one (.sta .yPreDec),
    .one (.notImplemented 0xEF#8) ]

/-- Column `Fx` of the opcode map (R52), rows `x0` to `xF`. -/
def opcodeColumnF : List Form :=
  [ .two fun n => .lda (.im n),
    .two fun n => .lda (.mem (.ab n)),
    .two fun n => .lda (.mem (.ns n)),
    .two fun n => .lda (.mem (.nx n)),
    .one (.lda (.mem .ax)),
    .one (.lda (.mem .xPostInc)),
    .one (.lda (.mem .xPostDec)),
    .one (.lda (.mem .xPreInc)),
    .one (.lda (.mem .xPreDec)),
    .two fun n => .lda (.mem (.ny n)),
    .one (.lda (.mem .ay)),
    .one (.lda (.mem .yPostInc)),
    .one (.lda (.mem .yPostDec)),
    .one (.lda (.mem .yPreInc)),
    .one (.lda (.mem .yPreDec)),
    .one (.notImplemented 0xFF#8) ]

/-- The opcode map (R52): sixteen columns, by the opcode's high digit. -/
def opcodeMap : List (List Form) :=
  [ opcodeColumn0, opcodeColumn1, opcodeColumn2, opcodeColumn3, opcodeColumn4, opcodeColumn5,
    opcodeColumn6, opcodeColumn7, opcodeColumn8, opcodeColumn9, opcodeColumnA, opcodeColumnB,
    opcodeColumnC, opcodeColumnD, opcodeColumnE, opcodeColumnF ]

/-- The cell of the map for an opcode byte. Every byte has one. -/
def formOf (op : Byte) : Form :=
  ((opcodeMap.getD (op.toNat / 16) []).getD (op.toNat % 16)) (.one (.notImplemented op))

/-- Why bytes are no instruction: there are too few of them. Nothing else is rejected, the six blank cells
being instructions whose effect is the trap (R53). -/
inductive DecodeReject where
  /-- no byte at all -/
  | noOpcode
  /-- the opcode is of format `F2` and its operand byte is missing -/
  | operandMissing (op : Byte)
  deriving DecidableEq, Repr

/-- The instruction at the head of a list of bytes, with the bytes that follow it (R50, R51). -/
def decode : List Byte → Except DecodeReject (Instr × List Byte)
  | [] => .error .noOpcode
  | op :: rest =>
    match formOf op with
    | .one i => .ok (i, rest)
    | .two f =>
      match rest with
      | [] => .error (.operandMissing op)
      | n :: rest' => .ok (f n, rest')

/-- The decoder on an instruction given as one number: the first byte is bits 7..0, the second bits 15..8,
and every bit above `nbits` is 0. -/
def decodeTableWord (nbits w : Nat) : Option Instr :=
  match decode [BitVec.ofNat 8 (w % 2 ^ nbits), BitVec.ofNat 8 (w % 2 ^ nbits / 256)] with
  | .ok r => some r.1
  | .error _ => none

/-! ### The encoder -/

/-- The bytes of a one-operand memory form: column `3x` to `8x` by the mode (R163, R67 (a)), row `row`. A
mode that the group does not have has no encoding. -/
def encodeUnary (row : Byte) : AddrMode → List Byte
  | .ab n => [0x30#8 + row, n]
  | .ns n => [0x40#8 + row, n]
  | .nx n => [0x50#8 + row, n]
  | .ax => [0x60#8 + row]
  | .ny n => [0x70#8 + row, n]
  | .ay => [0x80#8 + row]
  | .xPostInc | .xPostDec | .xPreInc | .xPreDec => []
  | .yPostInc | .yPostDec | .yPreInc | .yPreDec => []

/-- JMP (row 3) and JSR (row 4): the cells of `n,SP` are RTS and RTI (R120, R123). -/
def encodeJump (row : Byte) : AddrMode → List Byte
  | .ns _ => []
  | m => encodeUnary row m

/-- The bytes of a two-operand form: column `9x` to `Dx` by the operand (R67 (c)), row `row`. -/
def encodeBinary (row : Byte) : Operand → List Byte
  | .im n => [0x90#8 + row, n]
  | .mem (.ab n) => [0xA0#8 + row, n]
  | .mem (.ns n) => [0xB0#8 + row, n]
  | .mem (.nx n) => [0xC0#8 + row, n]
  | .mem (.ny n) => [0xD0#8 + row, n]
  | .mem _ => []

/-- CMPX and CMPY: the columns `9x`, `Ax`, `Bx` only (R171, R172). -/
def encodeCmpXY (row : Byte) (o : Operand) : List Byte :=
  if o.isCmpXY then encodeBinary row o else []

/-- CMPSP: the columns `9x` and `Ax` only (R173). -/
def encodeCmpSP (o : Operand) : List Byte :=
  if o.isCmpSP then encodeBinary 0x0E#8 o else []

/-- STA's forms in column `Ex` (R87) and LDA's memory forms in column `Fx` (R80), the same rows. -/
def encodeAcc (column : Byte) : AddrMode → List Byte
  | .ab n => [column + 0x1#8, n]
  | .ns n => [column + 0x2#8, n]
  | .nx n => [column + 0x3#8, n]
  | .ax => [column + 0x4#8]
  | .xPostInc => [column + 0x5#8]
  | .xPostDec => [column + 0x6#8]
  | .xPreInc => [column + 0x7#8]
  | .xPreDec => [column + 0x8#8]
  | .ny n => [column + 0x9#8, n]
  | .ay => [column + 0xA#8]
  | .yPostInc => [column + 0xB#8]
  | .yPostDec => [column + 0xC#8]
  | .yPreInc => [column + 0xD#8]
  | .yPreDec => [column + 0xE#8]

/-- LEAX (R84). -/
def encodeLeaX : AddrMode → List Byte
  | .nx n => [0xCC#8, n]
  | .ns n => [0xDC#8, n]
  | _ => []

/-- LEAY (R85). -/
def encodeLeaY : AddrMode → List Byte
  | .ny n => [0xCD#8, n]
  | .ns n => [0xDD#8, n]
  | _ => []

/-- LEASP (R86). -/
def encodeLeaSP : AddrMode → List Byte
  | .ns n => [0xBE#8, n]
  | .nx n => [0xCE#8, n]
  | .ny n => [0xDE#8, n]
  | _ => []

/-- The bytes of an instruction; none for one that is not well formed. -/
def encode : Instr → List Byte
  | .lda (.im n) => [0xF0#8, n]
  | .lda (.mem m) => encodeAcc 0xF0#8 m
  | .ldx o => encodeBinary 0x0#8 o
  | .ldy o => encodeBinary 0x1#8 o
  | .ldsp o => encodeBinary 0x2#8 o
  | .leax m => encodeLeaX m
  | .leay m => encodeLeaY m
  | .leasp m => encodeLeaSP m
  | .sta m => encodeAcc 0xE0#8 m
  | .stx m => encodeUnary 0x0#8 m
  | .sty m => encodeUnary 0x1#8 m
  | .stsp m => encodeUnary 0x2#8 m
  | .tfrAcc => [0x18#8]
  | .tfrCcA => [0x19#8]
  | .tfrXY => [0x1A#8]
  | .tfrYX => [0x1B#8]
  | .tfrXSp => [0x1C#8]
  | .tfrSpX => [0x1D#8]
  | .tfrYSp => [0x1E#8]
  | .tfrSpY => [0x1F#8]
  | .exgAcc => [0x9F#8]
  | .exgXY => [0xAF#8]
  | .exgXSp => [0xBF#8]
  | .exgYSp => [0xCF#8]
  | .jmp m => encodeJump 0x3#8 m
  | .jsr m => encodeJump 0x4#8 m
  | .bsr n => [0x20#8, n]
  | .bra n => [0x21#8, n]
  | .bmi n => [0x22#8, n]
  | .bpl n => [0x23#8, n]
  | .beq n => [0x24#8, n]
  | .bne n => [0x25#8, n]
  | .bvs n => [0x26#8, n]
  | .bvc n => [0x27#8, n]
  | .bcs n => [0x28#8, n]
  | .bcc n => [0x29#8, n]
  | .bhi n => [0x2A#8, n]
  | .bls n => [0x2B#8, n]
  | .bgt n => [0x2C#8, n]
  | .bge n => [0x2D#8, n]
  | .ble n => [0x2E#8, n]
  | .blt n => [0x2F#8, n]
  | .rts => [0x43#8]
  | .rti => [0x44#8]
  | .sbca o => encodeBinary 0x3#8 o
  | .suba o => encodeBinary 0x4#8 o
  | .adca o => encodeBinary 0x5#8 o
  | .adda o => encodeBinary 0x6#8 o
  | .clra => [0x05#8]
  | .clr m => encodeUnary 0x5#8 m
  | .nega => [0x06#8]
  | .neg m => encodeUnary 0x6#8 m
  | .inca => [0x07#8]
  | .inc m => encodeUnary 0x7#8 m
  | .deca => [0x08#8]
  | .dec m => encodeUnary 0x8#8 m
  | .cmpa o => encodeBinary 0x7#8 o
  | .cmpx o => encodeCmpXY 0xC#8 o
  | .cmpy o => encodeCmpXY 0xD#8 o
  | .cmpsp o => encodeCmpSP o
  | .bita o => encodeBinary 0x8#8 o
  | .tsta => [0x09#8]
  | .tst m => encodeUnary 0x9#8 m
  | .anda o => encodeBinary 0x9#8 o
  | .ora o => encodeBinary 0xA#8 o
  | .eora o => encodeBinary 0xB#8 o
  | .andcc n => [0x01#8, n]
  | .orcc n => [0x02#8, n]
  | .coma => [0x0A#8]
  | .com m => encodeUnary 0xA#8 m
  | .lsla => [0x0B#8]
  | .lsl m => encodeUnary 0xB#8 m
  | .lsra => [0x0C#8]
  | .lsr m => encodeUnary 0xC#8 m
  | .rola => [0x0D#8]
  | .rol m => encodeUnary 0xD#8 m
  | .rora => [0x0E#8]
  | .ror m => encodeUnary 0xE#8 m
  | .asra => [0x0F#8]
  | .asr m => encodeUnary 0xF#8 m
  | .psha => [0x10#8]
  | .pshx => [0x11#8]
  | .pshy => [0x12#8]
  | .pshcc => [0x13#8]
  | .pula => [0x14#8]
  | .pulx => [0x15#8]
  | .puly => [0x16#8]
  | .pulcc => [0x17#8]
  | .nop => [0x00#8]
  | .notImplemented op => if isIllegalOpcode op then [op] else []

/-- How many operand bytes a mode has: one for `ab ns nx ny`, none for the others (R51). -/
def AddrMode.operandBytes : AddrMode → Nat
  | .ab _ | .ns _ | .nx _ | .ny _ => 1
  | .ax | .ay => 0
  | .xPostInc | .xPostDec | .xPreInc | .xPreDec => 0
  | .yPostInc | .yPostDec | .yPreInc | .yPreDec => 0

/-- How many operand bytes an operand has: one for `im` (R51). -/
def Operand.operandBytes : Operand → Nat
  | .im _ => 1
  | .mem m => m.operandBytes

/-- The instruction's length in bytes, from its mode (R51). -/
def Instr.length : Instr → Nat
  | .lda o | .ldx o | .ldy o | .ldsp o => 1 + o.operandBytes
  | .leax m | .leay m | .leasp m => 1 + m.operandBytes
  | .sta m | .stx m | .sty m | .stsp m => 1 + m.operandBytes
  | .tfrAcc | .tfrCcA | .tfrXY | .tfrYX | .tfrXSp | .tfrSpX | .tfrYSp | .tfrSpY => 1
  | .exgAcc | .exgXY | .exgXSp | .exgYSp => 1
  | .jmp m | .jsr m => 1 + m.operandBytes
  | .bsr _ | .bra _ | .bmi _ | .bpl _ | .beq _ | .bne _ | .bvs _ | .bvc _ | .bcs _ | .bcc _ => 2
  | .bhi _ | .bls _ | .bgt _ | .bge _ | .ble _ | .blt _ => 2
  | .rts | .rti => 1
  | .adda o | .adca o | .suba o | .sbca o => 1 + o.operandBytes
  | .clra | .nega | .deca | .inca => 1
  | .clr m | .neg m | .dec m | .inc m => 1 + m.operandBytes
  | .cmpa o | .cmpx o | .cmpy o | .cmpsp o | .bita o => 1 + o.operandBytes
  | .tsta => 1
  | .tst m => 1 + m.operandBytes
  | .anda o | .ora o | .eora o => 1 + o.operandBytes
  | .andcc _ | .orcc _ => 2
  | .coma => 1
  | .com m => 1 + m.operandBytes
  | .lsla | .lsra | .asra | .rola | .rora => 1
  | .lsl m | .lsr m | .asr m | .rol m | .ror m => 1 + m.operandBytes
  | .psha | .pshx | .pshy | .pshcc | .pula | .pulx | .puly | .pulcc => 1
  | .nop => 1
  | .notImplemented _ => 1

end Sys2Proof
end

