-- ==== Sys2Proof/Machine/Fetch.lean ====
section
/-! DEFINITION. The instruction boundary (`60_exceptions.md` R255), the fetch of an instruction (`00_scope.md`
R4, `30_encoding.md` R50, R51) and its cycle count (`70_reset_and_hazards.md` R290). -/

namespace Sys2Proof.Machine

/-- The inputs at this boundary: the scheduled ones, else no reset and the environment's free `IRQ_LINE`
(R22, R255; log entries 6 and 7). -/
def State.boundaryInputs (s : State) : Inputs :=
  match s.inputs with
  | b :: _ => b
  | [] => { reset := false, irq := Config.irqLine s.boundary }

/-- `Reset` is active at this boundary (R256: it overrides everything). -/
def State.resetActive (s : State) : Bool :=
  s.boundaryInputs.reset

/-- An interrupt is accepted at this boundary (R255): the line is active and I is 0. -/
def State.irqAccepted (s : State) : Bool :=
  !s.cc.i && s.boundaryInputs.irq

/-- One step counted: T, R, TA and the instruction register hold what the lost micro-sequences leave in
them (R21, R233; log entry 13). -/
def State.countStep (s : State) : State :=
  { s with
    boundary := s.boundary + 1
    hidden :=
      ⟨Config.hiddenRegister 0 s.boundary, Config.hiddenRegister 1 s.boundary,
        Config.hiddenRegister 2 s.boundary, Config.hiddenRegister 3 s.boundary⟩ }

/-- The boundary passed: its inputs are used up and the step is counted. -/
def State.passBoundary (s : State) : State :=
  { s.countStep with inputs := s.inputs.tail }

/-- The cycles of a mode's forms that take `im` cycles immediate and `idx` otherwise. -/
def Operand.cyclesOf (o : Operand) (im idx : Nat) : Nat :=
  match o with
  | .im _ => im
  | .mem _ => idx

/-- The cycles of STA's and LDA's memory forms (R290): 3, and 4 for the eight auto modes. -/
def AddrMode.accCycles : AddrMode → Nat
  | .ab _ | .ns _ | .nx _ | .ny _ | .ax | .ay => 3
  | .xPostInc | .xPostDec | .xPreInc | .xPreDec => 4
  | .yPostInc | .yPostDec | .yPreInc | .yPreDec => 4

/-- The cycles of a jump (R290): `ab` for an absolute address, `idx` for the indexed modes. -/
def AddrMode.jumpCycles (m : AddrMode) (ab idx : Nat) : Nat :=
  match m with
  | .ab _ => ab
  | _ => idx

/-- The cycles of an instruction (R290). The trap's are not stated. -/
def Instr.cycles : Instr → Nat
  | .lda o =>
    match o with
    | .im _ => 2
    | .mem m => AddrMode.accCycles m
  | .ldx o | .ldy o | .ldsp o => Operand.cyclesOf o 2 3
  | .leax _ | .leay _ | .leasp _ => 4
  | .sta m => AddrMode.accCycles m
  | .stx _ | .sty _ | .stsp _ => 3
  | .tfrAcc | .tfrCcA | .tfrXY | .tfrYX | .tfrXSp | .tfrSpX | .tfrYSp | .tfrSpY => 2
  | .exgAcc | .exgXY | .exgXSp | .exgYSp => 4
  | .jmp m => AddrMode.jumpCycles m 2 4
  | .jsr m => AddrMode.jumpCycles m 4 5
  | .bsr _ => 5
  | .bra _ | .bmi _ | .bpl _ | .beq _ | .bne _ | .bvs _ | .bvc _ | .bcs _ | .bcc _ => 4
  | .bhi _ | .bls _ | .bgt _ | .bge _ | .ble _ | .blt _ => 4
  | .rts => 2
  | .rti => 6
  | .adda o | .adca o | .suba o | .sbca o => Operand.cyclesOf o 4 5
  | .clra | .nega | .deca | .inca => 3
  | .clr _ => 3
  | .neg _ | .dec _ | .inc _ => 4
  | .cmpa o | .cmpx o | .cmpy o | .cmpsp o | .bita o => Operand.cyclesOf o 3 4
  | .tsta => 2
  | .tst _ => 3
  | .anda o | .ora o | .eora o => Operand.cyclesOf o 4 5
  | .andcc _ | .orcc _ => 4
  | .coma => 3
  | .com _ => 4
  | .lsla | .lsra | .asra | .rola | .rora => 3
  | .lsl _ | .lsr _ | .asr _ | .rol _ | .ror _ => 4
  | .psha | .pshx | .pshy | .pshcc | .pula | .pulx | .puly | .pulcc => 3
  | .nop => 2
  | .notImplemented _ => Config.trapCycles

/-- The instruction at PC, its bytes fetched through `MemRead` (R4, R43), and the state in which its meaning
starts: PC past the instruction, the opcode in the instruction register, its cycles counted. -/
def State.fetchInstr (s : State) : Instr × State :=
  let op := s.fetch8
  match formOf op.1 with
  | .one i =>
    (i, { op.2 with
          hidden := { op.2.hidden with ir := op.1 }
          cycles := op.2.cycles + Instr.cycles i })
  | .two f =>
    let n := op.2.fetch8
    (f n.1, { n.2 with
              hidden := { n.2.hidden with ir := op.1 }
              cycles := n.2.cycles + Instr.cycles (f n.1) })

/-- A byte put where `fetch8` will find it: in storage, or, at a port address, as the peripheral's next
answer. -/
def State.placeByte (s : State) (adr v : Byte) : State :=
  if isPort adr then { s with portIn := v :: s.portIn }
  else { s with mem := Memory.store s.mem adr.toNat v }

/-- The bytes of an instruction placed at PC: one or two, as the opcode's format has. -/
def State.placeInstr (s : State) (op n : Byte) : State :=
  match formOf op with
  | .one _ => s.placeByte s.pc op
  | .two _ => (s.placeByte (s.pc + 1#8) n).placeByte s.pc op

end Sys2Proof.Machine
end

