-- ==== Sys2Proof/Machine/Step.lean ====
section
/-! DEFINITION. One step of the machine: the reset sequence, an interrupt entry, or one instruction
(`60_exceptions.md` R250, R255, R256; `70_reset_and_hazards.md` R280). -/

namespace Sys2Proof.Machine

/-- One step. While reset is in progress it is the reset sequence (R280). At a boundary reset comes first
(R256); then an interrupt that is accepted is entered instead of the fetch (R255); else the instruction at PC
is fetched and executed. -/
def step (s : State) : Host.Outcome State Fault Refusal :=
  match s.phase with
  | .vectorFetch => .next s.countStep.resetSequence
  | .newFetch =>
    if s.resetActive then .next s.passBoundary.resetSequence
    else if s.irqAccepted then .next s.passBoundary.irqEntry
    else exec s.passBoundary.fetchInstr.1 s.passBoundary.fetchInstr.2

/-- The state with an instruction stored where the next step fetches it, and with that fetch certain: reset
is over, and at the coming boundary neither input is active. The instruction is a number whose first byte is
bits 7..0 and whose second is bits 15..8; the bits above `nbits` are 0. It stands for the host's load of an
image and for the reset sequence (log entry 16). -/
def State.withFetchWord (s : State) (nbits w : Nat) : State :=
  { s.placeInstr (BitVec.ofNat 8 (w % 2 ^ nbits)) (BitVec.ofNat 8 (w % 2 ^ nbits / 256)) with
    phase := .newFetch
    inputs := { reset := false, irq := false } :: s.inputs }

end Sys2Proof.Machine
end

