-- ==== Sys2Proof/Machine/Assembly.lean ====
section
/-! DEFINITION. The assembly language as far as the spec gives it (`30_encoding.md` R68 to R72): numbers, the
operand forms, the alias mnemonics, the relative offset and the five directives. It is no part of the machine:
it says which bytes of the address space a source text stands for, before reset. What R73 leaves open (the
characters of labels and comments, expressions, negative `n`) is not here: a text comes as tokens. Log entry
24. -/

namespace Sys2Proof.Assembly

open Sys2Proof.Machine

/-! ### Numbers and values (R68) -/

/-- The three number bases. -/
inductive Base where
  | decimal
  | binary
  | hexadecimal
  deriving DecidableEq, Repr

/-- The character before a number: none, `%` or `$`. -/
def Base.mark : Base → Option Char
  | .decimal => none
  | .binary => some '%'
  | .hexadecimal => some '$'

/-- The base's radix. -/
def Base.radix : Base → Nat
  | .decimal => 10
  | .binary => 2
  | .hexadecimal => 16

/-- A number as written: its base and its digits, the most significant first. -/
structure Numeral where
  base : Base
  digits : List Nat
  deriving DecidableEq, Repr

/-- The number's value; none where a digit is not one of its base or there is no digit. -/
def Numeral.value (n : Numeral) : Option Nat :=
  if n.digits.isEmpty || n.digits.any (fun d => n.base.radix ≤ d) then none
  else some (n.digits.foldl (fun acc d => acc * n.base.radix + d) 0)

/-- A symbol's name. Which characters it may have is not given (R73). DESIGN CHOICE (log entry 24): whether letter
case matters is not given either; names are compared as exact strings, so names that differ in case differ. -/
abbrev Name := String

/-- `<Val>`: a number in any base, or a symbol. -/
inductive Value where
  | number (n : Numeral)
  | symbol (s : Name)
  deriving DecidableEq, Repr

/-- Why a text has no meaning. -/
inductive Problem where
  /-- a symbol that has no value where one is needed -/
  | noSuchSymbol (s : Name)
  /-- a number with a digit that its base does not have -/
  | badNumber
  /-- a value that eight bits do not hold; the spec gives no rule for it -/
  | valueTooLarge (n : Nat)
  /-- bytes before any `ORG`; the spec names no default start -/
  | noOrigin
  /-- bytes beyond address `$FF` -/
  | beyondTheEnd
  /-- a mnemonic with an operand form it does not have -/
  | noSuchForm
  deriving DecidableEq, Repr

/-- The symbols defined so far, the newest first. -/
abbrev Symbols := List (Name × Byte)

/-- A symbol's value: that of its newest definition. DESIGN CHOICE (log entry 24): R70 does not say what a
symbol defined twice means, as a label or by `EQU`. The model does not refuse such a text: for operands the
definition that stands last counts, even where it stands after them; for `ORG`, `EQU` and `RMB` the last one
before them. Names are compared as exact strings, letter case included. -/
def lookup : Symbols → Name → Option Byte
  | [], _ => none
  | (k, v) :: rest, s => if k = s then some v else lookup rest s

/-- A value as a byte. -/
def Value.eval (table : Symbols) : Value → Except Problem Byte
  | .number n =>
    match n.value with
    | none => .error .badNumber
    | some v => if v < 256 then .ok (BitVec.ofNat 8 v) else .error (.valueTooLarge v)
  | .symbol s =>
    match lookup table s with
    | none => .error (.noSuchSymbol s)
    | some v => .ok v

/-! ### Instructions (R69, R71, R72) -/

/-- The mnemonics of the opcode map, with the four aliases ASLA, ASL, BHS, BLO. -/
inductive Mnemonic where
  | lda | ldx | ldy | ldsp | leax | leay | leasp | sta | stx | sty | stsp | tfr | exg | jmp | jsr
  | bsr | bra | bmi | bpl | beq | bne | bvs | bvc | bcs | bcc | bhi | bls | bgt | bge | ble | blt
  | rts | rti | adda | adca | suba | sbca | clra | clr | nega | neg | deca | dec | inca | inc
  | cmpa | cmpx | cmpy | cmpsp | bita | tsta | tst | anda | ora | eora | andcc | orcc | coma | com
  | lsla | lsl | lsra | lsr | asra | asr | rola | rol | rora | ror | psha | pshx | pshy | pshcc
  | pula | pulx | puly | pulcc | nop
  /-- the same instruction as LSLA -/
  | asla
  /-- the same instruction as LSL -/
  | asl
  /-- the same instruction as BCC -/
  | bhs
  /-- the same instruction as BCS -/
  | blo
  deriving DecidableEq, Repr

/-- The mnemonic of record of an alias (R71). -/
def Mnemonic.ofRecord : Mnemonic → Mnemonic
  | .asla => .lsla
  | .asl => .lsl
  | .bhs => .bcc
  | .blo => .bcs
  | m => m

/-- The register names of TFR and EXG. -/
inductive Register where
  | a | cc | x | y | sp
  deriving DecidableEq, Repr

/-- The operand forms (R69), over the values they are written with. -/
inductive OperandForm (α : Type) where
  /-- nothing -/
  | inherent
  /-- `#<DATA>` -/
  | immediate (v : α)
  /-- `<ADRESS>`, absolute or relative -/
  | address (v : α)
  /-- `n,SP` -/
  | nSP (v : α)
  /-- `n,X` -/
  | nX (v : α)
  /-- `n,Y` -/
  | nY (v : α)
  /-- `A,X` -/
  | aX
  /-- `A,Y` -/
  | aY
  /-- `,X+` -/
  | xPostInc
  /-- `,X-` -/
  | xPostDec
  /-- `,+X` -/
  | xPreInc
  /-- `,-X` -/
  | xPreDec
  /-- `,Y+` -/
  | yPostInc
  /-- `,Y-` -/
  | yPostDec
  /-- `,+Y` -/
  | yPreInc
  /-- `,-Y` -/
  | yPreDec
  /-- two register names -/
  | registers (source destination : Register)
  deriving DecidableEq, Repr

/-- The operand with its value replaced. -/
def OperandForm.mapValue {α β : Type} (f : α → Except Problem β) : OperandForm α → Except Problem (OperandForm β)
  | .inherent => .ok .inherent
  | .immediate v => (f v).map .immediate
  | .address v => (f v).map .address
  | .nSP v => (f v).map .nSP
  | .nX v => (f v).map .nX
  | .nY v => (f v).map .nY
  | .aX => .ok .aX
  | .aY => .ok .aY
  | .xPostInc => .ok .xPostInc
  | .xPostDec => .ok .xPostDec
  | .xPreInc => .ok .xPreInc
  | .xPreDec => .ok .xPreDec
  | .yPostInc => .ok .yPostInc
  | .yPostDec => .ok .yPostDec
  | .yPreInc => .ok .yPreInc
  | .yPreDec => .ok .yPreDec
  | .registers r q => .ok (.registers r q)

/-- The addressing mode of a form that names a memory address (R66). -/
def OperandForm.mode : OperandForm Byte → Option AddrMode
  | .address n => some (.ab n)
  | .nSP n => some (.ns n)
  | .nX n => some (.nx n)
  | .nY n => some (.ny n)
  | .aX => some .ax
  | .aY => some .ay
  | .xPostInc => some .xPostInc
  | .xPostDec => some .xPostDec
  | .xPreInc => some .xPreInc
  | .xPreDec => some .xPreDec
  | .yPostInc => some .yPostInc
  | .yPostDec => some .yPostDec
  | .yPreInc => some .yPreInc
  | .yPreDec => some .yPreDec
  | .inherent | .immediate _ | .registers _ _ => none

/-- The operand of a form that gives a datum: immediate, or a memory address. -/
def OperandForm.datum (f : OperandForm Byte) : Option Operand :=
  match f with
  | .immediate v => some (.im v)
  | _ => f.mode.map .mem

/-- The offset of a relative instruction at `adr` for a target (R72). -/
def branchOffset (adr target : Byte) : Byte :=
  target - (adr + 2#8)

/-- The instruction of an inherent mnemonic. -/
def inherentInstr : Mnemonic → Option Instr
  | .rts => some .rts
  | .rti => some .rti
  | .clra => some .clra
  | .nega => some .nega
  | .deca => some .deca
  | .inca => some .inca
  | .tsta => some .tsta
  | .coma => some .coma
  | .lsla => some .lsla
  | .lsra => some .lsra
  | .asra => some .asra
  | .rola => some .rola
  | .rora => some .rora
  | .psha => some .psha
  | .pshx => some .pshx
  | .pshy => some .pshy
  | .pshcc => some .pshcc
  | .pula => some .pula
  | .pulx => some .pulx
  | .puly => some .puly
  | .pulcc => some .pulcc
  | .nop => some .nop
  | _ => none

/-- The instruction of a mnemonic with one datum operand. -/
def datumInstr : Mnemonic → Option (Operand → Instr)
  | .adda => some .adda
  | .adca => some .adca
  | .suba => some .suba
  | .sbca => some .sbca
  | .cmpa => some .cmpa
  | .cmpx => some .cmpx
  | .cmpy => some .cmpy
  | .cmpsp => some .cmpsp
  | .bita => some .bita
  | .anda => some .anda
  | .ora => some .ora
  | .eora => some .eora
  | .lda => some .lda
  | .ldx => some .ldx
  | .ldy => some .ldy
  | .ldsp => some .ldsp
  | _ => none

/-- The instruction of a mnemonic with a memory operand. -/
def addressInstr : Mnemonic → Option (AddrMode → Instr)
  | .leax => some .leax
  | .leay => some .leay
  | .leasp => some .leasp
  | .sta => some .sta
  | .stx => some .stx
  | .sty => some .sty
  | .stsp => some .stsp
  | .jmp => some .jmp
  | .jsr => some .jsr
  | .clr => some .clr
  | .neg => some .neg
  | .dec => some .dec
  | .inc => some .inc
  | .tst => some .tst
  | .com => some .com
  | .lsl => some .lsl
  | .lsr => some .lsr
  | .asr => some .asr
  | .rol => some .rol
  | .ror => some .ror
  | _ => none

/-- The instruction of a mnemonic with a relative operand. -/
def relativeInstr : Mnemonic → Option (Byte → Instr)
  | .bsr => some .bsr
  | .bra => some .bra
  | .bmi => some .bmi
  | .bpl => some .bpl
  | .beq => some .beq
  | .bne => some .bne
  | .bvs => some .bvs
  | .bvc => some .bvc
  | .bcs => some .bcs
  | .bcc => some .bcc
  | .bhi => some .bhi
  | .bls => some .bls
  | .bgt => some .bgt
  | .bge => some .bge
  | .ble => some .ble
  | .blt => some .blt
  | _ => none

/-- ANDCC and ORCC have the immediate form only. -/
def immediateInstr : Mnemonic → Option (Byte → Instr)
  | .andcc => some .andcc
  | .orcc => some .orcc
  | _ => none

/-- The TFR and EXG pairs that exist (R52, R69). -/
def registerInstr : Mnemonic → Register → Register → Option Instr
  | .tfr, .a, .cc => some .tfrAcc
  | .tfr, .cc, .a => some .tfrCcA
  | .tfr, .x, .y => some .tfrXY
  | .tfr, .y, .x => some .tfrYX
  | .tfr, .x, .sp => some .tfrXSp
  | .tfr, .sp, .x => some .tfrSpX
  | .tfr, .y, .sp => some .tfrYSp
  | .tfr, .sp, .y => some .tfrSpY
  | .exg, .a, .cc => some .exgAcc
  | .exg, .x, .y => some .exgXY
  | .exg, .x, .sp => some .exgXSp
  | .exg, .y, .sp => some .exgYSp
  | _, _, _ => none

/-- The instruction that mnemonic and operand form pick at an address, whether or not it exists (R69). -/
def candidate (m : Mnemonic) (f : OperandForm Byte) (adr : Byte) : Option Instr :=
  match f with
  | .inherent => inherentInstr m
  | .registers r q => registerInstr m r q
  | .immediate v =>
    match immediateInstr m with
    | some g => some (g v)
    | none => (datumInstr m).map (fun g => g (.im v))
  | .address v =>
    match relativeInstr m with
    | some g => some (g (branchOffset adr v))
    | none =>
      match addressInstr m with
      | some g => some (g (.ab v))
      | none => (datumInstr m).map (fun g => g (.mem (.ab v)))
  | _ =>
    match f.mode with
    | none => none
    | some k =>
      match addressInstr m with
      | some g => some (g k)
      | none => (datumInstr m).map (fun g => g (.mem k))

/-- The instruction of a line at an address (R69, R71): a form that the opcode map does not have is refused. -/
def pick (m : Mnemonic) (f : OperandForm Byte) (adr : Byte) : Except Problem Instr :=
  match candidate m.ofRecord f adr with
  | some i => if i.wf then .ok i else .error .noSuchForm
  | none => .error .noSuchForm

/-! ### Directives (R70) -/

/-- A line. The label, where there is one, names the address of the line's first byte. -/
inductive Line where
  /-- `ORG <Val>` -/
  | org (v : Value)
  /-- `Sym EQU <Val>` -/
  | equ (s : Name) (v : Value)
  /-- `[Sym] FCB <Val>,<Val>...` -/
  | fcb (label : Option Name) (vs : List Value)
  /-- `[Sym] FCS`: the ASCII codes of the string's characters -/
  | fcs (label : Option Name) (codes : List Byte)
  /-- `[Sym] RMB <Val>`: the content of the bytes is undefined -/
  | rmb (label : Option Name) (v : Value)
  /-- an instruction, in the syntax of its mode -/
  | code (label : Option Name) (m : Mnemonic) (f : OperandForm Value)
  deriving DecidableEq, Repr

/-- Where the assembler stands: the next address (256 is one beyond the last), and the symbols. -/
structure Position where
  next : Option Nat
  table : Symbols
  deriving DecidableEq, Repr

/-- The next address, where an `ORG` has set one and `size` more bytes fit. -/
def Position.place (p : Position) (size : Nat) : Except Problem Nat :=
  match p.next with
  | none => .error .noOrigin
  | some adr => if adr + size ≤ 256 then .ok adr else .error .beyondTheEnd

/-- `size` bytes reserved at the next address, which the label then names. DESIGN CHOICE (log entry 24): where
`size` is 0 (`RMB 0`, an empty `FCB` or `FCS`) there is no first reserved byte for R70's label to name; the model
gives it the next address, and `$00` where that is 256. -/
def Position.reserve (p : Position) (label : Option Name) (size : Nat) : Except Problem Position :=
  match p.place size with
  | .error e => .error e
  | .ok adr =>
    .ok { next := some (adr + size)
          table := match label with
            | none => p.table
            | some s => (s, BitVec.ofNat 8 adr) :: p.table }

/-- A line's effect on position and symbols. Sizes do not depend on values, so symbols may be used before
their definition, but not by `ORG` (R70), `EQU` and `RMB`. -/
def Position.afterLine (p : Position) : Line → Except Problem Position
  | .org v =>
    match v.eval p.table with
    | .error e => .error e
    | .ok b => .ok { p with next := some b.toNat }
  | .equ s v =>
    match v.eval p.table with
    | .error e => .error e
    | .ok b => .ok { p with table := (s, b) :: p.table }
  | .fcb label vs => p.reserve label vs.length
  | .fcs label codes => p.reserve label codes.length
  | .rmb label v =>
    match v.eval p.table with
    | .error e => .error e
    | .ok b => p.reserve label b.toNat
  | .code label m f =>
    match f.mapValue (fun _ => .ok 0#8) with
    | .error e => .error e
    | .ok g =>
      match pick m g 0#8 with
      | .error e => .error e
      | .ok i => p.reserve label i.length

/-- The symbols of a whole text. -/
def symbols : Position → List Line → Except Problem Symbols
  | p, [] => .ok p.table
  | p, l :: rest =>
    match p.afterLine l with
    | .error e => .error e
    | .ok q => symbols q rest

/-- The values of a list. -/
def evalAll (table : Symbols) : List Value → Except Problem (List Byte)
  | [] => .ok []
  | v :: rest =>
    match v.eval table, evalAll table rest with
    | .ok b, .ok bs => .ok (b :: bs)
    | .error e, _ => .error e
    | _, .error e => .error e

/-- The bytes of a line at an address. -/
def bytesOf (table : Symbols) (adr : Byte) : Line → Except Problem (List Byte)
  | .org _ | .equ _ _ | .rmb _ _ => .ok []
  | .fcb _ vs => evalAll table vs
  | .fcs _ codes => .ok codes
  | .code _ m f =>
    match f.mapValue (Value.eval table) with
    | .error e => .error e
    | .ok g => (pick m g adr).map encode

/-- Bytes put into an image at consecutive addresses. A port's address holds no byte (R34). DESIGN CHOICE (log
entry 24): R70 does not say what two lines that place bytes at the same address mean, where an `ORG` goes back;
here the later line's byte counts. An `RMB` places nothing, so over bytes already placed it leaves them. -/
def placeBytes (image : Memory) (adr : Nat) : List Byte → Memory
  | [] => image
  | b :: rest =>
    placeBytes (if isPort (BitVec.ofNat 8 adr) then image else image.store adr b) (adr + 1) rest

/-- The image of the lines from a position on, with all symbols known. -/
def emit (table : Symbols) : Position → Memory → List Line → Except Problem Memory
  | _, image, [] => .ok image
  | p, image, l :: rest =>
    match p.afterLine l with
    | .error e => .error e
    | .ok q =>
      match bytesOf table (BitVec.ofNat 8 (p.next.getD 0)) l with
      | .error e => .error e
      | .ok bs => emit table q (placeBytes image (p.next.getD 0) bs) rest

/-- The memory image of a text: the bytes its instructions, `FCB` and `FCS` place. What `RMB` reserves, and
what no line names, is not listed: it holds no known byte. -/
def assemble (text : List Line) : Except Problem Memory :=
  match symbols ⟨none, []⟩ text with
  | .error e => .error e
  | .ok table => emit table ⟨none, []⟩ [] text

end Sys2Proof.Assembly
end

