-- ==== Sys2Proof/Machine/ControlUnit.lean ====
section
/-! DEFINITION. HB's Part 2 (`49_alu_and_control_signals.md`): the ALU's function table with its notes (R225
to R227), the ALU function that each instruction uses (R228), the signals of the fixed control unit and what
one clock pulse does with them (R229), and the selectors of flags, carry-in and address (R230 to R232). The
meanings are written from the instruction rules; this file is the second description of the same results that
R228 relates to them. No step uses it: which signals are active in which state is lost (N13). Log entry 18. -/

namespace Sys2Proof.Machine

/-- The nine-bit sum whose bit 8 is `c8` (R227, note 3). -/
def aluSum (d e : Byte) (cin : Bool) : BitVec 9 :=
  d.setWidth 9 + e.setWidth 9 + (BitVec.ofBool cin).setWidth 9

/-- Note (2): overflow of the sum of `d` and the second addend the adder receives, `e` (D16). -/
def aluOverflow (u d e : Byte) : Bool :=
  (!u.getLsbD 7 && d.getLsbD 7 && e.getLsbD 7) || (u.getLsbD 7 && !d.getLsbD 7 && !e.getLsbD 7)

/-- Note (1): all bits of `u` are 0. -/
def aluZero (u : Byte) : Bool :=
  !u.getLsbD 7 && !u.getLsbD 6 && !u.getLsbD 5 && !u.getLsbD 4 && !u.getLsbD 3 && !u.getLsbD 2 &&
    !u.getLsbD 1 && !u.getLsbD 0

/-- A row whose N is `u7`, Z note (1), V and C given. -/
def aluRow (u : Byte) (v c : Bool) : Result :=
  { r := u, n := u.getLsbD 7, z := aluZero u, v := v, c := c }

/-- An adding row: notes (2) and (3), C the raw carry `c8`. -/
def aluAdd (d e : Byte) (cin : Bool) : Result :=
  let t := aluSum d e cin
  aluRow (t.setWidth 8) (aluOverflow (t.setWidth 8) d e) (t.getLsbD 8)

/-- The ALU's function table (R226): `f` is f3..f0; C of function 1100 is the raw `c8`. -/
def alu (f : BitVec 4) (d e : Byte) (cin : Bool) : Result :=
  match f.toNat with
  | 0 => aluRow 0x00#8 false false
  | 1 => aluRow 0xFD#8 false false
  | 2 => aluRow 0xFE#8 false false
  | 3 => aluRow 0xFF#8 false false
  | 4 => aluRow e false false
  | 5 => aluRow (~~~d + (BitVec.ofBool cin).setWidth 8) (d == 0x80#8) (!(d == 0x00#8))
  | 6 => aluRow (d ||| e) false false
  | 7 => aluRow (d &&& e) false false
  | 8 => aluRow (d ^^^ e) false false
  | 9 => aluAdd d 0x00#8 cin
  | 10 => aluAdd d 0xFF#8 false
  | 11 => aluAdd d e cin
  | 12 => aluAdd d (~~~e) cin
  | 13 =>
    aluRow (d.extractLsb' 0 7 ++ BitVec.ofBool cin) (Bool.xor (d.getLsbD 7) (d.getLsbD 6)) (d.getLsbD 7)
  | 14 => aluRow (BitVec.ofBool cin ++ d.extractLsb' 1 7) (Bool.xor cin (d.getLsbD 7)) (d.getLsbD 0)
  | _ => aluRow (BitVec.ofBool (d.getLsbD 7) ++ d.extractLsb' 1 7) false (d.getLsbD 0)

/-- The ALU's outputs as the selectors of CC take them: C of function 1100 is the borrow, the inverse of the
adder's `c8` (R227, R228, `90_conflicts.md` C17). DESIGN CHOICE (log entry 18): the inversion stands here,
between the ALU and the selector; the spec says that its place in the data path is lost. -/
def flagsToCC (f : BitVec 4) (o : Result) : Result :=
  { o with c := if f = 12#4 then !o.c else o.c }

/-- The selector of N, Z, V or C (R230): the ALU's output, the bus bit, 0, or unchanged. -/
def selectFlag (sel : BitVec 2) (fromAlu fromBus old : Bool) : Bool :=
  match sel.toNat with
  | 0 => fromAlu
  | 1 => fromBus
  | 2 => false
  | _ => old

/-- The selector of I (R230): unchanged, bus bit 4, 1, or unchanged. -/
def selectI (sel : BitVec 2) (fromBus old : Bool) : Bool :=
  match sel.toNat with
  | 0 => old
  | 1 => fromBus
  | 2 => true
  | _ => old

/-- CC as the selectors g11..g2 set it (R230) from the ALU's outputs and the byte on the bus. -/
def selectCC (gI gN gZ gV gC : BitVec 2) (o : Result) (bus : Byte) (old : CC) : CC where
  i := selectI gI (bus.getLsbD 4) old.i
  n := selectFlag gN o.n (bus.getLsbD 3) old.n
  z := selectFlag gZ o.z (bus.getLsbD 2) old.z
  v := selectFlag gV o.v (bus.getLsbD 1) old.v
  c := selectFlag gC o.c (bus.getLsbD 0) old.c

/-- The carry-in selector g1 g0 (R231): 0, 1, C, or C inverted. -/
def selectCarryIn (sel : BitVec 2) (c : Bool) : Bool :=
  match sel.toNat with
  | 0 => false
  | 1 => true
  | 2 => c
  | _ => !c

/-- The address selector g14 g13 g12 (R232): PC, T + SP, T + Y, T + X, or TA. -/
def selectAddress (sel : BitVec 3) (pc sp x y t ta : Byte) : Byte :=
  match sel.toNat with
  | 0 => pc
  | 1 => t + sp
  | 2 => t + y
  | 3 => t + x
  | _ => ta

/-! ### The signals of the fixed control unit (R229) -/

/-- The control unit's state, Q0 to QF. -/
abbrev QState := Fin 16

/-- The inputs of the control unit, but for the clock: a clock pulse is one `Datapath.clock`. -/
structure ControlInputs where
  reset : Bool
  interrupt : Bool
  qState : QState
  /-- the instruction register, which a one-of-256 selector decodes -/
  opcode : Byte
  n : Bool
  z : Bool
  v : Bool
  c : Bool
  deriving DecidableEq, Repr

/-- The outputs of the control unit, one field per signal or selector, and NF. A field not given is
inactive, or the selector 0. -/
structure ControlSignals where
  ldA : Bool := false
  oeA : Bool := false
  ldI : Bool := false
  ldT : Bool := false
  clrT : Bool := false
  ldR : Bool := false
  oeR : Bool := false
  ldCC : Bool := false
  oeCC : Bool := false
  ldX : Bool := false
  oeX : Bool := false
  ldY : Bool := false
  oeY : Bool := false
  ldPC : Bool := false
  oePC : Bool := false
  incPC : Bool := false
  ldSP : Bool := false
  oeSP : Bool := false
  incSP : Bool := false
  decSP : Bool := false
  ldTA : Bool := false
  mr : Bool := false
  mw : Bool := false
  /-- `f3..f0` -/
  f : BitVec 4 := 0#4
  /-- `g1 g0`, carry-in -/
  gCin : BitVec 2 := 0#2
  /-- `g3 g2` -/
  gC : BitVec 2 := 0#2
  /-- `g5 g4` -/
  gV : BitVec 2 := 0#2
  /-- `g7 g6` -/
  gZ : BitVec 2 := 0#2
  /-- `g9 g8` -/
  gN : BitVec 2 := 0#2
  /-- `g11 g10` -/
  gI : BitVec 2 := 0#2
  /-- `g14 g13 g12`, address -/
  gAddress : BitVec 3 := 0#3
  /-- New Fetch, generated internally -/
  nf : Bool := false
  deriving DecidableEq, Repr

/-- The control unit's inputs in a state of the machine. -/
def State.controlInputs (s : State) (q : QState) (inputs : Inputs) : ControlInputs where
  reset := inputs.reset
  interrupt := inputs.irq
  qState := q
  opcode := s.hidden.ir
  n := s.cc.n
  z := s.cc.z
  v := s.cc.v
  c := s.cc.c

/-- What the control unit starts. -/
inductive Start where
  | resetSequence
  | interruptEntry
  | fetchPhase
  deriving DecidableEq, Repr

/-- What starts in a state of the control unit (R229, R255, R256): `Reset` is asynchronous; `Interrupt` is
checked at NF, under the mask I; else NF starts a new fetch phase; without NF nothing starts. -/
def ControlInputs.start (k : ControlInputs) (g : ControlSignals) (mask : Bool) : Option Start :=
  if k.reset then some .resetSequence
  else if g.nf then (if k.interrupt && !mask then some .interruptEntry else some .fetchPhase)
  else none

/-! ### The data path (R229) -/

/-- The registers of the data path: the programmer's six and the hidden four. -/
structure Datapath where
  a : Byte
  x : Byte
  y : Byte
  sp : Byte
  pc : Byte
  cc : CC
  hidden : Hidden
  deriving DecidableEq, Repr

/-- The data path's registers in a state. -/
def State.datapath (s : State) : Datapath :=
  ⟨s.a, s.x, s.y, s.sp, s.pc, s.cc, s.hidden⟩

/-- The state with the data path's registers as given. -/
def State.withDatapath (s : State) (p : Datapath) : State :=
  { s with a := p.a, x := p.x, y := p.y, sp := p.sp, pc := p.pc, cc := p.cc, hidden := p.hidden }

/-- The bytes that the output enables put on the bus, CC with the upper bits `hi`. -/
def Datapath.driven (p : Datapath) (g : ControlSignals) (hi : BitVec 3) : List Byte :=
  (if g.oeA then [p.a] else []) ++ (if g.oeR then [p.hidden.r] else []) ++
    (if g.oeCC then [p.cc.toByte hi] else []) ++ (if g.oeX then [p.x] else []) ++
    (if g.oeY then [p.y] else []) ++ (if g.oePC then [p.pc] else []) ++ (if g.oeSP then [p.sp] else [])

/-- The address that the address selector forms. -/
def Datapath.address (p : Datapath) (g : ControlSignals) : Byte :=
  selectAddress g.gAddress p.pc p.sp p.x p.y p.hidden.t p.hidden.ta

/-- The ALU's outputs for two operands. -/
def Datapath.aluOut (p : Datapath) (g : ControlSignals) (d e : Byte) : Result :=
  alu g.f d e (selectCarryIn g.gCin p.cc.c)

/-- The registers after one clock pulse: every load takes the byte at the register's input, CC through its
selectors. DESIGN CHOICES (log entry 18), since the bus topology is lost (N12): A, X, Y, SP, PC, T, the
instruction register and the selectors of CC all take one and the same `bus` byte, while the bytes at the inputs
of R, of TA and of the ALU are arguments. Not stated either, and the model's: a load wins over a count or a
clear of the same register, and `INC_SP` wins over `DEC_SP`. -/
def Datapath.clock (p : Datapath) (g : ControlSignals) (bus intoR intoTA d e : Byte) : Datapath where
  a := if g.ldA then bus else p.a
  x := if g.ldX then bus else p.x
  y := if g.ldY then bus else p.y
  sp :=
    if g.ldSP then bus
    else if g.incSP then p.sp + 1#8
    else if g.decSP then p.sp - 1#8
    else p.sp
  pc := if g.ldPC then bus else if g.incPC then p.pc + 1#8 else p.pc
  cc :=
    if g.ldCC then selectCC g.gI g.gN g.gZ g.gV g.gC (flagsToCC g.f (p.aluOut g d e)) bus p.cc else p.cc
  hidden :=
    { t := if g.ldT then bus else if g.clrT then 0#8 else p.hidden.t
      r := if g.ldR then intoR else p.hidden.r
      ta := if g.ldTA then intoTA else p.hidden.ta
      ir := if g.ldI then bus else p.hidden.ir }

/-- The bytes on the bus in a state, and the state after they were read: the output enables' (a read of CC as
R15 has it), and with `MR` the byte that memory or the input port gives at the formed address (R229, R232). -/
def State.drive (s : State) (g : ControlSignals) : List Byte × State :=
  let out := s.datapath.driven g (Config.ccHi s.ccReads)
  let s1 := if g.oeCC then s.ccRead.2 else s
  if g.mr then
    let m := s1.memRead (s.datapath.address g)
    (out ++ [m.1], m.2)
  else (out, s1)

/-- The byte on the bus: that of its one driver. With no driver, or with several, the spec gives no value: it
is the open byte `floating`. -/
def busByte (driven : List Byte) (floating : Byte) : Byte :=
  match driven with
  | [b] => b
  | _ => floating

/-- One clock pulse of the whole machine (R229): `MR` reads memory or an input port onto the bus, the registers
are clocked, and `MW` clocks the bus byte into memory or the output port, both at the address that the address
selector formed before the pulse (R232). DESIGN CHOICES (log entry 18): the memory's data are on that same bus,
and a pulse with both signals reads first. -/
def State.clockPulse (s : State) (g : ControlSignals) (floating intoR intoTA d e : Byte) : State :=
  let b := s.drive g
  let bus := busByte b.1 floating
  let t := b.2.withDatapath (s.datapath.clock g bus intoR intoTA d e)
  if g.mw then t.memWrite (s.datapath.address g) bus else t

/-! ### Which ALU function each instruction uses (R228) -/

/-- An ALU function with its carry-in and the selectors of the flags. A field not given is the selector 00:
carry-in 0, N Z V C from the ALU, I unchanged. -/
structure AluUse where
  f : BitVec 4
  gCin : BitVec 2 := 0#2
  gI : BitVec 2 := 0#2
  gN : BitVec 2 := 0#2
  gZ : BitVec 2 := 0#2
  gV : BitVec 2 := 0#2
  gC : BitVec 2 := 0#2
  deriving DecidableEq, Repr

/-- The mapping of R228; none where the rule names no function for the instruction. For TST the rule allows
0100 and 1001, which give the same; 0100 stands here (log entry 18). -/
def aluUse : Instr → Option AluUse
  | .lda _ | .ldx _ | .ldy _ | .ldsp _ => some { f := 4#4, gC := 3#2 }
  | .adda _ => some { f := 11#4 }
  | .adca _ => some { f := 11#4, gCin := 2#2 }
  | .suba _ | .cmpa _ | .cmpx _ | .cmpy _ | .cmpsp _ => some { f := 12#4, gCin := 1#2 }
  | .sbca _ => some { f := 12#4, gCin := 3#2 }
  | .inca | .inc _ => some { f := 9#4, gCin := 1#2, gC := 3#2 }
  | .deca | .dec _ => some { f := 10#4, gC := 3#2 }
  | .nega | .neg _ => some { f := 5#4, gCin := 1#2 }
  | .coma | .com _ => some { f := 5#4, gV := 2#2, gC := 3#2 }
  | .clra | .clr _ => some { f := 0#4 }
  | .tsta | .tst _ => some { f := 4#4, gC := 2#2 }
  | .anda _ | .bita _ => some { f := 7#4, gC := 3#2 }
  | .ora _ => some { f := 6#4, gC := 3#2 }
  | .eora _ => some { f := 8#4, gC := 3#2 }
  | .andcc _ => some { f := 7#4, gI := 1#2, gN := 1#2, gZ := 1#2, gV := 1#2, gC := 1#2 }
  | .orcc _ => some { f := 6#4, gI := 1#2, gN := 1#2, gZ := 1#2, gV := 1#2, gC := 1#2 }
  | .lsla | .lsl _ => some { f := 13#4 }
  | .rola | .rol _ => some { f := 13#4, gCin := 2#2 }
  | .lsra | .lsr _ => some { f := 14#4 }
  | .rora | .ror _ => some { f := 14#4, gCin := 2#2 }
  | .asra | .asr _ => some { f := 15#4 }
  | .leax _ | .leay _ | .leasp _ | .sta _ | .stx _ | .sty _ | .stsp _ => none
  | .tfrAcc | .tfrCcA | .tfrXY | .tfrYX | .tfrXSp | .tfrSpX | .tfrYSp | .tfrSpY => none
  | .exgAcc | .exgXY | .exgXSp | .exgYSp => none
  | .jmp _ | .jsr _ | .bsr _ | .bra _ | .bmi _ | .bpl _ | .beq _ | .bne _ | .bvs _ | .bvc _ => none
  | .bcs _ | .bcc _ | .bhi _ | .bls _ | .bgt _ | .bge _ | .ble _ | .blt _ | .rts | .rti => none
  | .psha | .pshx | .pshy | .pshcc | .pula | .pulx | .puly | .pulcc | .nop | .notImplemented _ => none

/-- The signals of the pulse that stores an instruction's flags. -/
def AluUse.signals (u : AluUse) : ControlSignals :=
  { ldCC := true, f := u.f, gCin := u.gCin, gI := u.gI, gN := u.gN, gZ := u.gZ, gV := u.gV, gC := u.gC }

/-- The ALU's operands D and E for an instruction of R228, read from the rules' formulas (`A + M`, `D + E'`,
`U = E`). An operand that the function does not use is the open byte `idle`, and CC as an operand has the upper
bits `hi`. -/
def aluOperands (idle : Byte) (hi : BitVec 3) (s : State) : Instr → Byte × Byte
  | .lda o | .ldx o | .ldy o | .ldsp o => (idle, (s.operand o).1)
  | .adda o | .adca o | .suba o | .sbca o | .cmpa o | .bita o | .anda o | .ora o | .eora o =>
    (s.a, (s.operand o).1)
  | .cmpx o => (s.x, (s.operand o).1)
  | .cmpy o => (s.y, (s.operand o).1)
  | .cmpsp o => (s.sp, (s.operand o).1)
  | .tsta => (idle, s.a)
  | .tst m => (idle, (s.operand (.mem m)).1)
  | .andcc v | .orcc v => (s.cc.toByte hi, v)
  | .inca | .deca | .nega | .coma | .lsla | .rola | .lsra | .rora | .asra => (s.a, idle)
  | .inc m | .dec m | .neg m | .com m | .lsl m | .rol m | .lsr m | .ror m | .asr m =>
    ((s.operand (.mem m)).1, idle)
  | .clra | .clr _ => (idle, idle)
  | .leax _ | .leay _ | .leasp _ | .sta _ | .stx _ | .sty _ | .stsp _ => (idle, idle)
  | .tfrAcc | .tfrCcA | .tfrXY | .tfrYX | .tfrXSp | .tfrSpX | .tfrYSp | .tfrSpY => (idle, idle)
  | .exgAcc | .exgXY | .exgXSp | .exgYSp => (idle, idle)
  | .jmp _ | .jsr _ | .bsr _ | .bra _ | .bmi _ | .bpl _ | .beq _ | .bne _ | .bvs _ | .bvc _ => (idle, idle)
  | .bcs _ | .bcc _ | .bhi _ | .bls _ | .bgt _ | .bge _ | .ble _ | .blt _ | .rts | .rti => (idle, idle)
  | .psha | .pshx | .pshy | .pshcc | .pula | .pulx | .puly | .pulcc | .nop | .notImplemented _ => (idle, idle)

end Sys2Proof.Machine
end

