-- ==== Sys2Proof/Safety.lean ====
section
/-! DEFINITION. What counts as a good state and a safe run, and the terms the claims are written in. The
machine has no protection and no stop (R39, R259, `93_implementation_defined.md` section 2), so a run is
safe as such; what a claim can ask is that the memory keeps its form and that only ports are traced. -/

namespace Sys2Proof.Safety

open Sys2Proof.Machine

/-- The invariant of every step: the memory is in its canonical form, lists no byte of a port (a write to a
port stores nothing, R31), and the trace holds accesses to the ports only (R34). -/
abbrev MemoryInv (s : State) : Prop :=
  s.mem.wf ∧ ∀ e ∈ s.ports, isPort e.addr = true

/-- A step that gives a next state. -/
abbrev Continues (o : Host.Outcome State Fault Refusal) : Prop :=
  ∃ t, o = .next t

/-- `END_OF_RUN` (R3, D20), the first of the two forms the spec suggests: an instruction boundary with PC at
a given address. The hardware itself never stops. -/
def reachedEnd (adr : Byte) (s : State) : Bool :=
  s.phase == .newFetch && s.pc == adr

/-- `END_OF_RUN` (R3, D20), the second form: the instruction at PC is a BRA or JMP to itself. -/
def fetchesSelfBranch (s : State) : Bool :=
  s.phase == .newFetch &&
    ((s.byteAt s.pc == 0x21#8 && s.byteAt (s.pc + 1#8) == 0xFE#8) ||
      (s.byteAt s.pc == 0x33#8 && s.byteAt (s.pc + 1#8) == s.pc))

/-- The state an instruction leads to. -/
def after (i : Instr) (s : State) : State :=
  match exec i s with
  | .next t => t
  | .fault _ => s
  | .refused _ => s

/-! ### Instruction boundaries, in the claims -/

/-- The inputs `Reset` and `Interrupt` at this boundary have these values (R255): the next scheduled sample, or,
where none is scheduled, no reset and the environment's free `IRQ_LINE` (log entries 6 and 7). -/
def Samples (s : State) (reset irq : Bool) : Prop :=
  (∃ l, s.inputs = ⟨reset, irq⟩ :: l) ∨
    (s.inputs = [] ∧ reset = false ∧ irq = Config.irqLine s.boundary)

/-- A boundary at which an instruction is fetched (R255): no reset, and the interrupt line inactive or I = 1. -/
def Fetches (s : State) : Prop :=
  s.phase = .newFetch ∧ ∃ irq, Samples s false irq ∧ (irq = false ∨ s.cc.i = true)

/-- The access is a read of a port. -/
def isInput : PortEvent → Bool
  | .input _ _ => true
  | .output _ _ => false

/-! ### Memory, in the claims -/

/-- `adr` is one of the two port addresses of R33. -/
abbrev Port (adr : Byte) : Prop :=
  adr = 0xFB#8 ∨ adr = 0xFC#8

/-- `adr` is storage, and `WRITABLE` holds of it (R31). -/
abbrev Stores (s : State) (adr : Byte) : Prop :=
  ¬ Port adr ∧ adr ∉ s.readOnly

/-- The memory and the trace of `t` are those of `s` after `MemWrite(adr, 1, v)` and nothing else (R31): a
port outputs the byte, writable storage holds it, and every other byte reads as before. -/
structure Wrote (s t : State) (adr v : Byte) : Prop where
  output : Port adr → t.ports = s.ports ++ [.output adr v] ∧ ∀ b, t.byteAt b = s.byteAt b
  quiet : ¬ Port adr → t.ports = s.ports
  stored : Stores s adr → t.byteAt adr = v
  dropped : adr ∈ s.readOnly → t.byteAt adr = s.byteAt adr
  others : ∀ b, b ≠ adr → t.byteAt b = s.byteAt b

/-- The five addresses of an exception frame below `sp` (R262) are writable storage. -/
abbrev FrameStores (s : State) : Prop :=
  Stores s (s.sp - 1#8) ∧ Stores s (s.sp - 2#8) ∧ Stores s (s.sp - 3#8) ∧ Stores s (s.sp - 4#8) ∧
    Stores s (s.sp - 5#8)

/-- The addresses an instruction writes to (R45), computed as its meaning computes them. -/
def storedTo (i : Instr) (s : State) : List Byte :=
  match i with
  | .sta m | .stx m | .sty m | .stsp m => [(s.ea m).1]
  | .clr m | .neg m | .inc m | .dec m | .com m => [(s.ea m).1]
  | .lsl m | .lsr m | .asr m | .rol m | .ror m => [(s.ea m).1]
  | .jsr _ | .bsr _ | .psha | .pshx | .pshy | .pshcc => [s.sp - 1#8]
  | .notImplemented _ => [s.sp - 1#8, s.sp - 2#8, s.sp - 3#8, s.sp - 4#8, s.sp - 5#8]
  | .lda _ | .ldx _ | .ldy _ | .ldsp _ | .leax _ | .leay _ | .leasp _ => []
  | .tfrAcc | .tfrCcA | .tfrXY | .tfrYX | .tfrXSp | .tfrSpX | .tfrYSp | .tfrSpY => []
  | .exgAcc | .exgXY | .exgXSp | .exgYSp => []
  | .jmp _ | .bra _ | .bmi _ | .bpl _ | .beq _ | .bne _ | .bvs _ | .bvc _ | .bcs _ | .bcc _ => []
  | .bhi _ | .bls _ | .bgt _ | .bge _ | .ble _ | .blt _ | .rts | .rti => []
  | .adda _ | .adca _ | .suba _ | .sbca _ | .clra | .nega | .deca | .inca => []
  | .cmpa _ | .cmpx _ | .cmpy _ | .cmpsp _ | .bita _ | .tsta | .tst _ => []
  | .anda _ | .ora _ | .eora _ | .andcc _ | .orcc _ | .coma => []
  | .lsla | .lsra | .asra | .rola | .rora | .pula | .pulx | .puly | .pulcc | .nop => []

/-! ### Registers and flags, in the claims -/

/-- The mode steps X (R62 to R65). -/
def stepsX : AddrMode → Bool
  | .xPostInc | .xPostDec | .xPreInc | .xPreDec => true
  | .ab _ | .ns _ | .nx _ | .ny _ | .ax | .ay => false
  | .yPostInc | .yPostDec | .yPreInc | .yPreDec => false

/-- The mode steps Y (R62 to R65). -/
def stepsY : AddrMode → Bool
  | .yPostInc | .yPostDec | .yPreInc | .yPreDec => true
  | .ab _ | .ns _ | .nx _ | .ny _ | .ax | .ay => false
  | .xPostInc | .xPostDec | .xPreInc | .xPreDec => false

/-- The column "written by" of R10 for A. -/
def writesA (i : Instr) : Bool :=
  i ∈ [.pula, .tfrCcA, .exgAcc, .rti, .clra, .nega, .inca, .deca, .coma, .lsla, .lsra, .asra, .rola, .rora] ||
    match i with
    | .lda _ | .adda _ | .adca _ | .suba _ | .sbca _ | .anda _ | .ora _ | .eora _ => true
    | _ => false

/-- The column "written by" of R10 for X. -/
def writesX (i : Instr) : Bool :=
  i ∈ [.pulx, .tfrYX, .tfrSpX, .exgXY, .exgXSp, .rti] ||
    match i with
    | .ldx _ | .leax _ => true
    | .lda (.mem m) | .sta m => stepsX m
    | _ => false

/-- The column "written by" of R10 for Y. -/
def writesY (i : Instr) : Bool :=
  i ∈ [.puly, .tfrXY, .tfrSpY, .exgXY, .exgYSp, .rti] ||
    match i with
    | .ldy _ | .leay _ => true
    | .lda (.mem m) | .sta m => stepsY m
    | _ => false

/-- The column "written by" of R10 for SP: its loads and transfers, and every push and pull. -/
def writesSP (i : Instr) : Bool :=
  i ∈ [.tfrXSp, .tfrYSp, .exgXSp, .exgYSp, .psha, .pshx, .pshy, .pshcc, .pula, .pulx, .puly, .pulcc, .rts,
      .rti] ||
    match i with
    | .ldsp _ | .leasp _ | .jsr _ | .bsr _ | .notImplemented _ => true
    | _ => false

/-- The column "written by" of R10 for PC, but for the fetch. -/
def writesPC (i : Instr) : Bool :=
  i ∈ [.rts, .rti] ||
    match i with
    | .jmp _ | .jsr _ | .bsr _ | .bra _ | .bmi _ | .bpl _ | .beq _ | .bne _ | .bvs _ | .bvc _ => true
    | .bcs _ | .bcc _ | .bhi _ | .bls _ | .bgt _ | .bge _ | .ble _ | .blt _ | .notImplemented _ => true
    | _ => false

/-- A cell of the flag table R19. -/
inductive Mark where
  /-- `Δ` or `w`: set from the result or from the data moved -/
  | set
  /-- `0` -/
  | zero
  /-- `1` -/
  | one
  /-- `-`: unchanged -/
  | kept
  /-- the trap's cell for I: 1 if `TRAP_SETS_I`, else unchanged -/
  | trap
  deriving DecidableEq, Repr

/-- What a mark says of a flag's old and new value. -/
def Mark.allows (m : Mark) (old new : Bool) : Prop :=
  match m with
  | .set => True
  | .zero => new = false
  | .one => new = true
  | .kept => new = old
  | .trap => new = if Config.trapSetsI then true else old

/-- A row of the flag table R19: the cells of I, N, Z, V, C. -/
structure Marks where
  i : Mark
  n : Mark
  z : Mark
  v : Mark
  c : Mark

/-- The flag table R19. -/
def marks : Instr → Marks
  | .adda _ | .adca _ | .suba _ | .sbca _ => ⟨.kept, .set, .set, .set, .set⟩
  | .cmpa _ | .cmpx _ | .cmpy _ | .cmpsp _ | .nega | .neg _ => ⟨.kept, .set, .set, .set, .set⟩
  | .inca | .inc _ | .deca | .dec _ => ⟨.kept, .set, .set, .set, .kept⟩
  | .clra | .clr _ => ⟨.kept, .zero, .one, .zero, .zero⟩
  | .tsta | .tst _ => ⟨.kept, .set, .set, .zero, .zero⟩
  | .lda _ | .ldx _ | .ldy _ | .ldsp _ => ⟨.kept, .set, .set, .zero, .kept⟩
  | .anda _ | .ora _ | .eora _ | .bita _ | .coma | .com _ => ⟨.kept, .set, .set, .zero, .kept⟩
  | .lsla | .lsl _ | .rola | .rol _ | .rora | .ror _ => ⟨.kept, .set, .set, .set, .set⟩
  | .lsra | .lsr _ => ⟨.kept, .zero, .set, .set, .set⟩
  | .asra | .asr _ => ⟨.kept, .set, .set, .zero, .set⟩
  | .andcc _ | .orcc _ | .tfrAcc | .exgAcc | .pulcc | .rti => ⟨.set, .set, .set, .set, .set⟩
  | .notImplemented _ => ⟨.trap, .kept, .kept, .kept, .kept⟩
  | .sta _ | .stx _ | .sty _ | .stsp _ | .leax _ | .leay _ | .leasp _ =>
    ⟨.kept, .kept, .kept, .kept, .kept⟩
  | .tfrCcA | .tfrXY | .tfrYX | .tfrXSp | .tfrSpX | .tfrYSp | .tfrSpY | .exgXY | .exgXSp | .exgYSp =>
    ⟨.kept, .kept, .kept, .kept, .kept⟩
  | .jmp _ | .jsr _ | .bsr _ | .rts | .bra _ | .bmi _ | .bpl _ | .beq _ | .bne _ | .bvs _ | .bvc _ =>
    ⟨.kept, .kept, .kept, .kept, .kept⟩
  | .bcs _ | .bcc _ | .bhi _ | .bls _ | .bgt _ | .bge _ | .ble _ | .blt _ =>
    ⟨.kept, .kept, .kept, .kept, .kept⟩
  | .psha | .pshx | .pshy | .pshcc | .pula | .pulx | .puly | .nop => ⟨.kept, .kept, .kept, .kept, .kept⟩

/-- CC with new N, Z, V, C and the old I: I is changed by no arithmetic instruction (R18). -/
def flags (cc : CC) (n z v c : Prop) [Decidable n] [Decidable z] [Decidable v] [Decidable c] : CC :=
  ⟨cc.i, decide n, decide z, decide v, decide c⟩

/-- N of R8: bit 7, that is a value of at least 128. -/
abbrev Negative (r : Byte) : Prop := 128 ≤ r.toNat

/-- Z of R8. -/
abbrev IsZero (r : Byte) : Prop := r.toNat = 0

/-- The true signed result does not fit in eight bits (R162). -/
abbrev Overflows (r : Int) : Prop := r < -128 ∨ 127 < r

/-! ### Rows of the opcode table, in the claims -/

/-- A one-byte instruction's opcode and cycles. -/
abbrev Row1 (i : Instr) (op : Byte) (cycles : Nat) : Prop :=
  encode i = [op] ∧ Instr.cycles i = cycles

/-- A two-byte instruction's opcode and cycles, for every operand byte. -/
abbrev Row2 (f : Byte → Instr) (op : Byte) (cycles : Nat) : Prop :=
  ∀ n, encode (f n) = [op, n] ∧ Instr.cycles (f n) = cycles

/-- The five rows im, ab, ns, nx, ny of a two-operand mnemonic and their cycles. -/
abbrev BinaryRows (f : Operand → Instr) (im ab ns nx ny : Byte) (cIm cMem : Nat) : Prop :=
  Row2 (fun n => f (.im n)) im cIm ∧ Row2 (fun n => f (.mem (.ab n))) ab cMem ∧
    Row2 (fun n => f (.mem (.ns n))) ns cMem ∧ Row2 (fun n => f (.mem (.nx n))) nx cMem ∧
    Row2 (fun n => f (.mem (.ny n))) ny cMem

/-- The six rows ab, ns, nx, ax, ny, ay of a one-operand memory mnemonic and their cycles. -/
abbrev UnaryRows (f : AddrMode → Instr) (ab ns nx ax ny ay : Byte) (cycles : Nat) : Prop :=
  Row2 (fun n => f (.ab n)) ab cycles ∧ Row2 (fun n => f (.ns n)) ns cycles ∧
    Row2 (fun n => f (.nx n)) nx cycles ∧ Row1 (f .ax) ax cycles ∧ Row2 (fun n => f (.ny n)) ny cycles ∧
    Row1 (f .ay) ay cycles

/-- The five rows of JMP or JSR: ab, nx, ax, ny, ay. -/
abbrev JumpRows (f : AddrMode → Instr) (ab nx ax ny ay : Byte) (cAb cIdx : Nat) : Prop :=
  Row2 (fun n => f (.ab n)) ab cAb ∧ Row2 (fun n => f (.nx n)) nx cIdx ∧ Row1 (f .ax) ax cIdx ∧
    Row2 (fun n => f (.ny n)) ny cIdx ∧ Row1 (f .ay) ay cIdx

/-- The fourteen rows of LDA's and STA's memory forms, from the column's first opcode on. -/
abbrev AccRows (f : AddrMode → Instr) (col : Byte) : Prop :=
  Row2 (fun n => f (.ab n)) (col + 0x1#8) 3 ∧ Row2 (fun n => f (.ns n)) (col + 0x2#8) 3 ∧
    Row2 (fun n => f (.nx n)) (col + 0x3#8) 3 ∧ Row1 (f .ax) (col + 0x4#8) 3 ∧
    Row1 (f .xPostInc) (col + 0x5#8) 4 ∧ Row1 (f .xPostDec) (col + 0x6#8) 4 ∧
    Row1 (f .xPreInc) (col + 0x7#8) 4 ∧ Row1 (f .xPreDec) (col + 0x8#8) 4 ∧
    Row2 (fun n => f (.ny n)) (col + 0x9#8) 3 ∧ Row1 (f .ay) (col + 0xA#8) 3 ∧
    Row1 (f .yPostInc) (col + 0xB#8) 4 ∧ Row1 (f .yPostDec) (col + 0xC#8) 4 ∧
    Row1 (f .yPreInc) (col + 0xD#8) 4 ∧ Row1 (f .yPreDec) (col + 0xE#8) 4

/-- What a read-modify-write memory form does (R163): one read at the effective address, one write of `r` at
the same address, the flags `cc`, and nothing else. -/
def Modifies (i : Instr) (m : AddrMode) (r : Byte → CC → Byte) (cc : Byte → CC → CC) (s : State) : Prop :=
  let e := s.ea m
  let d := e.2.memRead e.1
  ∃ t, exec i s = .next t ∧ Wrote d.2 t e.1 (r d.1 s.cc) ∧
    t = { d.2 with mem := t.mem, ports := t.ports, cc := cc d.1 s.cc }

/-! ### Source lines, in the claims -/

/-- How a memory operand is written (R66, R69). -/
def modeForm : AddrMode → Assembly.OperandForm Byte
  | .ab n => .address n
  | .ns n => .nSP n
  | .nx n => .nX n
  | .ny n => .nY n
  | .ax => .aX
  | .ay => .aY
  | .xPostInc => .xPostInc
  | .xPostDec => .xPostDec
  | .xPreInc => .xPreInc
  | .xPreDec => .xPreDec
  | .yPostInc => .yPostInc
  | .yPostDec => .yPostDec
  | .yPreInc => .yPreInc
  | .yPreDec => .yPreDec

/-- How a datum operand is written (R56, R69). -/
def operandForm : Operand → Assembly.OperandForm Byte
  | .im v => .immediate v
  | .mem m => modeForm m

/-- How an instruction at `adr` is written: its mnemonic of record and its operand (R52, R69). A relative
instruction is written with its target, two bytes further on plus the offset (R57). An opcode that is not
implemented is written in no way. -/
def sourceOf (adr : Byte) : Instr → Option (Assembly.Mnemonic × Assembly.OperandForm Byte)
  | .lda o => some (.lda, operandForm o)
  | .ldx o => some (.ldx, operandForm o)
  | .ldy o => some (.ldy, operandForm o)
  | .ldsp o => some (.ldsp, operandForm o)
  | .adda o => some (.adda, operandForm o)
  | .adca o => some (.adca, operandForm o)
  | .suba o => some (.suba, operandForm o)
  | .sbca o => some (.sbca, operandForm o)
  | .cmpa o => some (.cmpa, operandForm o)
  | .cmpx o => some (.cmpx, operandForm o)
  | .cmpy o => some (.cmpy, operandForm o)
  | .cmpsp o => some (.cmpsp, operandForm o)
  | .bita o => some (.bita, operandForm o)
  | .anda o => some (.anda, operandForm o)
  | .ora o => some (.ora, operandForm o)
  | .eora o => some (.eora, operandForm o)
  | .leax m => some (.leax, modeForm m)
  | .leay m => some (.leay, modeForm m)
  | .leasp m => some (.leasp, modeForm m)
  | .sta m => some (.sta, modeForm m)
  | .stx m => some (.stx, modeForm m)
  | .sty m => some (.sty, modeForm m)
  | .stsp m => some (.stsp, modeForm m)
  | .jmp m => some (.jmp, modeForm m)
  | .jsr m => some (.jsr, modeForm m)
  | .clr m => some (.clr, modeForm m)
  | .neg m => some (.neg, modeForm m)
  | .dec m => some (.dec, modeForm m)
  | .inc m => some (.inc, modeForm m)
  | .tst m => some (.tst, modeForm m)
  | .com m => some (.com, modeForm m)
  | .lsl m => some (.lsl, modeForm m)
  | .lsr m => some (.lsr, modeForm m)
  | .asr m => some (.asr, modeForm m)
  | .rol m => some (.rol, modeForm m)
  | .ror m => some (.ror, modeForm m)
  | .andcc v => some (.andcc, .immediate v)
  | .orcc v => some (.orcc, .immediate v)
  | .bsr off => some (.bsr, .address (adr + 2#8 + off))
  | .bra off => some (.bra, .address (adr + 2#8 + off))
  | .bmi off => some (.bmi, .address (adr + 2#8 + off))
  | .bpl off => some (.bpl, .address (adr + 2#8 + off))
  | .beq off => some (.beq, .address (adr + 2#8 + off))
  | .bne off => some (.bne, .address (adr + 2#8 + off))
  | .bvs off => some (.bvs, .address (adr + 2#8 + off))
  | .bvc off => some (.bvc, .address (adr + 2#8 + off))
  | .bcs off => some (.bcs, .address (adr + 2#8 + off))
  | .bcc off => some (.bcc, .address (adr + 2#8 + off))
  | .bhi off => some (.bhi, .address (adr + 2#8 + off))
  | .bls off => some (.bls, .address (adr + 2#8 + off))
  | .bgt off => some (.bgt, .address (adr + 2#8 + off))
  | .bge off => some (.bge, .address (adr + 2#8 + off))
  | .ble off => some (.ble, .address (adr + 2#8 + off))
  | .blt off => some (.blt, .address (adr + 2#8 + off))
  | .tfrAcc => some (.tfr, .registers .a .cc)
  | .tfrCcA => some (.tfr, .registers .cc .a)
  | .tfrXY => some (.tfr, .registers .x .y)
  | .tfrYX => some (.tfr, .registers .y .x)
  | .tfrXSp => some (.tfr, .registers .x .sp)
  | .tfrSpX => some (.tfr, .registers .sp .x)
  | .tfrYSp => some (.tfr, .registers .y .sp)
  | .tfrSpY => some (.tfr, .registers .sp .y)
  | .exgAcc => some (.exg, .registers .a .cc)
  | .exgXY => some (.exg, .registers .x .y)
  | .exgXSp => some (.exg, .registers .x .sp)
  | .exgYSp => some (.exg, .registers .y .sp)
  | .rts => some (.rts, .inherent)
  | .rti => some (.rti, .inherent)
  | .clra => some (.clra, .inherent)
  | .nega => some (.nega, .inherent)
  | .deca => some (.deca, .inherent)
  | .inca => some (.inca, .inherent)
  | .tsta => some (.tsta, .inherent)
  | .coma => some (.coma, .inherent)
  | .lsla => some (.lsla, .inherent)
  | .lsra => some (.lsra, .inherent)
  | .asra => some (.asra, .inherent)
  | .rola => some (.rola, .inherent)
  | .rora => some (.rora, .inherent)
  | .psha => some (.psha, .inherent)
  | .pshx => some (.pshx, .inherent)
  | .pshy => some (.pshy, .inherent)
  | .pshcc => some (.pshcc, .inherent)
  | .pula => some (.pula, .inherent)
  | .pulx => some (.pulx, .inherent)
  | .puly => some (.puly, .inherent)
  | .pulcc => some (.pulcc, .inherent)
  | .nop => some (.nop, .inherent)
  | .notImplemented _ => none

end Sys2Proof.Safety
end

