-- ==== Sys2Proof/Certificates/Slice0/Obligations.lean ====
section
/-! DEFINITION. The statements for the provers, from the numbered rules of `spec/`. -/

open Sys2Proof Sys2Proof.Machine Sys2Proof.Safety

/-! ### Encoding (`30_encoding.md`) -/

/-- Decoding what the encoder writes gives the instruction back, whatever bytes follow (R50 to R52). -/
def Obligations.DecodeOfEncodeIsIdentity : Prop :=
  ∀ (i : Instr) (rest : List Byte), i.wf = true → decode (encode i ++ rest) = .ok (i, rest)

/-- Bytes that decode are the encoding of the instruction they decode to: every word has one meaning
(R50, R52, R53). -/
def Obligations.EncodeOfDecodeIsIdentity : Prop :=
  ∀ (bytes rest : List Byte) (i : Instr),
    decode bytes = .ok (i, rest) → i.wf = true ∧ bytes = encode i ++ rest

/-- The opcode byte alone selects the length, one byte or two (R50, R51), every operand byte is legal and
exactly six opcodes are not implemented (R53). -/
def Obligations.OpcodeByteAloneSelectsLength : Prop :=
  ∀ op : Byte, ∃ len : Nat, (len = 1 ∨ len = 2) ∧
    (∀ n, ∃ i, i.length = len ∧ i.wf = true ∧
      decode [op, n] = .ok (i, if len = 2 then [] else [n]) ∧
      (i = .notImplemented op ↔
        op ∈ [0x03#8, 0x04#8, 0xDF#8, 0xE0#8, 0xEF#8, 0xFF#8])) ∧
    (decode [op] = .error (.operandMissing op) ↔ len = 2)

/-- Words written out from the spec's tables (R52; the corrected cells of C1, C2, C5, C6, C7) decode to their
instructions. A sanity check. -/
def Obligations.WordsOfTheMapDecode : Prop :=
  decodeTableWord 8 0xD6 = some (.adda (.mem (.ny 0#8))) ∧
    decodeTableWord 8 0x61 = some (.sty .ax) ∧
    decodeTableWord 16 0x12C5 = some (.adca (.mem (.nx 0x12#8))) ∧
    decodeTableWord 8 0xE7 = some (.sta .xPreInc) ∧
    decodeTableWord 16 0x02DC = some (.leax (.ns 0x02#8)) ∧
    decodeTableWord 16 0x40AE = some (.cmpsp (.mem (.ab 0x40#8))) ∧
    decodeTableWord 8 0x03 = some (.notImplemented 0x03#8)

/-! ### Memory, ports and the stack (`20_memory.md`, `00_scope.md` R4, R5) -/

/-- `MemRead` (R30, R34): a port read is answered by the environment and is an event; storage gives its byte
and nothing changes. That the answer is the scheduled one, else the free `IO_READ` of the address and the history
(the spec's decision D10), and that reads are traced in `ports`, is the model's form: log entries 8 and 10, DESIGN
CHOICE. -/
def Obligations.ReadAsksThePortOrTheStorage : Prop :=
  ∀ (s : State) (adr : Byte),
    (Port adr → ∃ v,
      s.memRead adr = (v, { s with portIn := s.portIn.tail, ports := s.ports ++ [.input adr v] }) ∧
      (∀ w l, s.portIn = w :: l → v = w) ∧ (s.portIn = [] → v = Config.ioRead adr s.ports)) ∧
    (¬ Port adr → s.memRead adr = (s.byteAt adr, s))

/-- `MemWrite` (R31): a port outputs the byte and stores nothing; writable storage then reads as the byte,
other storage is unchanged, and every other byte reads as before. -/
def Obligations.WriteStoresOrOutputs : Prop :=
  ∀ (s : State) (adr v : Byte),
    (Port adr → s.memWrite adr v = { s with ports := s.ports ++ [.output adr v] }) ∧
    (Stores s adr → (s.memWrite adr v).memRead adr = (v, s.memWrite adr v)) ∧
    (¬ Port adr → adr ∈ s.readOnly → s.memWrite adr v = s) ∧
    (∀ b, b ≠ adr → (s.memWrite adr v).byteAt b = s.byteAt b) ∧
    { s.memWrite adr v with mem := s.mem, ports := s.ports } = s

/-- A pull undoes a push (R5, R13): the byte comes back and SP is as before, every byte but the one at SP - 1
reads as before, and SP wraps (the wrap is the spec's decision D1). -/
def Obligations.PullUndoesPush : Prop :=
  ∀ (s : State) (v : Byte),
    (s.push v).sp = s.sp - 1#8 ∧ Wrote s (s.push v) (s.sp - 1#8) v ∧
    (Stores s (s.sp - 1#8) → (s.push v).pull = (v, { s.push v with sp := s.sp }))

/-- LDA, STA, CLR and COM with the absolute address of a port (R34, R37; the spec's decisions D10, D26), where
`portIn` schedules an answer (log entry 8, DESIGN CHOICE): LDA takes the answer, STA outputs A, COM reads and then
writes, CLR only writes; storage is not touched. The other loads, stores and read-modify-write forms reach a port
through the same `memRead` and `memWrite`, as their own statements say. -/
def Obligations.PortInstructionsReachThePeripheral : Prop :=
  ∀ (s : State) (adr v : Byte) (l : List Byte), Port adr → s.portIn = v :: l →
    Safety.after (.lda (.mem (.ab adr))) s =
      { s with a := v, portIn := l, ports := s.ports ++ [.input adr v],
               cc := flags s.cc (Negative v) (IsZero v) False (s.cc.c = true) } ∧
    Safety.after (.sta (.ab adr)) s = { s with ports := s.ports ++ [.output adr s.a] } ∧
    Safety.after (.clr (.ab adr)) s =
      { s with ports := s.ports ++ [.output adr 0#8], cc := flags s.cc False True False False } ∧
    Safety.after (.com (.ab adr)) s =
      { s with portIn := l, ports := s.ports ++ [.input adr v, .output adr (~~~v)],
               cc := flags s.cc (Negative (~~~v)) (IsZero (~~~v)) False (s.cc.c = true) }

/-- The effective address of each mode and its side effect on X or Y (R66), the immediate operand and the
relative address; every sum is modulo 256. -/
def Obligations.EffectiveAddressTable : Prop :=
  ∀ (s : State) (n : Byte),
    s.operand (.im n) = (n, s) ∧ s.branchTarget n = s.pc + n ∧
    (∀ m, s.operand (.mem m) = (s.ea m).2.memRead (s.ea m).1) ∧
    s.ea (.ab n) = (n, s) ∧ s.ea (.ns n) = (s.sp + n, s) ∧ s.ea (.nx n) = (s.x + n, s) ∧
    s.ea (.ny n) = (s.y + n, s) ∧ s.ea .ax = (s.x + s.a, s) ∧ s.ea .ay = (s.y + s.a, s) ∧
    s.ea .xPostInc = (s.x, { s with x := s.x + 1#8 }) ∧
    s.ea .xPostDec = (s.x, { s with x := s.x - 1#8 }) ∧
    s.ea .xPreInc = (s.x + 1#8, { s with x := s.x + 1#8 }) ∧
    s.ea .xPreDec = (s.x - 1#8, { s with x := s.x - 1#8 }) ∧
    s.ea .yPostInc = (s.y, { s with y := s.y + 1#8 }) ∧
    s.ea .yPostDec = (s.y, { s with y := s.y - 1#8 }) ∧
    s.ea .yPreInc = (s.y + 1#8, { s with y := s.y + 1#8 }) ∧
    s.ea .yPreDec = (s.y - 1#8, { s with y := s.y - 1#8 })

/-! ### CC as a byte (`10_state.md` R15 to R17) -/

/-- CC read as a byte has the flags at bits 4 to 0 and `CC_HI`, free at each read, above them (R15, D2); a
byte written to CC sets the flags from bits 4 to 0 and nothing from bits 7 to 5 (R16, D14); so writing back
what was read restores CC. -/
def Obligations.ConditionCodesAsByte : Prop :=
  (∀ s : State,
    (s.ccRead.1.getLsbD 4 = s.cc.i ∧ s.ccRead.1.getLsbD 3 = s.cc.n ∧ s.ccRead.1.getLsbD 2 = s.cc.z ∧
      s.ccRead.1.getLsbD 1 = s.cc.v ∧ s.ccRead.1.getLsbD 0 = s.cc.c) ∧
    s.ccRead.1.toNat / 32 = (Config.ccHi s.ccReads).toNat ∧
    s.ccRead.2 = { s with ccReads := s.ccReads + 1 } ∧
    s.ccRead.2.ccWrite s.ccRead.1 = s.ccRead.2) ∧
  (∀ (s : State) (v w : Byte), v.toNat % 32 = w.toNat % 32 → s.ccWrite v = s.ccWrite w) ∧
  (∀ (s : State) (v : Byte),
    s.ccWrite v =
      { s with cc := ⟨v.toNat / 16 % 2 = 1, v.toNat / 8 % 2 = 1, v.toNat / 4 % 2 = 1,
                      v.toNat / 2 % 2 = 1, v.toNat % 2 = 1⟩ })

/-! ### Load and store (`40_load_store.md`) -/

/-- LDA, LDX, LDY, LDSP: the register takes the operand, N and Z come from it, V is cleared, C and I and all
else keep their values (R80 to R83; D25 for the flags of the last three). With the opcodes, lengths and
cycles. The operand, and what an auto mode does to X or Y, are `EffectiveAddressTable`'s. -/
def Obligations.LoadsSetRegisterAndFlags : Prop :=
  (∀ (s : State) (o : Operand),
    let d := s.operand o
    let cc := flags s.cc (Negative d.1) (IsZero d.1) False (s.cc.c = true)
    exec (.lda o) s = .next { d.2 with a := d.1, cc := cc } ∧
    exec (.ldx o) s = .next { d.2 with x := d.1, cc := cc } ∧
    exec (.ldy o) s = .next { d.2 with y := d.1, cc := cc } ∧
    exec (.ldsp o) s = .next { d.2 with sp := d.1, cc := cc }) ∧
  Row2 (fun n => .lda (.im n)) 0xF0#8 2 ∧ AccRows (fun m => .lda (.mem m)) 0xF0#8 ∧
  BinaryRows .ldx 0x90#8 0xA0#8 0xB0#8 0xC0#8 0xD0#8 2 3 ∧
  BinaryRows .ldy 0x91#8 0xA1#8 0xB1#8 0xC1#8 0xD1#8 2 3 ∧
  BinaryRows .ldsp 0x92#8 0xA2#8 0xB2#8 0xC2#8 0xD2#8 2 3

/-- STA, STX, STY, STSP: the register's byte is written at the effective address; no flag changes, and
nothing but that byte and the auto mode's register (R87 to R90). With the opcodes, lengths and cycles. -/
def Obligations.StoresWriteOneByteAndNoFlag : Prop :=
  (∀ (s : State) (m : AddrMode) (i : Instr) (v : Byte),
    (i, v) ∈ [(.sta m, s.a), (.stx m, s.x), (.sty m, s.y), (.stsp m, s.sp)] →
    ∃ t, exec i s = .next t ∧ Wrote s t (s.ea m).1 v ∧
      t = { (s.ea m).2 with mem := t.mem, ports := t.ports }) ∧
  AccRows .sta 0xE0#8 ∧
  UnaryRows .stx 0x30#8 0x40#8 0x50#8 0x60#8 0x70#8 0x80#8 3 ∧
  UnaryRows .sty 0x31#8 0x41#8 0x51#8 0x61#8 0x71#8 0x81#8 3 ∧
  UnaryRows .stsp 0x32#8 0x42#8 0x52#8 0x62#8 0x72#8 0x82#8 3

/-- LEAX, LEAY, LEASP: the address sum modulo 256 goes to the register; no memory access, no flag (R84 to
R86). With the opcodes, lengths and cycles. -/
def Obligations.LeaLoadsTheAddressOnly : Prop :=
  (∀ (s : State) (n : Byte),
    exec (.leax (.nx n)) s = .next { s with x := BitVec.ofNat 8 (s.x.toNat + n.toNat) } ∧
    exec (.leax (.ns n)) s = .next { s with x := BitVec.ofNat 8 (s.sp.toNat + n.toNat) } ∧
    exec (.leay (.ny n)) s = .next { s with y := BitVec.ofNat 8 (s.y.toNat + n.toNat) } ∧
    exec (.leay (.ns n)) s = .next { s with y := BitVec.ofNat 8 (s.sp.toNat + n.toNat) } ∧
    exec (.leasp (.ns n)) s = .next { s with sp := BitVec.ofNat 8 (s.sp.toNat + n.toNat) } ∧
    exec (.leasp (.nx n)) s = .next { s with sp := BitVec.ofNat 8 (s.x.toNat + n.toNat) } ∧
    exec (.leasp (.ny n)) s = .next { s with sp := BitVec.ofNat 8 (s.y.toNat + n.toNat) }) ∧
  Row2 (fun n => .leax (.nx n)) 0xCC#8 4 ∧ Row2 (fun n => .leax (.ns n)) 0xDC#8 4 ∧
  Row2 (fun n => .leay (.ny n)) 0xCD#8 4 ∧ Row2 (fun n => .leay (.ns n)) 0xDD#8 4 ∧
  Row2 (fun n => .leasp (.ns n)) 0xBE#8 4 ∧ Row2 (fun n => .leasp (.nx n)) 0xCE#8 4 ∧
  Row2 (fun n => .leasp (.ny n)) 0xDE#8 4

/-! ### Data movement (`41_data_movement.md`) -/

/-- The TFR and EXG forms among X, Y and SP: the copy or the swap and nothing else (R102 to R107, R109 to
R111). With the opcodes, lengths and cycles. -/
def Obligations.AddressRegisterTransfers : Prop :=
  (∀ s : State,
    exec .tfrXY s = .next { s with y := s.x } ∧ exec .tfrYX s = .next { s with x := s.y } ∧
    exec .tfrXSp s = .next { s with sp := s.x } ∧ exec .tfrSpX s = .next { s with x := s.sp } ∧
    exec .tfrYSp s = .next { s with sp := s.y } ∧ exec .tfrSpY s = .next { s with y := s.sp } ∧
    exec .exgXY s = .next { s with x := s.y, y := s.x } ∧
    exec .exgXSp s = .next { s with x := s.sp, sp := s.x } ∧
    exec .exgYSp s = .next { s with y := s.sp, sp := s.y }) ∧
  Row1 .tfrXY 0x1A#8 2 ∧ Row1 .tfrYX 0x1B#8 2 ∧ Row1 .tfrXSp 0x1C#8 2 ∧ Row1 .tfrSpX 0x1D#8 2 ∧
  Row1 .tfrYSp 0x1E#8 2 ∧ Row1 .tfrSpY 0x1F#8 2 ∧ Row1 .exgXY 0xAF#8 4 ∧ Row1 .exgXSp 0xBF#8 4 ∧
  Row1 .exgYSp 0xCF#8 4

/-- TFR A,CC, TFR CC,A and EXG A,CC (R100, R101, R108): the flags come from bits 4 to 0 of A (I too: the
spec's decision D14), A's bits 4 to 0 come from the flags and its upper bits are `CC_HI` (open, D2); nothing
else changes but the count of the CC reads. With the opcodes, lengths and cycles. -/
def Obligations.ConditionCodeTransfers : Prop :=
  (∀ s : State,
    let old : CC := ⟨s.a.toNat / 16 % 2 = 1, s.a.toNat / 8 % 2 = 1, s.a.toNat / 4 % 2 = 1,
      s.a.toNat / 2 % 2 = 1, s.a.toNat % 2 = 1⟩
    let byte := BitVec.ofNat 8 (32 * (Config.ccHi s.ccReads).toNat + 16 * s.cc.i.toNat +
      8 * s.cc.n.toNat + 4 * s.cc.z.toNat + 2 * s.cc.v.toNat + s.cc.c.toNat)
    exec .tfrAcc s = .next { s with cc := old } ∧
    exec .tfrCcA s = .next { s with a := byte, ccReads := s.ccReads + 1 } ∧
    exec .exgAcc s = .next { s with a := byte, cc := old, ccReads := s.ccReads + 1 }) ∧
  Row1 .tfrAcc 0x18#8 2 ∧ Row1 .tfrCcA 0x19#8 2 ∧ Row1 .exgAcc 0x9F#8 4

/-! ### Program flow control (`42_flow_control.md`) -/

/-- JMP (R120): PC is the effective address; memory is not read there and no flag changes. With the opcodes,
lengths and cycles. -/
def Obligations.JumpGoesToTheEffectiveAddress : Prop :=
  (∀ (s : State) (n : Byte),
    exec (.jmp (.ab n)) s = .next { s with pc := n } ∧
    exec (.jmp (.nx n)) s = .next { s with pc := BitVec.ofNat 8 (s.x.toNat + n.toNat) } ∧
    exec (.jmp .ax) s = .next { s with pc := BitVec.ofNat 8 (s.x.toNat + s.a.toNat) } ∧
    exec (.jmp (.ny n)) s = .next { s with pc := BitVec.ofNat 8 (s.y.toNat + n.toNat) } ∧
    exec (.jmp .ay) s = .next { s with pc := BitVec.ofNat 8 (s.y.toNat + s.a.toNat) }) ∧
  JumpRows .jmp 0x33#8 0x53#8 0x63#8 0x73#8 0x83#8 2 4

/-- JSR and BSR (R122, R123): the address after the instruction is written at SP - 1, SP is that address, PC is
the effective address or PC plus the offset, and nothing else changes. With the opcodes, lengths and
cycles. -/
def Obligations.CallsPushTheReturnAddress : Prop :=
  (∀ (s : State) (m : AddrMode), m.isJump = true →
    ∃ t, exec (.jsr m) s = .next t ∧ Wrote s t (s.sp - 1#8) s.pc ∧
      t = { s with sp := s.sp - 1#8, pc := (s.ea m).1, mem := t.mem, ports := t.ports }) ∧
  (∀ (s : State) (off : Byte),
    ∃ t, exec (.bsr off) s = .next t ∧ Wrote s t (s.sp - 1#8) s.pc ∧
      t = { s with sp := s.sp - 1#8, pc := BitVec.ofNat 8 (s.pc.toNat + off.toNat),
                   mem := t.mem, ports := t.ports }) ∧
  JumpRows .jsr 0x34#8 0x54#8 0x64#8 0x74#8 0x84#8 4 5 ∧ Row2 .bsr 0x20#8 5

/-- RTS (R140): PC is the byte read at SP, SP goes up by one modulo 256, no flag changes. With the opcode,
length and cycles. -/
def Obligations.ReturnFromSubroutinePullsPC : Prop :=
  (∀ s : State, exec .rts s =
    .next { (s.memRead s.sp).2 with pc := (s.memRead s.sp).1, sp := BitVec.ofNat 8 (s.sp.toNat + 1) }) ∧
  Row1 .rts 0x43#8 2

/-- A call followed by RTS comes back: PC is the address after the call, and every register, every flag and
every byte of memory but the one below the stack is as before (R122, R123, R140). For a stack slot in writable
storage; at a port or a read-only address RTS gets another byte. -/
def Obligations.SubroutineReturnsToItsCaller : Prop :=
  ∀ (s : State) (i : Instr), Stores s (s.sp - 1#8) →
    (∃ off, i = .bsr off) ∨ (∃ m, i = .jsr m ∧ m.isJump = true) →
    ∃ t, exec .rts (Safety.after i s) = .next t ∧ t = { s with mem := t.mem } ∧
      ∀ adr, adr ≠ s.sp - 1#8 → t.byteAt adr = s.byteAt adr

/-- RTI (R141): CC, A, X, Y, PC are read at SP to SP + 4 in this order, SP goes up by five modulo 256, and the
five flags take bits 4 to 0 of the first byte. With the opcode, length and cycles. -/
def Obligations.ReturnFromInterruptPullsTheFrame : Prop :=
  (∀ s : State,
    let cc := s.memRead s.sp
    let a := cc.2.memRead (s.sp + 1#8)
    let x := a.2.memRead (s.sp + 2#8)
    let y := x.2.memRead (s.sp + 3#8)
    let pc := y.2.memRead (s.sp + 4#8)
    exec .rti s =
      .next { pc.2 with
        cc := ⟨cc.1.toNat / 16 % 2 = 1, cc.1.toNat / 8 % 2 = 1, cc.1.toNat / 4 % 2 = 1,
          cc.1.toNat / 2 % 2 = 1, cc.1.toNat % 2 = 1⟩
        a := a.1, x := x.1, y := y.1, pc := pc.1, sp := s.sp + 5#8 }) ∧
  Row1 .rti 0x44#8 6

/-- BRA and the branches on one flag (R125 to R133): PC goes to PC plus the offset, modulo 256, exactly when
the condition holds; nothing else changes. With the opcodes, lengths and cycles. -/
def Obligations.SingleFlagBranches : Prop :=
  (∀ (s : State) (off : Byte),
    let taken := fun (b : Bool) =>
      Host.Outcome.next (φ := Fault) (ρ := Refusal)
        { s with pc := if b = true then BitVec.ofNat 8 (s.pc.toNat + off.toNat) else s.pc }
    exec (.bra off) s = taken true ∧
    exec (.bmi off) s = taken (s.cc.n = true) ∧ exec (.bpl off) s = taken (s.cc.n = false) ∧
    exec (.beq off) s = taken (s.cc.z = true) ∧ exec (.bne off) s = taken (s.cc.z = false) ∧
    exec (.bvs off) s = taken (s.cc.v = true) ∧ exec (.bvc off) s = taken (s.cc.v = false) ∧
    exec (.bcs off) s = taken (s.cc.c = true) ∧ exec (.bcc off) s = taken (s.cc.c = false)) ∧
  Row2 .bra 0x21#8 4 ∧ Row2 .bmi 0x22#8 4 ∧ Row2 .bpl 0x23#8 4 ∧ Row2 .beq 0x24#8 4 ∧
  Row2 .bne 0x25#8 4 ∧ Row2 .bvs 0x26#8 4 ∧ Row2 .bvc 0x27#8 4 ∧ Row2 .bcs 0x28#8 4 ∧ Row2 .bcc 0x29#8 4

/-- The branches on an expression of flags (R134 to R139). With the opcodes, lengths and cycles. -/
def Obligations.CompoundFlagBranches : Prop :=
  (∀ (s : State) (off : Byte),
    let taken := fun (b : Bool) =>
      Host.Outcome.next (φ := Fault) (ρ := Refusal)
        { s with pc := if b = true then BitVec.ofNat 8 (s.pc.toNat + off.toNat) else s.pc }
    exec (.bhi off) s = taken (s.cc.c = false ∧ s.cc.z = false) ∧
    exec (.bls off) s = taken (s.cc.c = true ∨ s.cc.z = true) ∧
    exec (.bgt off) s = taken (s.cc.n = s.cc.v ∧ s.cc.z = false) ∧
    exec (.bge off) s = taken (s.cc.n = s.cc.v) ∧
    exec (.ble off) s = taken (s.cc.n ≠ s.cc.v ∨ s.cc.z = true) ∧
    exec (.blt off) s = taken (s.cc.n ≠ s.cc.v)) ∧
  Row2 .bhi 0x2A#8 4 ∧ Row2 .bls 0x2B#8 4 ∧ Row2 .bgt 0x2C#8 4 ∧ Row2 .bge 0x2D#8 4 ∧
  Row2 .ble 0x2E#8 4 ∧ Row2 .blt 0x2F#8 4

/-- After CMPA the branches decide the relation of A and the operand, unsigned and signed (the last column of
R124, which the spec derives from R7; R170). -/
def Obligations.BranchesAfterCompareDecideTheOrder : Prop :=
  ∀ (s : State) (o : Operand) (off : Byte),
    let m := (s.operand o).1
    let t := Safety.after (.cmpa o) s
    let taken := fun (b : Bool) =>
      Host.Outcome.next (φ := Fault) (ρ := Refusal) { t with pc := if b = true then t.pc + off else t.pc }
    exec (.beq off) t = taken (s.a = m) ∧ exec (.bne off) t = taken (s.a ≠ m) ∧
    exec (.bcs off) t = taken (s.a.toNat < m.toNat) ∧ exec (.bcc off) t = taken (m.toNat ≤ s.a.toNat) ∧
    exec (.bhi off) t = taken (m.toNat < s.a.toNat) ∧ exec (.bls off) t = taken (s.a.toNat ≤ m.toNat) ∧
    exec (.bgt off) t = taken (m.toInt < s.a.toInt) ∧ exec (.bge off) t = taken (m.toInt ≤ s.a.toInt) ∧
    exec (.ble off) t = taken (s.a.toInt ≤ m.toInt) ∧ exec (.blt off) t = taken (s.a.toInt < m.toInt)

/-! ### Integer arithmetic and test (`43_integer_arithmetic.md`, `44_integer_test.md`) -/

/-- ADDA and ADCA (R150, R151, R162): the sum modulo 256, C its ninth bit, V exactly when the true signed sum
leaves -128..127. With the opcodes, lengths and cycles. -/
def Obligations.AdditionsAreExact : Prop :=
  (∀ (s : State) (o : Operand) (i : Instr) (cin : Nat),
    (i, cin) ∈ [(.adda o, 0), (.adca o, s.cc.c.toNat)] →
    let d := s.operand o
    let sum := s.a.toNat + d.1.toNat + cin
    exec i s = .next { d.2 with
      a := BitVec.ofNat 8 sum
      cc := flags s.cc (128 ≤ sum % 256) (sum % 256 = 0) (Overflows (s.a.toInt + d.1.toInt + cin))
        (256 ≤ sum) }) ∧
  BinaryRows .adda 0x96#8 0xA6#8 0xB6#8 0xC6#8 0xD6#8 4 5 ∧
  BinaryRows .adca 0x95#8 0xA5#8 0xB5#8 0xC5#8 0xD5#8 4 5

/-- SUBA and SBCA (R152, R153, R162): the difference modulo 256, C the borrow, V exactly when the true signed
difference leaves -128..127. With the opcodes, lengths and cycles. -/
def Obligations.SubtractionsAreExact : Prop :=
  (∀ (s : State) (o : Operand) (i : Instr) (bin : Nat),
    (i, bin) ∈ [(.suba o, 0), (.sbca o, s.cc.c.toNat)] →
    let d := s.operand o
    let diff : Int := s.a.toNat - d.1.toNat - bin
    exec i s = .next { d.2 with
      a := BitVec.ofInt 8 diff
      cc := flags s.cc (128 ≤ diff % 256) (diff % 256 = 0) (Overflows (s.a.toInt - d.1.toInt - bin))
        (diff < 0) }) ∧
  BinaryRows .suba 0x94#8 0xA4#8 0xB4#8 0xC4#8 0xD4#8 4 5 ∧
  BinaryRows .sbca 0x93#8 0xA3#8 0xB3#8 0xC3#8 0xD3#8 4 5

/-- CMPA, CMPX, CMPY, CMPSP: the flags of the exact difference, the register and all else unchanged (R170 to
R173). With the opcodes, lengths and cycles. -/
def Obligations.ComparesSetFlagsOnly : Prop :=
  (∀ (s : State) (o : Operand) (i : Instr) (r : Byte),
    (i, r) ∈ [(.cmpa o, s.a), (.cmpx o, s.x), (.cmpy o, s.y), (.cmpsp o, s.sp)] → i.wf = true →
    let d := s.operand o
    let diff : Int := r.toNat - d.1.toNat
    exec i s = .next { d.2 with
      cc := flags s.cc (128 ≤ diff % 256) (r = d.1) (Overflows (r.toInt - d.1.toInt)) (r.toNat < d.1.toNat) }) ∧
  BinaryRows .cmpa 0x97#8 0xA7#8 0xB7#8 0xC7#8 0xD7#8 3 4 ∧
  Row2 (fun n => .cmpx (.im n)) 0x9C#8 3 ∧ Row2 (fun n => .cmpx (.mem (.ab n))) 0xAC#8 4 ∧
  Row2 (fun n => .cmpx (.mem (.ns n))) 0xBC#8 4 ∧
  Row2 (fun n => .cmpy (.im n)) 0x9D#8 3 ∧ Row2 (fun n => .cmpy (.mem (.ab n))) 0xAD#8 4 ∧
  Row2 (fun n => .cmpy (.mem (.ns n))) 0xBD#8 4 ∧
  Row2 (fun n => .cmpsp (.im n)) 0x9E#8 3 ∧ Row2 (fun n => .cmpsp (.mem (.ab n))) 0xAE#8 4

/-- BITA, TSTA, TST: flags only; TST clears C, BITA keeps it (R174 to R176). With the opcodes, lengths and
cycles. -/
def Obligations.BitTestsSetFlagsOnly : Prop :=
  (∀ (s : State) (o : Operand),
    let d := s.operand o
    exec (.bita o) s = .next { d.2 with
      cc := flags s.cc (Negative (s.a &&& d.1)) (IsZero (s.a &&& d.1)) False (s.cc.c = true) }) ∧
  (∀ s : State, exec .tsta s = .next { s with cc := flags s.cc (Negative s.a) (IsZero s.a) False False }) ∧
  (∀ (s : State) (m : AddrMode),
    let d := s.operand (.mem m)
    exec (.tst m) s = .next { d.2 with cc := flags s.cc (Negative d.1) (IsZero d.1) False False }) ∧
  BinaryRows .bita 0x98#8 0xA8#8 0xB8#8 0xC8#8 0xD8#8 3 4 ∧ Row1 .tsta 0x09#8 2 ∧
  UnaryRows .tst 0x39#8 0x49#8 0x59#8 0x69#8 0x79#8 0x89#8 3

/-- CLRA and CLR: zero, flags 0 1 0 0 (R154, R155). CLR writes and does not read (the spec's decision D26).
With the opcodes, lengths and cycles. -/
def Obligations.ClearsWriteZeroWithoutReading : Prop :=
  (∀ s : State, exec .clra s = .next { s with a := 0#8, cc := flags s.cc False True False False }) ∧
  (∀ (s : State) (m : AddrMode),
    ∃ t, exec (.clr m) s = .next t ∧ Wrote s t (s.ea m).1 0#8 ∧
      t = { (s.ea m).2 with mem := t.mem, ports := t.ports, cc := flags s.cc False True False False }) ∧
  Row1 .clra 0x05#8 3 ∧ UnaryRows .clr 0x35#8 0x45#8 0x55#8 0x65#8 0x75#8 0x85#8 3

/-- NEGA and NEG (R156, R157): the two's complement; C exactly when the old value is not 0, V exactly when it
is `$80`. With the opcodes, lengths and cycles. -/
def Obligations.NegationsAreExact : Prop :=
  let r := fun (v : Byte) => BitVec.ofNat 8 (256 - v.toNat)
  let cc := fun (v : Byte) (c : CC) => flags c (Negative (r v)) (v = 0#8) (v = 0x80#8) (v ≠ 0#8)
  (∀ s : State, exec .nega s = .next { s with a := r s.a, cc := cc s.a s.cc }) ∧
  (∀ (s : State) (m : AddrMode), Modifies (.neg m) m (fun v _ => r v) cc s) ∧
  Row1 .nega 0x06#8 3 ∧ UnaryRows .neg 0x36#8 0x46#8 0x56#8 0x66#8 0x76#8 0x86#8 4

/-- DECA, DEC, INCA, INC (R158 to R161): one less or one more modulo 256, V exactly when the old value is
`$80` or `$7F`, C kept. With the opcodes, lengths and cycles. -/
def Obligations.DecrementsAndIncrementsKeepCarry : Prop :=
  let down := fun (v : Byte) => BitVec.ofNat 8 (v.toNat + 255)
  let ccDown := fun (v : Byte) (c : CC) => flags c (Negative (down v)) (v = 1#8) (v = 0x80#8) (c.c = true)
  let up := fun (v : Byte) => BitVec.ofNat 8 (v.toNat + 1)
  let ccUp := fun (v : Byte) (c : CC) => flags c (Negative (up v)) (v = 0xFF#8) (v = 0x7F#8) (c.c = true)
  (∀ s : State,
    exec .deca s = .next { s with a := down s.a, cc := ccDown s.a s.cc } ∧
    exec .inca s = .next { s with a := up s.a, cc := ccUp s.a s.cc }) ∧
  (∀ (s : State) (m : AddrMode),
    Modifies (.dec m) m (fun v _ => down v) ccDown s ∧ Modifies (.inc m) m (fun v _ => up v) ccUp s) ∧
  Row1 .deca 0x08#8 3 ∧ UnaryRows .dec 0x38#8 0x48#8 0x58#8 0x68#8 0x78#8 0x88#8 4 ∧
  Row1 .inca 0x07#8 3 ∧ UnaryRows .inc 0x37#8 0x47#8 0x57#8 0x67#8 0x77#8 0x87#8 4

/-! ### Logical (`45_logical.md`) -/

/-- ANDA, ORA, EORA (R180, R181, R184): the bitwise result, N and Z from it, V cleared, C kept. With the
opcodes, lengths and cycles. -/
def Obligations.LogicalOperationsOnA : Prop :=
  (∀ (s : State) (o : Operand) (i : Instr) (f : Byte → Byte → Byte),
    (i = .anda o ∧ f = (· &&& ·)) ∨ (i = .ora o ∧ f = (· ||| ·)) ∨ (i = .eora o ∧ f = (· ^^^ ·)) →
    let d := s.operand o
    exec i s = .next { d.2 with
      a := f s.a d.1
      cc := flags s.cc (Negative (f s.a d.1)) (IsZero (f s.a d.1)) False (s.cc.c = true) }) ∧
  BinaryRows .anda 0x99#8 0xA9#8 0xB9#8 0xC9#8 0xD9#8 4 5 ∧
  BinaryRows .ora 0x9A#8 0xAA#8 0xBA#8 0xCA#8 0xDA#8 4 5 ∧
  BinaryRows .eora 0x9B#8 0xAB#8 0xBB#8 0xCB#8 0xDB#8 4 5

/-- ANDCC clears the flags where the operand's bit is 0, ORCC sets them where it is 1, each keeps the others
(R182, R183); bits 7 to 5 of the operand have no effect (the spec's decision D21). With the opcodes, lengths
and cycles. -/
def Obligations.FlagMasksOnCC : Prop :=
  (∀ (s : State) (d : Byte),
    let bit := fun (k : Nat) => d.toNat / 2 ^ k % 2 = 1
    exec (.andcc d) s = .next { s with
      cc := ⟨s.cc.i && bit 4, s.cc.n && bit 3, s.cc.z && bit 2, s.cc.v && bit 1, s.cc.c && bit 0⟩ } ∧
    exec (.orcc d) s = .next { s with
      cc := ⟨s.cc.i || bit 4, s.cc.n || bit 3, s.cc.z || bit 2, s.cc.v || bit 1, s.cc.c || bit 0⟩ }) ∧
  Row2 .andcc 0x01#8 4 ∧ Row2 .orcc 0x02#8 4

/-- COMA and COM (R185, R186): `$FF` minus the value, V cleared, C kept. With the opcodes, lengths and
cycles. -/
def Obligations.ComplementsKeepCarry : Prop :=
  let r := fun (v : Byte) => BitVec.ofNat 8 (255 - v.toNat)
  let cc := fun (v : Byte) (c : CC) => flags c (v.toNat < 128) (v = 0xFF#8) False (c.c = true)
  (∀ s : State, exec .coma s = .next { s with a := r s.a, cc := cc s.a s.cc }) ∧
  (∀ (s : State) (m : AddrMode), Modifies (.com m) m (fun v _ => r v) cc s) ∧
  Row1 .coma 0x0A#8 3 ∧ UnaryRows .com 0x3A#8 0x4A#8 0x5A#8 0x6A#8 0x7A#8 0x8A#8 4

/-! ### Shift and rotate (`46_shift_rotate.md`) -/

/-- LSLA, LSL, ROLA, ROL (R192, R193, R196, R197): twice the value, plus the old C for the rotates (the spec's
decision D19), modulo 256; C the old bit 7; V when C and bit 7 differ afterwards. With the opcodes, lengths
and cycles. -/
def Obligations.LeftShiftsAreDoubling : Prop :=
  let r := fun (v : Byte) (cin : Nat) => 2 * v.toNat + cin
  let cc := fun (v : Byte) (c : CC) (cin : Nat) =>
    flags c (128 ≤ r v cin % 256) (r v cin % 256 = 0) (¬ (Negative v ↔ 128 ≤ r v cin % 256)) (Negative v)
  (∀ s : State,
    exec .lsla s = .next { s with a := BitVec.ofNat 8 (r s.a 0), cc := cc s.a s.cc 0 } ∧
    exec .rola s = .next { s with a := BitVec.ofNat 8 (r s.a s.cc.c.toNat), cc := cc s.a s.cc s.cc.c.toNat }) ∧
  (∀ (s : State) (m : AddrMode),
    Modifies (.lsl m) m (fun v _ => BitVec.ofNat 8 (r v 0)) (fun v c => cc v c 0) s ∧
    Modifies (.rol m) m (fun v c => BitVec.ofNat 8 (r v c.c.toNat)) (fun v c => cc v c c.c.toNat) s) ∧
  Row1 .lsla 0x0B#8 3 ∧ Row1 .rola 0x0D#8 3 ∧
  UnaryRows .lsl 0x3B#8 0x4B#8 0x5B#8 0x6B#8 0x7B#8 0x8B#8 4 ∧
  UnaryRows .rol 0x3D#8 0x4D#8 0x5D#8 0x6D#8 0x7D#8 0x8D#8 4

/-- LSRA, LSR, RORA, ROR (R194, R195, R198, R199): half the value rounded down, plus 128 for the rotates when
the old C is 1; C the old bit 0; V when the sign bit changes (the spec's decision D17). With the opcodes,
lengths and cycles. -/
def Obligations.RightShiftsAreHalving : Prop :=
  let r := fun (v : Byte) (cin : Nat) => v.toNat / 2 + 128 * cin
  let cc := fun (v : Byte) (c : CC) (cin : Nat) =>
    flags c (cin = 1) (r v cin = 0) (¬ (Negative v ↔ cin = 1)) (v.toNat % 2 = 1)
  (∀ s : State,
    exec .lsra s = .next { s with a := BitVec.ofNat 8 (r s.a 0), cc := cc s.a s.cc 0 } ∧
    exec .rora s = .next { s with a := BitVec.ofNat 8 (r s.a s.cc.c.toNat), cc := cc s.a s.cc s.cc.c.toNat }) ∧
  (∀ (s : State) (m : AddrMode),
    Modifies (.lsr m) m (fun v _ => BitVec.ofNat 8 (r v 0)) (fun v c => cc v c 0) s ∧
    Modifies (.ror m) m (fun v c => BitVec.ofNat 8 (r v c.c.toNat)) (fun v c => cc v c c.c.toNat) s) ∧
  Row1 .lsra 0x0C#8 3 ∧ Row1 .rora 0x0E#8 3 ∧
  UnaryRows .lsr 0x3C#8 0x4C#8 0x5C#8 0x6C#8 0x7C#8 0x8C#8 4 ∧
  UnaryRows .ror 0x3E#8 0x4E#8 0x5E#8 0x6E#8 0x7E#8 0x8E#8 4

/-- ASRA and ASR (R190, R191): the signed value halved and rounded down, V cleared, C the old bit 0. With the
opcodes, lengths and cycles. -/
def Obligations.ArithmeticRightShiftHalvesSigned : Prop :=
  let r := fun (v : Byte) => BitVec.ofInt 8 (v.toInt / 2)
  let cc := fun (v : Byte) (c : CC) => flags c (v.toInt < 0) (v.toNat < 2) False (v.toNat % 2 = 1)
  (∀ s : State, exec .asra s = .next { s with a := r s.a, cc := cc s.a s.cc }) ∧
  (∀ (s : State) (m : AddrMode), Modifies (.asr m) m (fun v _ => r v) cc s) ∧
  Row1 .asra 0x0F#8 3 ∧ UnaryRows .asr 0x3F#8 0x4F#8 0x5F#8 0x6F#8 0x7F#8 0x8F#8 4

/-- The 8 bits of A and C are a ring of nine: nine ROLA or nine RORA in a row restore A and C, and one RORA
undoes one ROLA (R196, R198; the rotation through C is the spec's decision D19). -/
def Obligations.RotatesAreARingOfNine : Prop :=
  ∀ s : State,
    ((Safety.after .rola)^[9] s).a = s.a ∧ ((Safety.after .rola)^[9] s).cc.c = s.cc.c ∧
    ((Safety.after .rora)^[9] s).a = s.a ∧ ((Safety.after .rora)^[9] s).cc.c = s.cc.c ∧
    (Safety.after .rora (Safety.after .rola s)).a = s.a ∧
    (Safety.after .rora (Safety.after .rola s)).cc.c = s.cc.c

/-! ### Stack and NOP (`47_stack.md`, `48_misc.md`) -/

/-- PSHA, PSHX, PSHY: SP goes down by one modulo 256 and the register's byte is written there; nothing else
changes (R210, R212, R213). With the opcodes, lengths and cycles. -/
def Obligations.PushesWriteBelowTheStack : Prop :=
  (∀ (s : State) (i : Instr) (v : Byte), (i, v) ∈ [(.psha, s.a), (.pshx, s.x), (.pshy, s.y)] →
    ∃ t, exec i s = .next t ∧ Wrote s t (BitVec.ofNat 8 (s.sp.toNat + 255)) v ∧
      t = { s with sp := BitVec.ofNat 8 (s.sp.toNat + 255), mem := t.mem, ports := t.ports }) ∧
  Row1 .psha 0x10#8 3 ∧ Row1 .pshx 0x11#8 3 ∧ Row1 .pshy 0x12#8 3

/-- PULA, PULX, PULY: the register takes the byte read at SP, SP goes up by one modulo 256, no flag changes
(R214, R216, R217). With the opcodes, lengths and cycles. -/
def Obligations.PullsReadTheTopOfStack : Prop :=
  (∀ s : State,
    let d := s.memRead s.sp
    exec .pula s = .next { d.2 with a := d.1, sp := BitVec.ofNat 8 (s.sp.toNat + 1) } ∧
    exec .pulx s = .next { d.2 with x := d.1, sp := BitVec.ofNat 8 (s.sp.toNat + 1) } ∧
    exec .puly s = .next { d.2 with y := d.1, sp := BitVec.ofNat 8 (s.sp.toNat + 1) }) ∧
  Row1 .pula 0x14#8 3 ∧ Row1 .pulx 0x15#8 3 ∧ Row1 .puly 0x16#8 3

/-- PSHCC and PULCC (R211, R215): the byte pushed has the flags at bits 4 to 0 under `CC_HI` (open, D2); PULCC
loads all five flags, I too (the spec's decision D14). With the opcodes, lengths and cycles. -/
def Obligations.ConditionCodesOnTheStack : Prop :=
  (∀ s : State,
    let byte := BitVec.ofNat 8 (32 * (Config.ccHi s.ccReads).toNat + 16 * s.cc.i.toNat +
      8 * s.cc.n.toNat + 4 * s.cc.z.toNat + 2 * s.cc.v.toNat + s.cc.c.toNat)
    ∃ t, exec .pshcc s = .next t ∧ Wrote s t (s.sp - 1#8) byte ∧
      t = { s with sp := s.sp - 1#8, ccReads := s.ccReads + 1, mem := t.mem, ports := t.ports }) ∧
  (∀ s : State,
    let d := s.memRead s.sp
    exec .pulcc s = .next { d.2 with
      sp := s.sp + 1#8
      cc := ⟨d.1.toNat / 16 % 2 = 1, d.1.toNat / 8 % 2 = 1, d.1.toNat / 4 % 2 = 1,
        d.1.toNat / 2 % 2 = 1, d.1.toNat % 2 = 1⟩ }) ∧
  Row1 .pshcc 0x13#8 3 ∧ Row1 .pulcc 0x17#8 3

/-- NOP (R220): the meaning changes nothing, and the whole step from a byte `$00` in storage changes nothing of
the programmer's state but PC. Of the model's own fields (DESIGN CHOICE) the step uses up one sample of `inputs`
(log entry 6), counts `boundary` (19) and `cycles` (12), and leaves T, R, TA open with the opcode in the
instruction register (13). A fetch from a port is `StepRunsTheDecodedInstruction`'s. With the opcode, length and
cycles. -/
def Obligations.NopOnlyMovesPC : Prop :=
  (∀ s : State, exec .nop s = .next s) ∧
  (∀ s : State, Fetches s → ¬ Port s.pc → s.byteAt s.pc = 0x00#8 →
    ∃ t, step s = .next t ∧
      t = { s with pc := BitVec.ofNat 8 (s.pc.toNat + 1), inputs := s.inputs.tail, boundary := s.boundary + 1,
                   cycles := s.cycles + 2, hidden := t.hidden } ∧ t.hidden.ir = 0x00#8) ∧
  Row1 .nop 0x00#8 2

/-! ### Exceptions and reset (`60_exceptions.md`, `70_reset_and_hazards.md`) -/

/-- The trap of an opcode that is not implemented (R252, R253, R262): five writes at descending addresses, PC
(already after the opcode), Y, X, A and the old CC, then PC from the vector `$FE`; A, X, Y and N, Z, V, C are
unchanged, and I is set if `TRAP_SETS_I` (open, D5). The order of the writes and of the vector's read is the
spec's decision D6. -/
def Obligations.TrapPushesTheFrame : Prop :=
  ∀ (s : State) (op : Byte),
    let f := ((((s.memWrite (s.sp - 1#8) s.pc).memWrite (s.sp - 2#8) s.y).memWrite (s.sp - 3#8)
      s.x).memWrite (s.sp - 4#8) s.a).memWrite (s.sp - 5#8) (s.cc.toByte (Config.ccHi s.ccReads))
    exec (.notImplemented op) s = .next { f with
      sp := s.sp - 5#8, ccReads := s.ccReads + 1, pc := f.byteAt 0xFE#8
      cc := { s.cc with i := if Config.trapSetsI then true else s.cc.i } }

/-- IRQ entry (R253, R254, R255, R262): at a boundary without reset, with the line active and I = 0, the step
pushes the PC of the instruction that would have been executed, Y, X, A and CC with its old I, sets I (the spec's
decision D4), and loads PC from the vector `$FD`; no instruction is executed. The order of the writes and of the
vector's read is D6 (log entry 21), the stacked CC's upper bits are open (D2, log entry 4). The model's own, DESIGN
CHOICE: one sample of `inputs` is used up (6), `boundary` and `cycles` are counted (19, 12), the hidden registers are
open (13). -/
def Obligations.InterruptEntryPushesTheFrame : Prop :=
  ∀ s : State, s.phase = .newFetch → Samples s false true → s.cc.i = false →
    let f := ((((s.memWrite (s.sp - 1#8) s.pc).memWrite (s.sp - 2#8) s.y).memWrite (s.sp - 3#8)
      s.x).memWrite (s.sp - 4#8) s.a).memWrite (s.sp - 5#8) (s.cc.toByte (Config.ccHi s.ccReads))
    ∃ t, step s = .next t ∧
      t = { f with
        sp := s.sp - 5#8, ccReads := s.ccReads + 1, pc := f.byteAt 0xFD#8, cc := { s.cc with i := true }
        inputs := s.inputs.tail, boundary := s.boundary + 1, cycles := s.cycles + Config.irqCycles
        hidden := t.hidden }

/-- RTI undoes exception entry (R257, R141, R253): for any vector, saved PC and treatment of I, from the
handler's first instruction RTI restores A, X, Y, SP and all five flags, continues at the saved PC, and leaves
every byte outside the frame as it was. For a frame in writable storage. -/
def Obligations.ReturnUndoesExceptionEntry : Prop :=
  ∀ (s : State) (vector returnPc : Byte) (setI : Bool), FrameStores s → ¬ Port vector →
    ∃ t, exec .rti (s.enter vector returnPc setI) = .next t ∧
      t = { s with pc := returnPc, mem := t.mem, ccReads := s.ccReads + 1 } ∧
      ∀ adr, (∀ k ∈ [1#8, 2#8, 3#8, 4#8, 5#8], adr ≠ s.sp - k) → t.byteAt adr = s.byteAt adr

/-- The trap, as a whole step from memory, followed by RTI: execution resumes at the byte after the illegal
opcode with every register and flag as before (R252, R257). -/
def Obligations.TrapResumesAfterTheIllegalByte : Prop :=
  ∀ s : State, Fetches s → ¬ Port s.pc →
    s.byteAt s.pc ∈ [0x03#8, 0x04#8, 0xDF#8, 0xE0#8, 0xEF#8, 0xFF#8] → FrameStores s →
    ∃ t u, step s = .next t ∧ exec .rti t = .next u ∧
      u.pc = s.pc + 1#8 ∧ u.a = s.a ∧ u.x = s.x ∧ u.y = s.y ∧ u.sp = s.sp ∧ u.cc = s.cc

/-- At a boundary with I = 1 the interrupt line makes no difference to the step (R18, R255; the polarity is the
spec's decision D3). -/
def Obligations.MaskedInterruptIsInvisible : Prop :=
  ∀ (s : State) (l : List Inputs) (r : Bool), s.phase = .newFetch → s.cc.i = true →
    step { s with inputs := ⟨r, true⟩ :: l } = step { s with inputs := ⟨r, false⟩ :: l }

/-- Reset (R280, R256; D7, D15): while reset is in progress, and at any boundary where `Reset` is active whatever
the interrupt line and I are, the step pushes nothing, leaves memory and trace as they are, and loads PC from
the vector `$FF`; an instruction boundary follows. So from the state after reset with an image loaded, the
first step's PC is the image's byte at `$FF` (R281). -/
def Obligations.ResetLoadsTheVector : Prop :=
  (∀ s : State, (s.phase = .vectorFetch ∨ ∃ irq, Samples s true irq) →
    ∃ t, step s = .next t ∧ t.pc = s.byteAt 0xFF#8 ∧ t.mem = s.mem ∧ t.ports = s.ports ∧
      t.phase = .newFetch ∧ t.readOnly = s.readOnly) ∧
  (∀ (image : Memory) (v : Byte), Memory.find image 255 = some v →
    ∃ t, step { State.reset with mem := image } = .next t ∧ t.pc = v ∧ t.mem = image ∧ t.phase = .newFetch)

/-! ### The step as a whole -/

/-- At a boundary without reset, with the interrupt line inactive or I = 1, the step is the meaning of the
instruction that the bytes fetched at PC decode to, in the state after their fetch, with PC past them (R4, R14, R43,
R255). The fetch goes through `MemRead`, so at a port address too. The model's own in that state, DESIGN CHOICE: the
sample of `inputs` used up (log entry 6), the `cycles` counted (12, a ghost that R290 allows), `boundary` counted (19),
and the hidden registers open but for the opcode in the instruction register (13, R229's `LD_I`). -/
def Obligations.StepRunsTheDecodedInstruction : Prop :=
  (∀ (s : State) (i : Instr) (rest : List Byte), Fetches s →
    let op := s.passBoundary.fetch8
    let n := op.2.fetch8
    let f := if i.length = 2 then n.2 else op.2
    decode [op.1, n.1] = .ok (i, rest) →
    step s = exec i { f with cycles := s.cycles + Instr.cycles i, hidden := { f.hidden with ir := op.1 } }) ∧
  (∀ (s : State) (i : Instr) (rest : List Byte), Fetches s →
    ¬ Port s.pc → (i.length = 2 → ¬ Port (s.pc + 1#8)) →
    decode [s.byteAt s.pc, s.byteAt (s.pc + 1#8)] = .ok (i, rest) →
    step s = exec i { s.passBoundary with
      pc := BitVec.ofNat 8 (s.pc.toNat + i.length), cycles := s.cycles + Instr.cycles i
      hidden := { s.passBoundary.hidden with ir := s.byteAt s.pc } })

/-- Every state has a successor: no step ends in a fault or a refusal (`93_implementation_defined.md`
section 2). -/
def Obligations.EveryStateHasASuccessor : Prop :=
  ∀ s : State, Safety.Continues (step s)

/-- Every step keeps the invariant: the memory's canonical form, no byte stored at a port (R31), and only
ports in the trace (R34). -/
def Obligations.StepKeepsTheMemoryForm : Prop :=
  ∀ s t : State, MemoryInv s → step s = .next t → MemoryInv t

/-- The state after reset meets the invariant. -/
def Obligations.ResetHasTheMemoryForm : Prop :=
  MemoryInv State.reset

/-- No step changes a byte where `WRITABLE` is false, nor which bytes those are (R31, D18). -/
def Obligations.ReadOnlyBytesNeverChange : Prop :=
  ∀ s t : State, step s = .next t →
    t.readOnly = s.readOnly ∧ ∀ adr ∈ s.readOnly, t.byteAt adr = s.byteAt adr

/-- The accesses to ports that a step makes come after all earlier ones (R34, R40). That one trace `ports` holds
reads and writes, and that the scheduled answers are a list used up from its front, one per read, is the model's
form: log entries 10 and 8, DESIGN CHOICE. -/
def Obligations.PortTraceOnlyGrows : Prop :=
  ∀ s t : State, step s = .next t →
    ∃ l, t.ports = s.ports ++ l ∧ t.portIn = s.portIn.drop (l.countP isInput)

/-- The memory frame of every instruction: each byte that is not one of those it stores to, at the addresses
its meaning computes, reads as before (R45). -/
def Obligations.InstructionsStoreOnlyWhereTheySay : Prop :=
  ∀ (i : Instr) (s t : State), exec i s = .next t →
    ∀ adr, adr ∉ storedTo i s → t.byteAt adr = s.byteAt adr

/-- The register frame of every instruction: A, X, Y, SP and PC change only where the column "written by" of
the register table says so (R10, R14). What follows on other fields is the model's own (DESIGN CHOICE), not
those rules': a meaning leaves `inputs` (log entry 6), `readOnly` (9), `boundary` (19), `cycles` (12), the
hidden registers (13) and the phase as the step's fetch set them. -/
def Obligations.InstructionsWriteOnlyTheirRegisters : Prop :=
  ∀ (i : Instr) (s t : State), i.wf = true → exec i s = .next t →
    (writesA i = false → t.a = s.a) ∧ (writesX i = false → t.x = s.x) ∧ (writesY i = false → t.y = s.y) ∧
    (writesSP i = false → t.sp = s.sp) ∧ (writesPC i = false → t.pc = s.pc) ∧
    t.phase = s.phase ∧ t.inputs = s.inputs ∧ t.readOnly = s.readOnly ∧ t.boundary = s.boundary ∧
    t.cycles = s.cycles ∧ t.hidden = s.hidden

/-- The flag table (R19) over all instructions: a flag marked `-` keeps its value, `0` is cleared, `1` is set;
I changes only by ANDCC, ORCC, the writes of CC and the trap (R18). -/
def Obligations.FlagsFollowTheFlagTable : Prop :=
  ∀ (i : Instr) (s t : State), exec i s = .next t →
    (marks i).i.allows s.cc.i t.cc.i ∧ (marks i).n.allows s.cc.n t.cc.n ∧ (marks i).z.allows s.cc.z t.cc.z ∧
    (marks i).v.allows s.cc.v t.cc.v ∧ (marks i).c.allows s.cc.c t.cc.c

/-- No step's outcome depends on what an earlier one left in T, R, TA or the instruction register (R21,
R233). -/
def Obligations.HiddenRegistersAreUnobservable : Prop :=
  ∀ (s : State) (h : Hidden), step { s with hidden := h } = step s

/-! ### Part 2 (`49_alu_and_control_signals.md`) -/

/-- The ALU's function table gives the results of the instruction primitives (R225 to R228): add, subtract
(with the borrow the inverse of `c8`, C17), increment, decrement, negate, the shifts, the logical functions and
the constants. The mapping is derived by the spec. -/
def Obligations.AluTableGivesTheInstructionResults : Prop :=
  ∀ (d e : Byte) (cin : Bool),
    alu 11#4 d e cin = add8 d e cin ∧
    { alu 12#4 d e (!cin) with c := !(alu 12#4 d e (!cin)).c } = sub8 d e cin ∧
    alu 9#4 d e true = add8 d 0#8 true ∧ alu 10#4 d e cin = add8 d 0xFF#8 false ∧
    alu 5#4 d e true = sub8 0#8 d false ∧ (alu 5#4 d e false).r = ~~~d ∧
    alu 13#4 d e cin = shl d cin ∧ alu 14#4 d e cin = shr d cin ∧ alu 15#4 d e cin = sar d ∧
    (alu 7#4 d e cin).r = d &&& e ∧ (alu 6#4 d e cin).r = d ||| e ∧ (alu 8#4 d e cin).r = d ^^^ e ∧
    (∀ f ∈ [4#4, 6#4, 7#4, 8#4], ((alu f d e cin).n, (alu f d e cin).z) = nz (alu f d e cin).r ∧
      (alu f d e cin).v = false ∧ (alu f d e cin).c = false) ∧
    [(alu 0#4 d e cin).r, (alu 1#4 d e cin).r, (alu 2#4 d e cin).r, (alu 3#4 d e cin).r] =
      [0x00#8, Config.irqVector, Config.trapVector, Config.resetVector]

/-- The mapping of R228: for every well-formed instruction that it gives an ALU function, the clock pulse
that stores the flags through the carry-in and flag selectors named there (R230, R231) leaves CC as the
instruction's meaning does, for every operand and whatever is at the inputs the function does not use; the
ALU's U is the byte the instruction stores in A or in writable storage. And so for CC after TFR A,CC and EXG
A,CC, taken from the bus, and for the I of IRQ entry. The mapping is derived by the spec; that C is inverted
between the ALU and the selector is the model's choice (log entry 18). -/
def Obligations.SelectorsGiveTheStoredFlags : Prop :=
  (∀ (i : Instr) (u : AluUse) (s : State) (idle intoR intoTA : Byte) (hi : BitVec 3),
    i.wf = true → aluUse i = some u →
    let d := aluOperands idle hi s i
    let o := alu u.f d.1 d.2 (selectCarryIn u.gCin s.cc.c)
    (Safety.after i s).cc = (s.datapath.clock u.signals o.r intoR intoTA d.1 d.2).cc ∧
    (writesA i = true → (Safety.after i s).a = o.r) ∧
    (∀ adr ∈ storedTo i s, Stores s adr → (Safety.after i s).byteAt adr = o.r)) ∧
  (∀ (s : State) (o : Result) (bus : Byte),
    (Safety.after .tfrAcc s).cc = selectCC 1#2 1#2 1#2 1#2 1#2 o s.a s.cc ∧
    (Safety.after .exgAcc s).cc = selectCC 1#2 1#2 1#2 1#2 1#2 o s.a s.cc ∧
    s.irqEntry.cc = selectCC 2#2 3#2 3#2 3#2 3#2 o bus s.cc)

/-! ### The assembly language (`30_encoding.md` R69 to R72) -/

/-- The offset that the assembler computes brings a relative instruction at `adr` to its target (R57, R72). An
alias picks what its mnemonic of record picks (R71), whatever the form. Every instruction of the opcode map but the
six blank ones, written as `sourceOf` says, picks exactly that instruction (R69), and what is picked at all is an
instruction of the map whose source the line is. -/
def Obligations.AssemblerPicksInstructionsOfTheMap : Prop :=
  (∀ (s : State) (adr target : Byte), s.pc = adr + 2#8 →
    s.branchTarget (Assembly.branchOffset adr target) = target) ∧
  (∀ (m : Assembly.Mnemonic) (f : Assembly.OperandForm Byte) (adr : Byte),
    Assembly.pick m f adr = Assembly.pick m.ofRecord f adr ∧
    Assembly.pick .asla f adr = Assembly.pick .lsla f adr ∧ Assembly.pick .asl f adr = Assembly.pick .lsl f adr ∧
    Assembly.pick .bhs f adr = Assembly.pick .bcc f adr ∧ Assembly.pick .blo f adr = Assembly.pick .bcs f adr) ∧
  (∀ (i : Instr) (adr : Byte), i.wf = true → (∀ op, i ≠ .notImplemented op) →
    ∃ m f, sourceOf adr i = some (m, f) ∧ Assembly.pick m f adr = .ok i) ∧
  (∀ (m : Assembly.Mnemonic) (f : Assembly.OperandForm Byte) (adr : Byte) (i : Instr),
    Assembly.pick m f adr = .ok i → i.wf = true ∧ sourceOf adr i = some (m.ofRecord, f))
end

