-- ==== Sys2Proof/Laws/Memory.lean ====
section
/-! SUPPORT. The storage: a read after a write, and the canonical form that every write keeps. -/

namespace Sys2Proof.Laws

open Sys2Proof.Machine

/-- The byte just written is found. -/
@[simp] theorem find_store_same (m : Memory) (adr : Nat) (v : Byte) :
    (m.store adr v).find adr = some v := by
  induction m with
  | nil => simp [Memory.store, Memory.find]
  | cons c rest ih =>
    obtain ⟨k, w⟩ := c
    simp only [Memory.store]
    split
    · simp [Memory.find]
    · split
      · simp [Memory.find]
      · rename_i h1 h2
        simp [Memory.find, ih, Ne.symm h2]

/-- Every other address is found as before. -/
theorem find_store_other (m : Memory) {adr b : Nat} (v : Byte) (h : b ≠ adr) :
    (m.store adr v).find b = m.find b := by
  induction m with
  | nil => simp [Memory.store, Memory.find, h.symm]
  | cons c rest ih =>
    obtain ⟨k, w⟩ := c
    simp only [Memory.store]
    split
    · simp [Memory.find, h.symm]
    · split
      · rename_i h2
        simp [Memory.find, h.symm, ← h2]
      · simp [Memory.find, ih]

/-- A write adds one cell and no other. -/
theorem mem_store {m : Memory} {adr : Nat} {v : Byte} {c : Host.Cell} (h : c ∈ m.store adr v) :
    c = (adr, v) ∨ c ∈ m := by
  induction m with
  | nil => simpa [Memory.store] using h
  | cons d rest ih =>
    obtain ⟨k, w⟩ := d
    simp only [Memory.store] at h
    split at h
    · simpa using h
    · split at h
      · rcases List.mem_cons.1 h with h | h
        · exact .inl h
        · exact .inr (List.mem_cons_of_mem _ h)
      · rcases List.mem_cons.1 h with h | h
        · exact .inr (h ▸ List.mem_cons_self)
        · exact (ih h).imp_right (List.mem_cons_of_mem _)

/-- Rising addresses stay rising. -/
theorem store_rising {m : Memory} (adr : Nat) (v : Byte) (h : m.Pairwise (fun c d => c.1 < d.1)) :
    (m.store adr v).Pairwise (fun c d => c.1 < d.1) := by
  induction m with
  | nil => simp [Memory.store]
  | cons d rest ih =>
    obtain ⟨k, w⟩ := d
    obtain ⟨hk, hr⟩ := List.pairwise_cons.1 h
    simp only [Memory.store]
    split
    · rename_i hlt
      refine List.pairwise_cons.2 ⟨fun c hc => ?_, h⟩
      rcases List.mem_cons.1 hc with rfl | hc
      · exact hlt
      · exact Nat.lt_trans hlt (hk c hc)
    · split
      · rename_i heq
        exact List.pairwise_cons.2 ⟨fun c hc => heq ▸ hk c hc, hr⟩
      · refine List.pairwise_cons.2 ⟨fun c hc => ?_, ih hr⟩
        rcases mem_store hc with rfl | hc
        · simp only; omega
        · exact hk c hc

/-- A write to storage keeps the canonical form. -/
theorem store_wf {m : Memory} (adr v : Byte) (h : m.wf) (hp : isPort adr = false) :
    (m.store adr.toNat v).wf := by
  refine ⟨store_rising _ _ h.1, fun c hc => ?_⟩
  rcases mem_store hc with rfl | hc
  · exact ⟨adr.isLt, by simpa using hp⟩
  · exact h.2 c hc

/-- The memory after reset lists nothing and has the form. -/
theorem reset_mem_wf : State.reset.mem.wf := by
  simp [State.reset, Memory.wf]

/-- Two memories in canonical form that find the same bytes everywhere are the same list. -/
theorem eq_of_find_eq {m n : Memory} (hm : m.Pairwise (fun c d => c.1 < d.1))
    (hn : n.Pairwise (fun c d => c.1 < d.1)) (h : ∀ b, m.find b = n.find b) : m = n := by
  have absent : ∀ {l : Memory} {b : Nat}, (∀ c ∈ l, b < c.1) → l.find b = none := by
    intro l b hl
    induction l with
    | nil => rfl
    | cons c rest ih =>
      obtain ⟨k, w⟩ := c
      have hk : b < k := hl (k, w) List.mem_cons_self
      simp only [Memory.find]
      rw [if_neg (by omega)]
      exact ih fun c hc => hl c (List.mem_cons_of_mem _ hc)
  induction m generalizing n with
  | nil =>
    cases n with
    | nil => rfl
    | cons d rest => simpa [Memory.find] using h d.1
  | cons c rest ih =>
    obtain ⟨k, w⟩ := c
    obtain ⟨hk, hr⟩ := List.pairwise_cons.1 hm
    cases n with
    | nil => simpa [Memory.find] using h k
    | cons d rest' =>
      obtain ⟨k', w'⟩ := d
      obtain ⟨hk', hr'⟩ := List.pairwise_cons.1 hn
      have first : k = k' := by
        rcases Nat.lt_trichotomy k k' with hlt | heq | hgt
        · have e := h k
          rw [absent (l := (k', w') :: rest') fun c hc => by
            rcases List.mem_cons.1 hc with rfl | hc
            · exact hlt
            · exact Nat.lt_trans hlt (hk' c hc)] at e
          simp [Memory.find] at e
        · exact heq
        · have e := h k'
          rw [absent (l := (k, w) :: rest) fun c hc => by
            rcases List.mem_cons.1 hc with rfl | hc
            · exact hgt
            · exact Nat.lt_trans hgt (hk c hc)] at e
          simp [Memory.find] at e
      subst first
      have hw : w = w' := by simpa [Memory.find] using h k
      subst hw
      refine congrArg _ (ih hr hr' fun b => ?_)
      by_cases hb : k = b
      · subst hb
        rw [absent hk, absent hk']
      · simpa [Memory.find, hb] using h b

end Sys2Proof.Laws
end

