-- ==== Sys2Proof/Laws/State.lean ====
section
/-! SUPPORT. What each named update of the state that only sets fields leaves in every field: one lemma per
field, true by `rfl`. -/

namespace Sys2Proof.Laws

open Sys2Proof.Machine

/-! ### Reading CC as a byte -/

@[simp] theorem ccRead_snd_a (s : State) : s.ccRead.2.a = s.a := rfl
@[simp] theorem ccRead_snd_x (s : State) : s.ccRead.2.x = s.x := rfl
@[simp] theorem ccRead_snd_y (s : State) : s.ccRead.2.y = s.y := rfl
@[simp] theorem ccRead_snd_sp (s : State) : s.ccRead.2.sp = s.sp := rfl
@[simp] theorem ccRead_snd_pc (s : State) : s.ccRead.2.pc = s.pc := rfl
@[simp] theorem ccRead_snd_cc (s : State) : s.ccRead.2.cc = s.cc := rfl
@[simp] theorem ccRead_snd_mem (s : State) : s.ccRead.2.mem = s.mem := rfl
@[simp] theorem ccRead_snd_phase (s : State) : s.ccRead.2.phase = s.phase := rfl
@[simp] theorem ccRead_snd_inputs (s : State) : s.ccRead.2.inputs = s.inputs := rfl
@[simp] theorem ccRead_snd_portIn (s : State) : s.ccRead.2.portIn = s.portIn := rfl
@[simp] theorem ccRead_snd_ports (s : State) : s.ccRead.2.ports = s.ports := rfl
@[simp] theorem ccRead_snd_readOnly (s : State) : s.ccRead.2.readOnly = s.readOnly := rfl
@[simp] theorem ccRead_snd_boundary (s : State) : s.ccRead.2.boundary = s.boundary := rfl
@[simp] theorem ccRead_snd_ccReads (s : State) : s.ccRead.2.ccReads = s.ccReads + 1 := rfl
@[simp] theorem ccRead_snd_cycles (s : State) : s.ccRead.2.cycles = s.cycles := rfl
@[simp] theorem ccRead_snd_hidden (s : State) : s.ccRead.2.hidden = s.hidden := rfl

/-! ### Writing CC -/

@[simp] theorem ccWrite_a (s : State) (v : Byte) : (s.ccWrite v).a = s.a := rfl
@[simp] theorem ccWrite_x (s : State) (v : Byte) : (s.ccWrite v).x = s.x := rfl
@[simp] theorem ccWrite_y (s : State) (v : Byte) : (s.ccWrite v).y = s.y := rfl
@[simp] theorem ccWrite_sp (s : State) (v : Byte) : (s.ccWrite v).sp = s.sp := rfl
@[simp] theorem ccWrite_pc (s : State) (v : Byte) : (s.ccWrite v).pc = s.pc := rfl
@[simp] theorem ccWrite_cc (s : State) (v : Byte) : (s.ccWrite v).cc = CC.ofByte v := rfl
@[simp] theorem ccWrite_mem (s : State) (v : Byte) : (s.ccWrite v).mem = s.mem := rfl
@[simp] theorem ccWrite_phase (s : State) (v : Byte) : (s.ccWrite v).phase = s.phase := rfl
@[simp] theorem ccWrite_inputs (s : State) (v : Byte) : (s.ccWrite v).inputs = s.inputs := rfl
@[simp] theorem ccWrite_portIn (s : State) (v : Byte) : (s.ccWrite v).portIn = s.portIn := rfl
@[simp] theorem ccWrite_ports (s : State) (v : Byte) : (s.ccWrite v).ports = s.ports := rfl
@[simp] theorem ccWrite_readOnly (s : State) (v : Byte) : (s.ccWrite v).readOnly = s.readOnly := rfl
@[simp] theorem ccWrite_boundary (s : State) (v : Byte) : (s.ccWrite v).boundary = s.boundary := rfl
@[simp] theorem ccWrite_ccReads (s : State) (v : Byte) : (s.ccWrite v).ccReads = s.ccReads := rfl
@[simp] theorem ccWrite_cycles (s : State) (v : Byte) : (s.ccWrite v).cycles = s.cycles := rfl
@[simp] theorem ccWrite_hidden (s : State) (v : Byte) : (s.ccWrite v).hidden = s.hidden := rfl

/-! ### Counting a step -/

@[simp] theorem countStep_a (s : State) : s.countStep.a = s.a := rfl
@[simp] theorem countStep_x (s : State) : s.countStep.x = s.x := rfl
@[simp] theorem countStep_y (s : State) : s.countStep.y = s.y := rfl
@[simp] theorem countStep_sp (s : State) : s.countStep.sp = s.sp := rfl
@[simp] theorem countStep_pc (s : State) : s.countStep.pc = s.pc := rfl
@[simp] theorem countStep_cc (s : State) : s.countStep.cc = s.cc := rfl
@[simp] theorem countStep_mem (s : State) : s.countStep.mem = s.mem := rfl
@[simp] theorem countStep_phase (s : State) : s.countStep.phase = s.phase := rfl
@[simp] theorem countStep_inputs (s : State) : s.countStep.inputs = s.inputs := rfl
@[simp] theorem countStep_portIn (s : State) : s.countStep.portIn = s.portIn := rfl
@[simp] theorem countStep_ports (s : State) : s.countStep.ports = s.ports := rfl
@[simp] theorem countStep_readOnly (s : State) : s.countStep.readOnly = s.readOnly := rfl
@[simp] theorem countStep_boundary (s : State) : s.countStep.boundary = s.boundary + 1 := rfl
@[simp] theorem countStep_ccReads (s : State) : s.countStep.ccReads = s.ccReads := rfl
@[simp] theorem countStep_cycles (s : State) : s.countStep.cycles = s.cycles := rfl

/-! ### Passing a boundary -/

@[simp] theorem passBoundary_a (s : State) : s.passBoundary.a = s.a := rfl
@[simp] theorem passBoundary_x (s : State) : s.passBoundary.x = s.x := rfl
@[simp] theorem passBoundary_y (s : State) : s.passBoundary.y = s.y := rfl
@[simp] theorem passBoundary_sp (s : State) : s.passBoundary.sp = s.sp := rfl
@[simp] theorem passBoundary_pc (s : State) : s.passBoundary.pc = s.pc := rfl
@[simp] theorem passBoundary_cc (s : State) : s.passBoundary.cc = s.cc := rfl
@[simp] theorem passBoundary_mem (s : State) : s.passBoundary.mem = s.mem := rfl
@[simp] theorem passBoundary_phase (s : State) : s.passBoundary.phase = s.phase := rfl
@[simp] theorem passBoundary_inputs (s : State) : s.passBoundary.inputs = s.inputs.tail := rfl
@[simp] theorem passBoundary_portIn (s : State) : s.passBoundary.portIn = s.portIn := rfl
@[simp] theorem passBoundary_ports (s : State) : s.passBoundary.ports = s.ports := rfl
@[simp] theorem passBoundary_readOnly (s : State) : s.passBoundary.readOnly = s.readOnly := rfl
@[simp] theorem passBoundary_boundary (s : State) : s.passBoundary.boundary = s.boundary + 1 := rfl
@[simp] theorem passBoundary_ccReads (s : State) : s.passBoundary.ccReads = s.ccReads := rfl
@[simp] theorem passBoundary_cycles (s : State) : s.passBoundary.cycles = s.cycles := rfl

/-! ### What depends on a part of the state only -/

/-- The byte at an address depends on the memory alone. -/
theorem byteAt_congr {s t : State} (h : t.mem = s.mem) (adr : Byte) : t.byteAt adr = s.byteAt adr := by
  simp only [State.byteAt, h]

/-- What may be written depends on the platform's list alone. -/
theorem writable_congr {s t : State} (h : t.readOnly = s.readOnly) (adr : Byte) :
    t.writable adr = s.writable adr := by
  simp only [State.writable, h]

/-- An address may be written exactly when the platform does not list it. -/
theorem writable_iff (s : State) (adr : Byte) : s.writable adr = true ↔ adr ∉ s.readOnly := by
  simp [State.writable]

end Sys2Proof.Laws
end

