-- ==== Sys2Proof/Laws/Ops.lean ====
section
/-! SUPPORT. The named operations: for each one what it does to every field, and one lemma that says once all it
can do to memory and ports. -/

namespace Sys2Proof.Laws

open Sys2Proof.Machine Sys2Proof.Safety

/-! ### Ports -/

theorem isPort_iff (adr : Byte) : isPort adr = true ↔ Port adr := by
  simp [isPort, Port, Config.portLow, Config.portHigh]

theorem isPort_eq_false_iff (adr : Byte) : isPort adr = false ↔ ¬ Port adr := by
  rw [← isPort_iff]; simp

/-! ### Reading -/

/-- A read of a port asks the peripheral, and the peripheral sees it. -/
theorem memRead_port {s : State} {adr : Byte} (h : Port adr) :
    s.memRead adr = (s.portAnswer adr,
      { s with portIn := s.portIn.tail, ports := s.ports ++ [.input adr (s.portAnswer adr)] }) := by
  simp [State.memRead, (isPort_iff adr).2 h]

/-- A read of storage gives its byte and changes nothing. -/
theorem memRead_storage {s : State} {adr : Byte} (h : ¬ Port adr) :
    s.memRead adr = (s.byteAt adr, s) := by
  simp [State.memRead, (isPort_eq_false_iff adr).2 h]

@[simp] theorem memRead_snd_a (s : State) (adr : Byte) :
    (s.memRead adr).2.a = s.a := by
  unfold State.memRead; split <;> rfl
@[simp] theorem memRead_snd_x (s : State) (adr : Byte) :
    (s.memRead adr).2.x = s.x := by
  unfold State.memRead; split <;> rfl
@[simp] theorem memRead_snd_y (s : State) (adr : Byte) :
    (s.memRead adr).2.y = s.y := by
  unfold State.memRead; split <;> rfl
@[simp] theorem memRead_snd_sp (s : State) (adr : Byte) :
    (s.memRead adr).2.sp = s.sp := by
  unfold State.memRead; split <;> rfl
@[simp] theorem memRead_snd_pc (s : State) (adr : Byte) :
    (s.memRead adr).2.pc = s.pc := by
  unfold State.memRead; split <;> rfl
@[simp] theorem memRead_snd_cc (s : State) (adr : Byte) :
    (s.memRead adr).2.cc = s.cc := by
  unfold State.memRead; split <;> rfl
@[simp] theorem memRead_snd_mem (s : State) (adr : Byte) :
    (s.memRead adr).2.mem = s.mem := by
  unfold State.memRead; split <;> rfl
@[simp] theorem memRead_snd_phase (s : State) (adr : Byte) :
    (s.memRead adr).2.phase = s.phase := by
  unfold State.memRead; split <;> rfl
@[simp] theorem memRead_snd_inputs (s : State) (adr : Byte) :
    (s.memRead adr).2.inputs = s.inputs := by
  unfold State.memRead; split <;> rfl
@[simp] theorem memRead_snd_readOnly (s : State) (adr : Byte) :
    (s.memRead adr).2.readOnly = s.readOnly := by
  unfold State.memRead; split <;> rfl
@[simp] theorem memRead_snd_boundary (s : State) (adr : Byte) :
    (s.memRead adr).2.boundary = s.boundary := by
  unfold State.memRead; split <;> rfl
@[simp] theorem memRead_snd_ccReads (s : State) (adr : Byte) :
    (s.memRead adr).2.ccReads = s.ccReads := by
  unfold State.memRead; split <;> rfl
@[simp] theorem memRead_snd_cycles (s : State) (adr : Byte) :
    (s.memRead adr).2.cycles = s.cycles := by
  unfold State.memRead; split <;> rfl
@[simp] theorem memRead_snd_hidden (s : State) (adr : Byte) :
    (s.memRead adr).2.hidden = s.hidden := by
  unfold State.memRead; split <;> rfl

/-- A read does not depend on the registers and leaves them alone. -/
theorem memRead_registers (s : State) (a x y sp pc adr : Byte) (cc : CC) :
    { s with a := a, x := x, y := y, sp := sp, pc := pc, cc := cc }.memRead adr =
      ((s.memRead adr).1,
        { (s.memRead adr).2 with a := a, x := x, y := y, sp := sp, pc := pc, cc := cc }) := by
  unfold State.memRead; split <;> rfl

/-- A read changes no byte of memory. -/
@[simp] theorem memRead_snd_byteAt (s : State) (adr b : Byte) :
    (s.memRead adr).2.byteAt b = s.byteAt b := byteAt_congr (memRead_snd_mem s adr) b

/-- A read adds at most its own event to the trace and uses at most one scheduled answer. -/
theorem memRead_trace (s : State) (adr : Byte) :
    ((s.memRead adr).2.ports = s.ports ∧ (s.memRead adr).2.portIn = s.portIn) ∨
    (Port adr ∧ (s.memRead adr).2.ports = s.ports ++ [.input adr (s.memRead adr).1] ∧
      (s.memRead adr).2.portIn = s.portIn.tail) := by
  by_cases h : Port adr
  · exact .inr ⟨h, by simp [memRead_port h], by simp [memRead_port h]⟩
  · exact .inl (by simp [memRead_storage h])

/-! ### Writing -/

/-- A write to a port outputs the byte. -/
theorem memWrite_port {s : State} {adr : Byte} (v : Byte) (h : Port adr) :
    s.memWrite adr v = { s with ports := s.ports ++ [.output adr v] } := by
  simp [State.memWrite, (isPort_iff adr).2 h]

/-- A write to writable storage stores the byte. -/
theorem memWrite_stores {s : State} {adr : Byte} (v : Byte) (h : Stores s adr) :
    s.memWrite adr v = { s with mem := Memory.store s.mem adr.toNat v } := by
  simp [State.memWrite, (isPort_eq_false_iff adr).2 h.1, (writable_iff s adr).2 h.2]

/-- A write to storage that is not writable does nothing. -/
theorem memWrite_denied {s : State} {adr : Byte} (v : Byte) (h : ¬ Port adr) (hr : adr ∈ s.readOnly) :
    s.memWrite adr v = s := by
  simp [State.memWrite, (isPort_eq_false_iff adr).2 h, State.writable, hr]

@[simp] theorem memWrite_a (s : State) (adr v : Byte) :
    (s.memWrite adr v).a = s.a := by
  unfold State.memWrite; split <;> [rfl; split <;> rfl]
@[simp] theorem memWrite_x (s : State) (adr v : Byte) :
    (s.memWrite adr v).x = s.x := by
  unfold State.memWrite; split <;> [rfl; split <;> rfl]
@[simp] theorem memWrite_y (s : State) (adr v : Byte) :
    (s.memWrite adr v).y = s.y := by
  unfold State.memWrite; split <;> [rfl; split <;> rfl]
@[simp] theorem memWrite_sp (s : State) (adr v : Byte) :
    (s.memWrite adr v).sp = s.sp := by
  unfold State.memWrite; split <;> [rfl; split <;> rfl]
@[simp] theorem memWrite_pc (s : State) (adr v : Byte) :
    (s.memWrite adr v).pc = s.pc := by
  unfold State.memWrite; split <;> [rfl; split <;> rfl]
@[simp] theorem memWrite_cc (s : State) (adr v : Byte) :
    (s.memWrite adr v).cc = s.cc := by
  unfold State.memWrite; split <;> [rfl; split <;> rfl]
@[simp] theorem memWrite_phase (s : State) (adr v : Byte) :
    (s.memWrite adr v).phase = s.phase := by
  unfold State.memWrite; split <;> [rfl; split <;> rfl]
@[simp] theorem memWrite_inputs (s : State) (adr v : Byte) :
    (s.memWrite adr v).inputs = s.inputs := by
  unfold State.memWrite; split <;> [rfl; split <;> rfl]
@[simp] theorem memWrite_portIn (s : State) (adr v : Byte) :
    (s.memWrite adr v).portIn = s.portIn := by
  unfold State.memWrite; split <;> [rfl; split <;> rfl]
@[simp] theorem memWrite_readOnly (s : State) (adr v : Byte) :
    (s.memWrite adr v).readOnly = s.readOnly := by
  unfold State.memWrite; split <;> [rfl; split <;> rfl]
@[simp] theorem memWrite_boundary (s : State) (adr v : Byte) :
    (s.memWrite adr v).boundary = s.boundary := by
  unfold State.memWrite; split <;> [rfl; split <;> rfl]
@[simp] theorem memWrite_ccReads (s : State) (adr v : Byte) :
    (s.memWrite adr v).ccReads = s.ccReads := by
  unfold State.memWrite; split <;> [rfl; split <;> rfl]
@[simp] theorem memWrite_cycles (s : State) (adr v : Byte) :
    (s.memWrite adr v).cycles = s.cycles := by
  unfold State.memWrite; split <;> [rfl; split <;> rfl]
@[simp] theorem memWrite_hidden (s : State) (adr v : Byte) :
    (s.memWrite adr v).hidden = s.hidden := by
  unfold State.memWrite; split <;> [rfl; split <;> rfl]

/-- A write touches memory and trace only. -/
theorem memWrite_eq (s : State) (adr v : Byte) :
    s.memWrite adr v =
      { s with mem := (s.memWrite adr v).mem, ports := (s.memWrite adr v).ports } := by
  unfold State.memWrite; split <;> [rfl; split <;> rfl]

/-- A write does not depend on the registers and leaves them alone. -/
theorem memWrite_registers (s : State) (a x y sp pc adr v : Byte) (cc : CC) (n : Nat) :
    { s with a := a, x := x, y := y, sp := sp, pc := pc, cc := cc, ccReads := n }.memWrite adr v =
      { s.memWrite adr v with a := a, x := x, y := y, sp := sp, pc := pc, cc := cc, ccReads := n } := by
  unfold State.memWrite State.writable; split <;> [rfl; split <;> rfl]

/-- All a write does to memory and ports. -/
theorem memWrite_wrote (s : State) (adr v : Byte) : Wrote s (s.memWrite adr v) adr v := by
  have others : ∀ b, b ≠ adr → (s.memWrite adr v).byteAt b = s.byteAt b := by
    intro b hb
    unfold State.memWrite
    split
    · rfl
    · split
      · simp [State.byteAt, find_store_other _ v (fun h => hb (BitVec.eq_of_toNat_eq h))]
      · rfl
  refine ⟨fun h => ⟨by simp [memWrite_port v h], fun b => ?_⟩, fun h => ?_, fun h => ?_, fun h => ?_, others⟩
  · rw [memWrite_port v h]; rfl
  · unfold State.memWrite
    rw [if_neg (by simp [(isPort_eq_false_iff adr).2 h])]
    split <;> rfl
  · simp [memWrite_stores v h, State.byteAt]
  · by_cases hp : Port adr
    · rw [memWrite_port v hp]; rfl
    · rw [memWrite_denied v hp h]

/-- A write to storage leaves the trace alone. -/
theorem memWrite_ports_of_not_port {s : State} {adr : Byte} (v : Byte) (h : ¬ Port adr) :
    (s.memWrite adr v).ports = s.ports := (memWrite_wrote s adr v).quiet h

/-- Every byte but the one written reads as before. -/
theorem memWrite_byteAt_other {s : State} {adr b : Byte} (v : Byte) (h : b ≠ adr) :
    (s.memWrite adr v).byteAt b = s.byteAt b := (memWrite_wrote s adr v).others b h

/-- Writable storage reads as the byte written. -/
theorem memWrite_byteAt_same {s : State} {adr : Byte} (v : Byte) (h : Stores s adr) :
    (s.memWrite adr v).byteAt adr = v := (memWrite_wrote s adr v).stored h

/-! ### The invariant -/

/-- A read keeps the invariant. -/
theorem memRead_inv {s : State} (adr : Byte) (h : MemoryInv s) : MemoryInv (s.memRead adr).2 := by
  by_cases hp : Port adr
  · refine ⟨by simpa using h.1, fun e he => ?_⟩
    rw [memRead_port hp] at he
    rcases List.mem_append.1 he with he | he
    · exact h.2 e he
    · rw [List.mem_singleton.1 he]; exact (isPort_iff adr).2 hp
  · rwa [memRead_storage hp]

/-- A write keeps the invariant. -/
theorem memWrite_inv {s : State} (adr v : Byte) (h : MemoryInv s) : MemoryInv (s.memWrite adr v) := by
  unfold State.memWrite
  split
  · rename_i hp
    refine ⟨h.1, fun e he => ?_⟩
    rcases List.mem_append.1 he with he | he
    · exact h.2 e he
    · rw [List.mem_singleton.1 he]; exact hp
  · rename_i hp
    split
    · exact ⟨store_wf adr v h.1 (by simpa using hp), h.2⟩
    · exact h

/-- The invariant speaks of memory and trace only. -/
theorem inv_congr {s t : State} (hm : t.mem = s.mem) (hp : t.ports = s.ports) : Safety.MemoryInv t ↔ Safety.MemoryInv s := by
  simp only [Safety.MemoryInv, hm, hp]

/-! ### Fetch, push and pull -/

@[simp] theorem fetch8_snd_a (s : State) : s.fetch8.2.a = s.a := memRead_snd_a s s.pc
@[simp] theorem fetch8_snd_x (s : State) : s.fetch8.2.x = s.x := memRead_snd_x s s.pc
@[simp] theorem fetch8_snd_y (s : State) : s.fetch8.2.y = s.y := memRead_snd_y s s.pc
@[simp] theorem fetch8_snd_sp (s : State) : s.fetch8.2.sp = s.sp := memRead_snd_sp s s.pc
@[simp] theorem fetch8_snd_pc (s : State) : s.fetch8.2.pc = s.pc + 1#8 := rfl
@[simp] theorem fetch8_snd_cc (s : State) : s.fetch8.2.cc = s.cc := memRead_snd_cc s s.pc
@[simp] theorem fetch8_snd_mem (s : State) : s.fetch8.2.mem = s.mem := memRead_snd_mem s s.pc
@[simp] theorem fetch8_snd_phase (s : State) : s.fetch8.2.phase = s.phase := memRead_snd_phase s s.pc
@[simp] theorem fetch8_snd_inputs (s : State) : s.fetch8.2.inputs = s.inputs := memRead_snd_inputs s s.pc
@[simp] theorem fetch8_snd_readOnly (s : State) :
    s.fetch8.2.readOnly = s.readOnly := memRead_snd_readOnly s s.pc
@[simp] theorem fetch8_snd_boundary (s : State) :
    s.fetch8.2.boundary = s.boundary := memRead_snd_boundary s s.pc
@[simp] theorem fetch8_snd_ccReads (s : State) : s.fetch8.2.ccReads = s.ccReads := memRead_snd_ccReads s s.pc
@[simp] theorem fetch8_snd_cycles (s : State) : s.fetch8.2.cycles = s.cycles := memRead_snd_cycles s s.pc
@[simp] theorem fetch8_snd_hidden (s : State) : s.fetch8.2.hidden = s.hidden := memRead_snd_hidden s s.pc

@[simp] theorem push_a (s : State) (v : Byte) : (s.push v).a = s.a := memWrite_a _ _ v
@[simp] theorem push_x (s : State) (v : Byte) : (s.push v).x = s.x := memWrite_x _ _ v
@[simp] theorem push_y (s : State) (v : Byte) : (s.push v).y = s.y := memWrite_y _ _ v
@[simp] theorem push_sp (s : State) (v : Byte) : (s.push v).sp = s.sp - 1#8 := memWrite_sp _ _ v
@[simp] theorem push_pc (s : State) (v : Byte) : (s.push v).pc = s.pc := memWrite_pc _ _ v
@[simp] theorem push_cc (s : State) (v : Byte) : (s.push v).cc = s.cc := memWrite_cc _ _ v
@[simp] theorem push_phase (s : State) (v : Byte) : (s.push v).phase = s.phase := memWrite_phase _ _ v
@[simp] theorem push_inputs (s : State) (v : Byte) : (s.push v).inputs = s.inputs := memWrite_inputs _ _ v
@[simp] theorem push_portIn (s : State) (v : Byte) : (s.push v).portIn = s.portIn := memWrite_portIn _ _ v
@[simp] theorem push_readOnly (s : State) (v : Byte) :
    (s.push v).readOnly = s.readOnly := memWrite_readOnly _ _ v
@[simp] theorem push_boundary (s : State) (v : Byte) :
    (s.push v).boundary = s.boundary := memWrite_boundary _ _ v
@[simp] theorem push_ccReads (s : State) (v : Byte) :
    (s.push v).ccReads = s.ccReads := memWrite_ccReads _ _ v
@[simp] theorem push_cycles (s : State) (v : Byte) : (s.push v).cycles = s.cycles := memWrite_cycles _ _ v
@[simp] theorem push_hidden (s : State) (v : Byte) : (s.push v).hidden = s.hidden := memWrite_hidden _ _ v

@[simp] theorem pull_snd_a (s : State) : s.pull.2.a = s.a := memRead_snd_a s s.sp
@[simp] theorem pull_snd_x (s : State) : s.pull.2.x = s.x := memRead_snd_x s s.sp
@[simp] theorem pull_snd_y (s : State) : s.pull.2.y = s.y := memRead_snd_y s s.sp
@[simp] theorem pull_snd_sp (s : State) : s.pull.2.sp = s.sp + 1#8 := rfl
@[simp] theorem pull_snd_pc (s : State) : s.pull.2.pc = s.pc := memRead_snd_pc s s.sp
@[simp] theorem pull_snd_cc (s : State) : s.pull.2.cc = s.cc := memRead_snd_cc s s.sp
@[simp] theorem pull_snd_mem (s : State) : s.pull.2.mem = s.mem := memRead_snd_mem s s.sp
@[simp] theorem pull_snd_phase (s : State) : s.pull.2.phase = s.phase := memRead_snd_phase s s.sp
@[simp] theorem pull_snd_inputs (s : State) : s.pull.2.inputs = s.inputs := memRead_snd_inputs s s.sp
@[simp] theorem pull_snd_readOnly (s : State) : s.pull.2.readOnly = s.readOnly := memRead_snd_readOnly s s.sp
@[simp] theorem pull_snd_boundary (s : State) : s.pull.2.boundary = s.boundary := memRead_snd_boundary s s.sp
@[simp] theorem pull_snd_ccReads (s : State) : s.pull.2.ccReads = s.ccReads := memRead_snd_ccReads s s.sp
@[simp] theorem pull_snd_cycles (s : State) : s.pull.2.cycles = s.cycles := memRead_snd_cycles s s.sp
@[simp] theorem pull_snd_hidden (s : State) : s.pull.2.hidden = s.hidden := memRead_snd_hidden s s.sp

/-- A fetch from storage: the byte at PC, and nothing but PC changes. -/
theorem fetch8_storage {s : State} (h : ¬ Port s.pc) :
    s.fetch8 = (s.byteAt s.pc, { s with pc := s.pc + 1#8 }) := by
  simp [State.fetch8, memRead_storage h]

/-- A pull from storage: the byte at SP, and nothing but SP changes. -/
theorem pull_storage {s : State} (h : ¬ Port s.sp) :
    s.pull = (s.byteAt s.sp, { s with sp := s.sp + 1#8 }) := by
  simp [State.pull, memRead_storage h]

/-- A pull reads at SP, moves SP up and leaves the other registers alone. -/
theorem pull_registers (s : State) (a x y sp pc : Byte) (cc : CC) :
    { s with a := a, x := x, y := y, sp := sp, pc := pc, cc := cc }.pull =
      ((s.memRead sp).1,
        { (s.memRead sp).2 with a := a, x := x, y := y, sp := sp + 1#8, pc := pc, cc := cc }) := by
  have h := memRead_registers s a x y sp pc sp cc
  simp only [State.pull, h]

/-- All a push does to memory and ports. -/
theorem push_wrote (s : State) (v : Byte) : Wrote s (s.push v) (s.sp - 1#8) v :=
  let h := memWrite_wrote { s with sp := s.sp - 1#8 } (s.sp - 1#8) v
  ⟨h.output, h.quiet, h.stored, h.dropped, h.others⟩

/-- A push touches SP, memory and trace only. -/
theorem push_eq (s : State) (v : Byte) :
    s.push v = { s with sp := s.sp - 1#8, mem := (s.push v).mem, ports := (s.push v).ports } :=
  memWrite_eq { s with sp := s.sp - 1#8 } (s.sp - 1#8) v

/-- A push is a write at SP - 1 with SP moved there. -/
theorem push_eq_memWrite (s : State) (v : Byte) :
    s.push v = { s.memWrite (s.sp - 1#8) v with sp := s.sp - 1#8 } := by
  unfold State.push State.memWrite State.writable
  split <;> [rfl; split <;> rfl]

/-- A push writes below SP, moves SP there and leaves the other registers alone. -/
theorem push_registers (s : State) (a x y sp pc v : Byte) (cc : CC) (n : Nat) :
    { s with a := a, x := x, y := y, sp := sp, pc := pc, cc := cc, ccReads := n }.push v =
      { s.memWrite (sp - 1#8) v with
        a := a, x := x, y := y, sp := sp - 1#8, pc := pc, cc := cc, ccReads := n } :=
  memWrite_registers s a x y (sp - 1#8) pc (sp - 1#8) v cc n

theorem fetch8_inv {s : State} (h : MemoryInv s) : MemoryInv s.fetch8.2 := memRead_inv s.pc h

theorem push_inv {s : State} (v : Byte) (h : MemoryInv s) : MemoryInv (s.push v) :=
  memWrite_inv (s := { s with sp := s.sp - 1#8 }) (s.sp - 1#8) v h

theorem pull_inv {s : State} (h : MemoryInv s) : MemoryInv s.pull.2 := memRead_inv s.sp h

/-! ### Entering and leaving an exception -/

@[simp] theorem enter_a (s : State) (vector returnPc : Byte) (setI : Bool) :
    (s.enter vector returnPc setI).a = s.a := by
  simp [State.enter]
@[simp] theorem enter_x (s : State) (vector returnPc : Byte) (setI : Bool) :
    (s.enter vector returnPc setI).x = s.x := by
  simp [State.enter]
@[simp] theorem enter_y (s : State) (vector returnPc : Byte) (setI : Bool) :
    (s.enter vector returnPc setI).y = s.y := by
  simp [State.enter]
@[simp] theorem enter_sp (s : State) (vector returnPc : Byte) (setI : Bool) :
    (s.enter vector returnPc setI).sp = s.sp - 5#8 := by
  simp [State.enter, BitVec.sub_sub]
@[simp] theorem enter_cc (s : State) (vector returnPc : Byte) (setI : Bool) :
    (s.enter vector returnPc setI).cc = { s.cc with i := s.cc.i || setI } := by
  simp [State.enter]
@[simp] theorem enter_phase (s : State) (vector returnPc : Byte) (setI : Bool) :
    (s.enter vector returnPc setI).phase = s.phase := by
  simp [State.enter]
@[simp] theorem enter_inputs (s : State) (vector returnPc : Byte) (setI : Bool) :
    (s.enter vector returnPc setI).inputs = s.inputs := by
  simp [State.enter]
@[simp] theorem enter_readOnly (s : State) (vector returnPc : Byte) (setI : Bool) :
    (s.enter vector returnPc setI).readOnly = s.readOnly := by
  simp [State.enter]
@[simp] theorem enter_boundary (s : State) (vector returnPc : Byte) (setI : Bool) :
    (s.enter vector returnPc setI).boundary = s.boundary := by
  simp [State.enter]
@[simp] theorem enter_ccReads (s : State) (vector returnPc : Byte) (setI : Bool) :
    (s.enter vector returnPc setI).ccReads = s.ccReads + 1 := by
  simp [State.enter]
@[simp] theorem enter_cycles (s : State) (vector returnPc : Byte) (setI : Bool) :
    (s.enter vector returnPc setI).cycles = s.cycles := by
  simp [State.enter]
@[simp] theorem enter_hidden (s : State) (vector returnPc : Byte) (setI : Bool) :
    (s.enter vector returnPc setI).hidden = s.hidden := by
  simp [State.enter]

@[simp] theorem returnFromException_sp (s : State) :
    s.returnFromException.sp = s.sp + 5#8 := by
  simp [State.returnFromException, BitVec.add_assoc]
@[simp] theorem returnFromException_mem (s : State) :
    s.returnFromException.mem = s.mem := by
  simp [State.returnFromException]
@[simp] theorem returnFromException_phase (s : State) :
    s.returnFromException.phase = s.phase := by
  simp [State.returnFromException]
@[simp] theorem returnFromException_inputs (s : State) :
    s.returnFromException.inputs = s.inputs := by
  simp [State.returnFromException]
@[simp] theorem returnFromException_readOnly (s : State) :
    s.returnFromException.readOnly = s.readOnly := by
  simp [State.returnFromException]
@[simp] theorem returnFromException_boundary (s : State) :
    s.returnFromException.boundary = s.boundary := by
  simp [State.returnFromException]
@[simp] theorem returnFromException_ccReads (s : State) :
    s.returnFromException.ccReads = s.ccReads := by
  simp [State.returnFromException]
@[simp] theorem returnFromException_cycles (s : State) :
    s.returnFromException.cycles = s.cycles := by
  simp [State.returnFromException]
@[simp] theorem returnFromException_hidden (s : State) :
    s.returnFromException.hidden = s.hidden := by
  simp [State.returnFromException]

@[simp] theorem resetSequence_a (s : State) : s.resetSequence.a = State.reset.a := rfl
@[simp] theorem resetSequence_x (s : State) : s.resetSequence.x = State.reset.x := rfl
@[simp] theorem resetSequence_y (s : State) : s.resetSequence.y = State.reset.y := rfl
@[simp] theorem resetSequence_sp (s : State) : s.resetSequence.sp = State.reset.sp := rfl
@[simp] theorem resetSequence_cc (s : State) : s.resetSequence.cc = State.reset.cc := rfl
@[simp] theorem resetSequence_mem (s : State) : s.resetSequence.mem = s.mem := rfl
@[simp] theorem resetSequence_phase (s : State) : s.resetSequence.phase = .newFetch := rfl
@[simp] theorem resetSequence_inputs (s : State) : s.resetSequence.inputs = s.inputs := rfl
@[simp] theorem resetSequence_portIn (s : State) : s.resetSequence.portIn = s.portIn := rfl
@[simp] theorem resetSequence_ports (s : State) : s.resetSequence.ports = s.ports := rfl
@[simp] theorem resetSequence_readOnly (s : State) : s.resetSequence.readOnly = s.readOnly := rfl
@[simp] theorem resetSequence_boundary (s : State) : s.resetSequence.boundary = s.boundary := rfl
@[simp] theorem resetSequence_ccReads (s : State) : s.resetSequence.ccReads = s.ccReads := rfl
@[simp] theorem resetSequence_cycles (s : State) :
    s.resetSequence.cycles = s.cycles + Config.resetCycles := rfl
@[simp] theorem resetSequence_hidden (s : State) : s.resetSequence.hidden = s.hidden := rfl
@[simp] theorem resetSequence_pc (s : State) : s.resetSequence.pc = s.byteAt 0xFF#8 := rfl

/-- All that exception entry does, for a vector in storage: five writes at descending addresses, then the
vector's byte in PC. -/
theorem enter_eq (s : State) (vector returnPc : Byte) (setI : Bool) (hv : ¬ Port vector) :
    let f := ((((s.memWrite (s.sp - 1#8) returnPc).memWrite (s.sp - 2#8) s.y).memWrite (s.sp - 3#8)
      s.x).memWrite (s.sp - 4#8) s.a).memWrite (s.sp - 5#8) (s.cc.toByte (Config.ccHi s.ccReads))
    s.enter vector returnPc setI = { f with
      sp := s.sp - 5#8, ccReads := s.ccReads + 1, pc := f.byteAt vector
      cc := { s.cc with i := s.cc.i || setI } } := by
  have f1 : s.sp - 1#8 - 1#8 = s.sp - 2#8 := by rw [BitVec.sub_sub]; rfl
  have f2 : s.sp - 2#8 - 1#8 = s.sp - 3#8 := by rw [BitVec.sub_sub]; rfl
  have f3 : s.sp - 3#8 - 1#8 = s.sp - 4#8 := by rw [BitVec.sub_sub]; rfl
  have f4 : s.sp - 4#8 - 1#8 = s.sp - 5#8 := by rw [BitVec.sub_sub]; rfl
  simp only [State.enter]
  rw [push_eq_memWrite s]
  rw [push_registers (s.memWrite _ _)]
  simp only [f1, memWrite_y]
  rw [push_registers (State.memWrite _ _ _)]
  simp only [f2, memWrite_x]
  rw [push_registers (State.memWrite _ _ _)]
  simp only [f3, memWrite_a, State.ccRead, memWrite_cc, memWrite_ccReads]
  rw [push_registers (State.memWrite _ _ _)]
  simp only [f4]
  rw [memRead_storage hv]
  rfl

theorem enter_inv {s : State} (vector returnPc : Byte) (setI : Bool) (h : MemoryInv s) :
    MemoryInv (s.enter vector returnPc setI) := by
  have h1 := push_inv s.a (push_inv s.x (push_inv s.y (push_inv returnPc h)))
  generalize hq : (((s.push returnPc).push s.y).push s.x).push s.a = q at h1
  have h2 : MemoryInv (q.ccRead.2.push q.ccRead.1) := push_inv q.ccRead.1 (s := q.ccRead.2) h1
  simp only [State.enter, hq]
  generalize q.ccRead.2.push q.ccRead.1 = r at h2
  exact memRead_inv (s := { r with cc := { r.cc with i := r.cc.i || setI } }) vector h2

theorem returnFromException_inv {s : State} (h : MemoryInv s) : MemoryInv s.returnFromException := by
  simp only [State.returnFromException]
  have h1 := pull_inv h
  generalize s.pull = p1 at h1
  have h2 := pull_inv (s := p1.2.ccWrite p1.1) h1
  generalize (p1.2.ccWrite p1.1).pull = p2 at h2
  have h3 := pull_inv (s := { p2.2 with a := p2.1 }) h2
  generalize { p2.2 with a := p2.1 }.pull = p3 at h3
  have h4 := pull_inv (s := { p3.2 with x := p3.1 }) h3
  generalize { p3.2 with x := p3.1 }.pull = p4 at h4
  exact pull_inv (s := { p4.2 with y := p4.1 }) h4

theorem resetSequence_inv {s : State} (h : MemoryInv s) : MemoryInv s.resetSequence := (inv_congr rfl rfl).2 h

end Sys2Proof.Laws
end

