-- ==== Sys2Proof/Laws/Operands.lean ====
section
/-! SUPPORT. The operand forms: for each one what it does to every field, and what it does to memory and
ports. -/

namespace Sys2Proof.Laws

open Sys2Proof.Machine Sys2Proof.Safety

/-! ### The effective address -/

@[simp] theorem ea_snd_a (s : State) (m : AddrMode) : (s.ea m).2.a = s.a := by cases m <;> rfl
@[simp] theorem ea_snd_sp (s : State) (m : AddrMode) : (s.ea m).2.sp = s.sp := by cases m <;> rfl
@[simp] theorem ea_snd_pc (s : State) (m : AddrMode) : (s.ea m).2.pc = s.pc := by cases m <;> rfl
@[simp] theorem ea_snd_cc (s : State) (m : AddrMode) : (s.ea m).2.cc = s.cc := by cases m <;> rfl
@[simp] theorem ea_snd_mem (s : State) (m : AddrMode) : (s.ea m).2.mem = s.mem := by cases m <;> rfl
@[simp] theorem ea_snd_phase (s : State) (m : AddrMode) : (s.ea m).2.phase = s.phase := by cases m <;> rfl
@[simp] theorem ea_snd_inputs (s : State) (m : AddrMode) : (s.ea m).2.inputs = s.inputs := by cases m <;> rfl
@[simp] theorem ea_snd_portIn (s : State) (m : AddrMode) : (s.ea m).2.portIn = s.portIn := by cases m <;> rfl
@[simp] theorem ea_snd_ports (s : State) (m : AddrMode) : (s.ea m).2.ports = s.ports := by cases m <;> rfl
@[simp] theorem ea_snd_readOnly (s : State) (m : AddrMode) :
    (s.ea m).2.readOnly = s.readOnly := by cases m <;> rfl
@[simp] theorem ea_snd_boundary (s : State) (m : AddrMode) :
    (s.ea m).2.boundary = s.boundary := by cases m <;> rfl
@[simp] theorem ea_snd_ccReads (s : State) (m : AddrMode) :
    (s.ea m).2.ccReads = s.ccReads := by cases m <;> rfl
@[simp] theorem ea_snd_cycles (s : State) (m : AddrMode) : (s.ea m).2.cycles = s.cycles := by cases m <;> rfl
@[simp] theorem ea_snd_hidden (s : State) (m : AddrMode) : (s.ea m).2.hidden = s.hidden := by cases m <;> rfl

theorem ea_snd_x {s : State} {m : AddrMode} (h : stepsX m = false) : (s.ea m).2.x = s.x := by
  cases m <;> first | rfl | cases h

theorem ea_snd_y {s : State} {m : AddrMode} (h : stepsY m = false) : (s.ea m).2.y = s.y := by
  cases m <;> first | rfl | cases h

/-- The modes of the memory groups change no register. -/
theorem ea_snd_of_isUnary {s : State} {m : AddrMode} (h : m.isUnary = true) : (s.ea m).2 = s := by
  cases m <;> first | rfl | cases h

theorem ea_snd_of_isJump {s : State} {m : AddrMode} (h : m.isJump = true) : (s.ea m).2 = s := by
  cases m <;> first | rfl | cases h

@[simp] theorem ea_snd_byteAt (s : State) (m : AddrMode) (b : Byte) :
    (s.ea m).2.byteAt b = s.byteAt b := byteAt_congr (ea_snd_mem s m) b

theorem ea_inv {s : State} (m : AddrMode) (h : MemoryInv s) : MemoryInv (s.ea m).2 :=
  (inv_congr (ea_snd_mem s m) (ea_snd_ports s m)).2 h

/-! ### The operand -/

@[simp] theorem operand_snd_a (s : State) (o : Operand) :
    (s.operand o).2.a = s.a := by
  cases o <;> simp [State.operand]
@[simp] theorem operand_snd_sp (s : State) (o : Operand) :
    (s.operand o).2.sp = s.sp := by
  cases o <;> simp [State.operand]
@[simp] theorem operand_snd_pc (s : State) (o : Operand) :
    (s.operand o).2.pc = s.pc := by
  cases o <;> simp [State.operand]
@[simp] theorem operand_snd_cc (s : State) (o : Operand) :
    (s.operand o).2.cc = s.cc := by
  cases o <;> simp [State.operand]
@[simp] theorem operand_snd_mem (s : State) (o : Operand) :
    (s.operand o).2.mem = s.mem := by
  cases o <;> simp [State.operand]
@[simp] theorem operand_snd_phase (s : State) (o : Operand) :
    (s.operand o).2.phase = s.phase := by
  cases o <;> simp [State.operand]
@[simp] theorem operand_snd_inputs (s : State) (o : Operand) :
    (s.operand o).2.inputs = s.inputs := by
  cases o <;> simp [State.operand]
@[simp] theorem operand_snd_readOnly (s : State) (o : Operand) :
    (s.operand o).2.readOnly = s.readOnly := by
  cases o <;> simp [State.operand]
@[simp] theorem operand_snd_boundary (s : State) (o : Operand) :
    (s.operand o).2.boundary = s.boundary := by
  cases o <;> simp [State.operand]
@[simp] theorem operand_snd_ccReads (s : State) (o : Operand) :
    (s.operand o).2.ccReads = s.ccReads := by
  cases o <;> simp [State.operand]
@[simp] theorem operand_snd_cycles (s : State) (o : Operand) :
    (s.operand o).2.cycles = s.cycles := by
  cases o <;> simp [State.operand]
@[simp] theorem operand_snd_hidden (s : State) (o : Operand) :
    (s.operand o).2.hidden = s.hidden := by
  cases o <;> simp [State.operand]

@[simp] theorem operand_snd_byteAt (s : State) (o : Operand) (b : Byte) :
    (s.operand o).2.byteAt b = s.byteAt b := byteAt_congr (operand_snd_mem s o) b

/-- The operands of the two-operand group change no X and no Y. -/
theorem operand_snd_xy_of_isBinary {s : State} {o : Operand} (h : o.isBinary = true) :
    (s.operand o).2.x = s.x ∧ (s.operand o).2.y = s.y := by
  cases o with
  | im d => exact ⟨rfl, rfl⟩
  | mem m => cases m <;> first | (simp [State.operand, State.ea]; done) | exact absurd h (by decide)

theorem isBinary_of_isCmpXY {o : Operand} (h : o.isCmpXY = true) : o.isBinary = true := by
  cases o with
  | im d => rfl
  | mem m => cases m <;> first | rfl | cases h

theorem isBinary_of_isCmpSP {o : Operand} (h : o.isCmpSP = true) : o.isBinary = true := by
  cases o with
  | im d => rfl
  | mem m => cases m <;> first | rfl | cases h

theorem operand_inv {s : State} (o : Operand) (h : MemoryInv s) : MemoryInv (s.operand o).2 := by
  cases o with
  | im d => exact h
  | mem m => exact memRead_inv _ (ea_inv m h)

/-! ### Stores, read-modify-write forms and branches -/

/-- All a store does. -/
theorem storeAt_wrote (s : State) (m : AddrMode) (v : Byte) :
    Wrote s (s.storeAt m v) (s.ea m).1 v :=
  let h := memWrite_wrote (s.ea m).2 (s.ea m).1 v
  ⟨fun p => ⟨by simpa [State.storeAt] using (h.output p).1, fun b => by simpa [State.storeAt] using (h.output p).2 b⟩,
    fun p => by simpa [State.storeAt] using h.quiet p,
    fun p => h.stored (by simpa [Stores] using p),
    fun p => by simpa [State.storeAt] using h.dropped (by simpa using p),
    fun b p => by simpa [State.storeAt] using h.others b p⟩

/-- A store touches memory, trace and the mode's register only. -/
theorem storeAt_eq (s : State) (m : AddrMode) (v : Byte) :
    s.storeAt m v =
      { (s.ea m).2 with mem := (s.storeAt m v).mem, ports := (s.storeAt m v).ports } :=
  memWrite_eq (s.ea m).2 (s.ea m).1 v

theorem storeAt_inv {s : State} (m : AddrMode) (v : Byte) (h : MemoryInv s) : MemoryInv (s.storeAt m v) :=
  memWrite_inv _ v (ea_inv m h)

/-- All a read-modify-write form does to memory and ports, after its read. -/
theorem modify_wrote (s : State) (m : AddrMode) (f : Byte → CC → Byte) (g : Byte → CC → CC) :
    Wrote ((s.ea m).2.memRead (s.ea m).1).2 (s.modify m f g) (s.ea m).1
      (f ((s.ea m).2.memRead (s.ea m).1).1 s.cc) := by
  have h := memWrite_wrote ((s.ea m).2.memRead (s.ea m).1).2 (s.ea m).1
    (f ((s.ea m).2.memRead (s.ea m).1).1 s.cc)
  have hm : (s.modify m f g).mem = (((s.ea m).2.memRead (s.ea m).1).2.memWrite (s.ea m).1
      (f ((s.ea m).2.memRead (s.ea m).1).1 s.cc)).mem := by simp [State.modify]
  have hp : (s.modify m f g).ports = (((s.ea m).2.memRead (s.ea m).1).2.memWrite (s.ea m).1
      (f ((s.ea m).2.memRead (s.ea m).1).1 s.cc)).ports := by simp [State.modify]
  exact ⟨fun p => ⟨hp ▸ (h.output p).1, fun b => (byteAt_congr hm b).trans ((h.output p).2 b)⟩,
    fun p => hp ▸ h.quiet p, fun p => (byteAt_congr hm _).trans (h.stored p),
    fun p => (byteAt_congr hm _).trans (h.dropped p), fun b p => (byteAt_congr hm b).trans (h.others b p)⟩

/-- A read-modify-write form touches memory, trace and CC only, after its read. -/
theorem modify_eq (s : State) (m : AddrMode) (f : Byte → CC → Byte) (g : Byte → CC → CC) :
    s.modify m f g =
      { ((s.ea m).2.memRead (s.ea m).1).2 with
        mem := (s.modify m f g).mem, ports := (s.modify m f g).ports
        cc := g ((s.ea m).2.memRead (s.ea m).1).1 s.cc } := by
  simp only [State.modify, memRead_snd_cc, ea_snd_cc]
  rw [memWrite_eq]

theorem modify_inv {s : State} (m : AddrMode) (f : Byte → CC → Byte) (g : Byte → CC → CC) (h : MemoryInv s) :
    MemoryInv (s.modify m f g) :=
  (inv_congr rfl rfl).2 (memWrite_inv _ _ (memRead_inv _ (ea_inv m h)))

/-- A branch changes PC only. -/
theorem branch_eq (s : State) (taken : Bool) (off : Byte) :
    s.branch taken off = { s with pc := if taken then s.pc + off else s.pc } := by
  cases taken <;> rfl

end Sys2Proof.Laws
end

