-- ==== Sys2Proof/Laws/Fetch.lean ====
section
/-! SUPPORT. The boundary, the fetch and the step: what each of the three kinds of step is. -/

namespace Sys2Proof.Laws

open Sys2Proof.Machine Sys2Proof.Safety

/-- While reset is in progress, the step is the reset sequence. -/
theorem step_of_vectorFetch {s : State} (h : s.phase = .vectorFetch) :
    step s = .next s.countStep.resetSequence := by
  simp [step, h]

/-- Passing a boundary touches nothing that a read uses or changes. -/
theorem memRead_passBoundary (s : State) (adr : Byte) :
    s.passBoundary.memRead adr = ((s.memRead adr).1, (s.memRead adr).2.passBoundary) := by
  unfold State.memRead; split <;> rfl

/-- Passing a boundary touches nothing that a write uses or changes. -/
theorem memWrite_passBoundary (s : State) (adr v : Byte) :
    s.passBoundary.memWrite adr v = (s.memWrite adr v).passBoundary := by
  by_cases hp : Port adr
  · rw [memWrite_port v hp, memWrite_port v hp]; rfl
  · by_cases hw : adr ∈ s.readOnly
    · rw [memWrite_denied v hp hw, memWrite_denied (s := s.passBoundary) v hp hw]
    · rw [memWrite_stores v ⟨hp, hw⟩, memWrite_stores (s := s.passBoundary) v ⟨hp, hw⟩]; rfl

/-- Reset at a boundary. -/
theorem step_of_resetActive {s : State} (h : s.phase = .newFetch) (hr : s.resetActive = true) :
    step s = .next s.passBoundary.resetSequence := by
  simp [step, h, hr]

/-- An interrupt accepted at a boundary. -/
theorem step_of_irqAccepted {s : State} (h : s.phase = .newFetch) (hr : s.resetActive = false)
    (hi : s.irqAccepted = true) : step s = .next s.passBoundary.irqEntry := by
  simp [step, h, hr, hi]

/-- What the sampled inputs decide at a boundary. -/
theorem boundaryInputs_of_samples {s : State} {reset irq : Bool} (h : Samples s reset irq) :
    s.boundaryInputs = ⟨reset, irq⟩ := by
  rcases h with ⟨l, h⟩ | ⟨h, rfl, rfl⟩ <;> simp [State.boundaryInputs, h]

/-- A boundary at which an instruction is fetched. -/
theorem fetches_iff (s : State) :
    Fetches s ↔ s.phase = .newFetch ∧ s.resetActive = false ∧ s.irqAccepted = false := by
  constructor
  · rintro ⟨hp, irq, h, hi⟩
    have e := boundaryInputs_of_samples h
    rcases hi with rfl | hi <;> simp [State.resetActive, State.irqAccepted, *]
  · rintro ⟨hp, hr, hi⟩
    refine ⟨hp, s.boundaryInputs.irq, ?_, ?_⟩
    · unfold State.resetActive at hr
      cases hl : s.inputs with
      | nil => exact .inr ⟨hl, rfl, by simp [State.boundaryInputs, hl]⟩
      | cons b l =>
        have hb : s.boundaryInputs = b := by simp [State.boundaryInputs, hl]
        exact .inl ⟨l, by rw [hl, hb, ← hb, ← hr]⟩
    · cases hc : s.cc.i
      · simpa [State.irqAccepted, hc] using hi
      · exact .inr rfl

/-- An instruction. -/
theorem step_of_instruction {s : State} (h : s.phase = .newFetch) (hr : s.resetActive = false)
    (hi : s.irqAccepted = false) :
    step s = exec s.passBoundary.fetchInstr.1 s.passBoundary.fetchInstr.2 := by
  simp [step, h, hr, hi]

/-- The fetch keeps the invariant. -/
theorem fetchInstr_inv {s : State} (h : MemoryInv s) : MemoryInv s.fetchInstr.2 := by
  unfold State.fetchInstr
  simp only
  split
  · exact (inv_congr rfl rfl).2 (fetch8_inv h)
  · exact (inv_congr rfl rfl).2 (fetch8_inv (fetch8_inv h))

@[simp] theorem fetchInstr_snd_a (s : State) :
    s.fetchInstr.2.a = s.a := by
  unfold State.fetchInstr; simp only; split <;> simp
@[simp] theorem fetchInstr_snd_x (s : State) :
    s.fetchInstr.2.x = s.x := by
  unfold State.fetchInstr; simp only; split <;> simp
@[simp] theorem fetchInstr_snd_y (s : State) :
    s.fetchInstr.2.y = s.y := by
  unfold State.fetchInstr; simp only; split <;> simp
@[simp] theorem fetchInstr_snd_sp (s : State) :
    s.fetchInstr.2.sp = s.sp := by
  unfold State.fetchInstr; simp only; split <;> simp
@[simp] theorem fetchInstr_snd_cc (s : State) :
    s.fetchInstr.2.cc = s.cc := by
  unfold State.fetchInstr; simp only; split <;> simp
@[simp] theorem fetchInstr_snd_mem (s : State) :
    s.fetchInstr.2.mem = s.mem := by
  unfold State.fetchInstr; simp only; split <;> simp
@[simp] theorem fetchInstr_snd_phase (s : State) :
    s.fetchInstr.2.phase = s.phase := by
  unfold State.fetchInstr; simp only; split <;> simp
@[simp] theorem fetchInstr_snd_inputs (s : State) :
    s.fetchInstr.2.inputs = s.inputs := by
  unfold State.fetchInstr; simp only; split <;> simp
@[simp] theorem fetchInstr_snd_readOnly (s : State) :
    s.fetchInstr.2.readOnly = s.readOnly := by
  unfold State.fetchInstr; simp only; split <;> simp
@[simp] theorem fetchInstr_snd_boundary (s : State) :
    s.fetchInstr.2.boundary = s.boundary := by
  unfold State.fetchInstr; simp only; split <;> simp
@[simp] theorem fetchInstr_snd_ccReads (s : State) :
    s.fetchInstr.2.ccReads = s.ccReads := by
  unfold State.fetchInstr; simp only; split <;> simp

/-- The fetch changes no byte of memory. -/
@[simp] theorem fetchInstr_snd_byteAt (s : State) (b : Byte) :
    s.fetchInstr.2.byteAt b = s.byteAt b := byteAt_congr (fetchInstr_snd_mem s) b

/-- An interrupt entry's fields follow from `enter`'s: only the cycle counter differs. -/
theorem irqEntry_eq (s : State) :
    s.irqEntry = { s.enter Config.irqVector s.pc true with cycles := s.cycles + Config.irqCycles } := rfl

/-- An interrupt entry keeps the invariant. -/
theorem irqEntry_inv {s : State} (h : MemoryInv s) : MemoryInv s.irqEntry := by
  have h1 := enter_inv Config.irqVector s.pc true h
  rw [irqEntry_eq]
  generalize s.enter Config.irqVector s.pc true = t at h1
  exact (inv_congr (s := t) rfl rfl).2 h1

/-- Passing a boundary keeps the invariant. -/
theorem passBoundary_inv {s : State} (h : MemoryInv s) : MemoryInv s.passBoundary :=
  (inv_congr (s := s) rfl rfl).2 h

/-- Counting a step keeps the invariant. -/
theorem countStep_inv {s : State} (h : MemoryInv s) : MemoryInv s.countStep :=
  (inv_congr (s := s) rfl rfl).2 h

end Sys2Proof.Laws
end

