-- ==== Sys2Proof/Laws/ControlUnit.lean ====
section
/-! SUPPORT. What the operations of Part 2's data path can do: what a clock pulse reads and writes, and what
the control unit starts at a boundary. -/

namespace Sys2Proof.Laws

open Sys2Proof.Machine

@[simp] theorem withDatapath_mem (s : State) (p : Datapath) : (s.withDatapath p).mem = s.mem := rfl
@[simp] theorem withDatapath_ports (s : State) (p : Datapath) : (s.withDatapath p).ports = s.ports := rfl
@[simp] theorem withDatapath_readOnly (s : State) (p : Datapath) : (s.withDatapath p).readOnly = s.readOnly := rfl
@[simp] theorem withDatapath_datapath (s : State) (p : Datapath) : (s.withDatapath p).datapath = p := rfl

/-- The selectors of N, Z, V and C. -/
theorem selectFlag_eq (fromAlu fromBus old : Bool) :
    selectFlag 0#2 fromAlu fromBus old = fromAlu ∧ selectFlag 1#2 fromAlu fromBus old = fromBus ∧
      selectFlag 2#2 fromAlu fromBus old = false ∧ selectFlag 3#2 fromAlu fromBus old = old :=
  ⟨rfl, rfl, rfl, rfl⟩

/-- `LD_CC` without another load or count changes CC alone. -/
theorem clock_signals (p : Datapath) (u : AluUse) (bus intoR intoTA d e : Byte) :
    p.clock u.signals bus intoR intoTA d e =
      { p with
        cc := selectCC u.gI u.gN u.gZ u.gV u.gC (flagsToCC u.f (alu u.f d e (selectCarryIn u.gCin p.cc.c))) bus
          p.cc } := rfl

/-- Without `MR` the bus has the output enables' bytes only, and nothing but the count of CC's reads changes. -/
theorem drive_of_no_read (s : State) (g : ControlSignals) (h : g.mr = false) :
    s.drive g =
      (s.datapath.driven g (Config.ccHi s.ccReads),
        { s with ccReads := if g.oeCC then s.ccReads + 1 else s.ccReads }) := by
  unfold State.drive
  rw [h]
  cases g.oeCC <;> rfl

/-- A pulse with neither `MR` nor `MW` leaves the memory and the ports alone. -/
theorem clockPulse_of_no_access (s : State) (g : ControlSignals) (floating intoR intoTA d e : Byte)
    (hr : g.mr = false) (hw : g.mw = false) :
    (s.clockPulse g floating intoR intoTA d e).mem = s.mem ∧
      (s.clockPulse g floating intoR intoTA d e).ports = s.ports := by
  simp [State.clockPulse, hw, drive_of_no_read s g hr]

/-- A pulse with `MW` is the register pulse and then `MemWrite` of the bus byte. -/
theorem clockPulse_of_write (s : State) (g : ControlSignals) (floating intoR intoTA d e : Byte)
    (hw : g.mw = true) :
    s.clockPulse g floating intoR intoTA d e =
      ((s.drive g).2.withDatapath
        (s.datapath.clock g (busByte (s.drive g).1 floating) intoR intoTA d e)).memWrite
        (s.datapath.address g) (busByte (s.drive g).1 floating) := by
  simp [State.clockPulse, hw]

/-- What `step` does at a boundary is what the control unit starts there when NF is active. -/
theorem step_of_start (s : State) (q : QState) (g : ControlSignals) (h : s.phase = .newFetch) (hg : g.nf = true) :
    step s =
      match (s.controlInputs q s.boundaryInputs).start g s.cc.i with
      | some .resetSequence => .next s.passBoundary.resetSequence
      | some .interruptEntry => .next s.passBoundary.irqEntry
      | some .fetchPhase => exec s.passBoundary.fetchInstr.1 s.passBoundary.fetchInstr.2
      | none => .next s := by
  rcases hb : s.boundaryInputs with ⟨r, irq⟩
  cases r <;> cases irq <;> cases hi : s.cc.i <;>
    simp [step, h, hg, hb, hi, ControlInputs.start, State.controlInputs, State.resetActive, State.irqAccepted]

end Sys2Proof.Laws
end

