-- ==== Sys2Proof/Laws/Flags.lean ====
section
/-! SUPPORT. The flag arithmetic: the parts of each primitive's result, and CC as a byte. -/

namespace Sys2Proof.Laws

open Sys2Proof.Machine

theorem add8_r (a b : Byte) (cin : Bool) :
    (add8 a b cin).r = BitVec.ofNat 8 (a.toNat + b.toNat + cin.toNat) := rfl

theorem add8_n (a b : Byte) (cin : Bool) : (add8 a b cin).n = (add8 a b cin).r.sign := rfl

theorem add8_z (a b : Byte) (cin : Bool) : (add8 a b cin).z = ((add8 a b cin).r == 0#8) := rfl

/-- C is the ninth bit of the sum. -/
theorem add8_c (a b : Byte) (cin : Bool) :
    (add8 a b cin).c = true ↔ 256 ≤ a.toNat + b.toNat + cin.toNat := by
  simp [add8]

/-- The sum as a bit vector. -/
theorem add8_r_eq_add (a b : Byte) (cin : Bool) :
    (add8 a b cin).r = a + b + BitVec.setWidth 8 (BitVec.ofBool cin) := by
  apply BitVec.eq_of_toNat_eq
  cases cin <;> simp [add8, BitVec.toNat_add]

theorem sub8_r (a b : Byte) (bin : Bool) : (sub8 a b bin).r = (add8 a (~~~b) (!bin)).r := rfl

theorem sub8_n (a b : Byte) (bin : Bool) : (sub8 a b bin).n = (sub8 a b bin).r.sign := rfl

theorem sub8_z (a b : Byte) (bin : Bool) : (sub8 a b bin).z = ((sub8 a b bin).r == 0#8) := rfl

/-- C is the borrow. -/
theorem sub8_c (a b : Byte) (bin : Bool) :
    (sub8 a b bin).c = true ↔ a.toNat < b.toNat + bin.toNat := by
  have hb := b.isLt
  have hx : (~~~b).toNat = 255 - b.toNat := by rw [BitVec.toNat_not]
  cases bin <;> (simp [sub8, add8, hx]; try omega)

/-- The sign bit as a bound. -/
theorem sign_iff (v : Byte) : v.sign = true ↔ 128 ≤ v.toNat := by
  revert v
  decide

/-- Writing back what was read restores the flags. -/
@[simp] theorem ofByte_toByte (cc : CC) (hi : BitVec 3) : CC.ofByte (cc.toByte hi) = cc := by
  obtain ⟨i, n, z, v, c⟩ := cc
  revert hi i n z v c
  decide

end Sys2Proof.Laws
end

