-- ==== Sys2Proof/Laws/PerInstr.lean ====
section
/-! SUPPORT. Per instruction: the encoder writes as many bytes as the instruction's mode gives it (`30_encoding.md`
R51). -/

namespace Sys2Proof.Laws

theorem encodeUnary_length (row : Byte) {m : AddrMode} (h : m.isUnary = true) :
    (encodeUnary row m).length = 1 + m.operandBytes := by
  cases m <;> first | rfl | exact absurd h (by decide)

theorem encodeJump_length (row : Byte) {m : AddrMode} (h : m.isJump = true) :
    (encodeJump row m).length = 1 + m.operandBytes := by
  cases m <;> first | rfl | exact absurd h (by decide) | exact absurd h Bool.false_ne_true

theorem encodeBinary_length (row : Byte) {o : Operand} (h : o.isBinary = true) :
    (encodeBinary row o).length = 1 + o.operandBytes := by
  cases o with
  | im d => rfl
  | mem m => cases m <;> first | rfl | exact absurd h (by decide)

theorem encodeCmpXY_length (row : Byte) {o : Operand} (h : o.isCmpXY = true) :
    (encodeCmpXY row o).length = 1 + o.operandBytes := by
  rw [encodeCmpXY, if_pos h]
  cases o with
  | im d => rfl
  | mem m => cases m <;> first | rfl | exact absurd h (by decide)

theorem encodeCmpSP_length {o : Operand} (h : o.isCmpSP = true) :
    (encodeCmpSP o).length = 1 + o.operandBytes := by
  rw [encodeCmpSP, if_pos h]
  cases o with
  | im d => rfl
  | mem m => cases m <;> first | rfl | exact absurd h (by decide)

theorem encodeAcc_length (column : Byte) (m : AddrMode) :
    (encodeAcc column m).length = 1 + m.operandBytes := by
  cases m <;> rfl

end Sys2Proof.Laws

namespace Sys2Proof.Laws.EncodedLength

/-- A well-formed instruction is encoded in as many bytes as its length says. -/
def Statement (i : Instr) : Prop :=
  i.wf = true → (encode i).length = i.length

theorem lda (o : Operand) : Statement (.lda o) := fun _ => by
  cases o with
  | im d => rfl
  | mem m => exact encodeAcc_length _ m
theorem ldx (o : Operand) : Statement (.ldx o) := fun h => encodeBinary_length _ h
theorem ldy (o : Operand) : Statement (.ldy o) := fun h => encodeBinary_length _ h
theorem ldsp (o : Operand) : Statement (.ldsp o) := fun h => encodeBinary_length _ h
theorem leax (m : AddrMode) : Statement (.leax m) := fun h => by
  cases m <;> first | rfl | exact absurd h Bool.false_ne_true
theorem leay (m : AddrMode) : Statement (.leay m) := fun h => by
  cases m <;> first | rfl | exact absurd h Bool.false_ne_true
theorem leasp (m : AddrMode) : Statement (.leasp m) := fun h => by
  cases m <;> first | rfl | exact absurd h Bool.false_ne_true
theorem sta (m : AddrMode) : Statement (.sta m) := fun _ => encodeAcc_length _ m
theorem stx (m : AddrMode) : Statement (.stx m) := fun h => encodeUnary_length _ h
theorem sty (m : AddrMode) : Statement (.sty m) := fun h => encodeUnary_length _ h
theorem stsp (m : AddrMode) : Statement (.stsp m) := fun h => encodeUnary_length _ h
theorem tfrAcc : Statement .tfrAcc := fun _ => rfl
theorem tfrCcA : Statement .tfrCcA := fun _ => rfl
theorem tfrXY : Statement .tfrXY := fun _ => rfl
theorem tfrYX : Statement .tfrYX := fun _ => rfl
theorem tfrXSp : Statement .tfrXSp := fun _ => rfl
theorem tfrSpX : Statement .tfrSpX := fun _ => rfl
theorem tfrYSp : Statement .tfrYSp := fun _ => rfl
theorem tfrSpY : Statement .tfrSpY := fun _ => rfl
theorem exgAcc : Statement .exgAcc := fun _ => rfl
theorem exgXY : Statement .exgXY := fun _ => rfl
theorem exgXSp : Statement .exgXSp := fun _ => rfl
theorem exgYSp : Statement .exgYSp := fun _ => rfl
theorem jmp (m : AddrMode) : Statement (.jmp m) := fun h => encodeJump_length _ h
theorem jsr (m : AddrMode) : Statement (.jsr m) := fun h => encodeJump_length _ h
theorem bsr (off : Byte) : Statement (.bsr off) := fun _ => rfl
theorem bra (off : Byte) : Statement (.bra off) := fun _ => rfl
theorem bmi (off : Byte) : Statement (.bmi off) := fun _ => rfl
theorem bpl (off : Byte) : Statement (.bpl off) := fun _ => rfl
theorem beq (off : Byte) : Statement (.beq off) := fun _ => rfl
theorem bne (off : Byte) : Statement (.bne off) := fun _ => rfl
theorem bvs (off : Byte) : Statement (.bvs off) := fun _ => rfl
theorem bvc (off : Byte) : Statement (.bvc off) := fun _ => rfl
theorem bcs (off : Byte) : Statement (.bcs off) := fun _ => rfl
theorem bcc (off : Byte) : Statement (.bcc off) := fun _ => rfl
theorem bhi (off : Byte) : Statement (.bhi off) := fun _ => rfl
theorem bls (off : Byte) : Statement (.bls off) := fun _ => rfl
theorem bgt (off : Byte) : Statement (.bgt off) := fun _ => rfl
theorem bge (off : Byte) : Statement (.bge off) := fun _ => rfl
theorem ble (off : Byte) : Statement (.ble off) := fun _ => rfl
theorem blt (off : Byte) : Statement (.blt off) := fun _ => rfl
theorem rts : Statement .rts := fun _ => rfl
theorem rti : Statement .rti := fun _ => rfl
theorem adda (o : Operand) : Statement (.adda o) := fun h => encodeBinary_length _ h
theorem adca (o : Operand) : Statement (.adca o) := fun h => encodeBinary_length _ h
theorem suba (o : Operand) : Statement (.suba o) := fun h => encodeBinary_length _ h
theorem sbca (o : Operand) : Statement (.sbca o) := fun h => encodeBinary_length _ h
theorem clra : Statement .clra := fun _ => rfl
theorem clr (m : AddrMode) : Statement (.clr m) := fun h => encodeUnary_length _ h
theorem nega : Statement .nega := fun _ => rfl
theorem neg (m : AddrMode) : Statement (.neg m) := fun h => encodeUnary_length _ h
theorem deca : Statement .deca := fun _ => rfl
theorem dec (m : AddrMode) : Statement (.dec m) := fun h => encodeUnary_length _ h
theorem inca : Statement .inca := fun _ => rfl
theorem inc (m : AddrMode) : Statement (.inc m) := fun h => encodeUnary_length _ h
theorem cmpa (o : Operand) : Statement (.cmpa o) := fun h => encodeBinary_length _ h
theorem cmpx (o : Operand) : Statement (.cmpx o) := fun h => encodeCmpXY_length _ h
theorem cmpy (o : Operand) : Statement (.cmpy o) := fun h => encodeCmpXY_length _ h
theorem cmpsp (o : Operand) : Statement (.cmpsp o) := fun h => encodeCmpSP_length h
theorem bita (o : Operand) : Statement (.bita o) := fun h => encodeBinary_length _ h
theorem tsta : Statement .tsta := fun _ => rfl
theorem tst (m : AddrMode) : Statement (.tst m) := fun h => encodeUnary_length _ h
theorem anda (o : Operand) : Statement (.anda o) := fun h => encodeBinary_length _ h
theorem ora (o : Operand) : Statement (.ora o) := fun h => encodeBinary_length _ h
theorem eora (o : Operand) : Statement (.eora o) := fun h => encodeBinary_length _ h
theorem andcc (data : Byte) : Statement (.andcc data) := fun _ => rfl
theorem orcc (data : Byte) : Statement (.orcc data) := fun _ => rfl
theorem coma : Statement .coma := fun _ => rfl
theorem com (m : AddrMode) : Statement (.com m) := fun h => encodeUnary_length _ h
theorem lsla : Statement .lsla := fun _ => rfl
theorem lsl (m : AddrMode) : Statement (.lsl m) := fun h => encodeUnary_length _ h
theorem lsra : Statement .lsra := fun _ => rfl
theorem lsr (m : AddrMode) : Statement (.lsr m) := fun h => encodeUnary_length _ h
theorem asra : Statement .asra := fun _ => rfl
theorem asr (m : AddrMode) : Statement (.asr m) := fun h => encodeUnary_length _ h
theorem rola : Statement .rola := fun _ => rfl
theorem rol (m : AddrMode) : Statement (.rol m) := fun h => encodeUnary_length _ h
theorem rora : Statement .rora := fun _ => rfl
theorem ror (m : AddrMode) : Statement (.ror m) := fun h => encodeUnary_length _ h
theorem psha : Statement .psha := fun _ => rfl
theorem pshx : Statement .pshx := fun _ => rfl
theorem pshy : Statement .pshy := fun _ => rfl
theorem pshcc : Statement .pshcc := fun _ => rfl
theorem pula : Statement .pula := fun _ => rfl
theorem pulx : Statement .pulx := fun _ => rfl
theorem puly : Statement .puly := fun _ => rfl
theorem pulcc : Statement .pulcc := fun _ => rfl
theorem nop : Statement .nop := fun _ => rfl
theorem notImplemented (op : Byte) : Statement (.notImplemented op) := fun h => by
  have h : isIllegalOpcode op = true := h
  simp [encode, h, Instr.length]

end Sys2Proof.Laws.EncodedLength
end

