-- ==== Sys2Proof/Tests/Slice0.lean ====
section
/-! SUPPORT. The model's own tests. Expected results are from outside the model: the opcode map (`30_encoding.md`
R52) for the decoder, the vectors of `95_test_vectors.md` section 2 for the steps, section 3 for the
assembler. After them, for each statement with hypotheses, a state and operands that meet them all. -/

namespace Sys2Proof.Tests

open Sys2Proof.Machine Sys2Proof.Safety

/-! ### Well-formedness: an ill-formed term for each check -/

theorem test_wf_unary : (Instr.stx .xPostInc).wf = false ∧ (Instr.tst .yPreDec).wf = false := by decide
theorem test_wf_jump : (Instr.jmp (.ns 0x01#8)).wf = false ∧ (Instr.jsr .xPreInc).wf = false := by decide
theorem test_wf_binary : (Instr.adda (.mem .ax)).wf = false ∧ (Instr.ldx (.mem .yPostInc)).wf = false := by
  decide
theorem test_wf_cmpXY :
    (Instr.cmpx (.mem (.nx 0x01#8))).wf = false ∧ (Instr.cmpy (.mem (.ny 0x01#8))).wf = false := by decide
theorem test_wf_cmpSP : (Instr.cmpsp (.mem (.ns 0x01#8))).wf = false := by decide
theorem test_wf_leaX : (Instr.leax (.ny 0x01#8)).wf = false := by decide
theorem test_wf_leaY : (Instr.leay (.nx 0x01#8)).wf = false := by decide
theorem test_wf_leaSP : (Instr.leasp (.ab 0x01#8)).wf = false := by decide
theorem test_wf_notImplemented : (Instr.notImplemented 0x00#8).wf = false := by decide

/-! ### Decoding: a word of every constructor, written from the opcode map -/

theorem test_decode_load_store :
    decodeTableWord 16 0x12F0 = some (.lda (.im 0x12#8)) ∧
      decodeTableWord 8 0xF7 = some (.lda (.mem .xPreInc)) ∧
      decodeTableWord 8 0xFC = some (.lda (.mem .yPostDec)) ∧
      decodeTableWord 16 0x02C0 = some (.ldx (.mem (.nx 0x02#8))) ∧
      decodeTableWord 16 0x0091 = some (.ldy (.im 0x00#8)) ∧
      decodeTableWord 16 0xFFB2 = some (.ldsp (.mem (.ns 0xFF#8))) ∧
      decodeTableWord 16 0x02DC = some (.leax (.ns 0x02#8)) ∧
      decodeTableWord 16 0x02CD = some (.leay (.ny 0x02#8)) ∧
      decodeTableWord 16 0x02CE = some (.leasp (.nx 0x02#8)) ∧
      decodeTableWord 8 0xE8 = some (.sta .xPreDec) ∧
      decodeTableWord 16 0x41E9 = some (.sta (.ny 0x41#8)) ∧
      decodeTableWord 8 0x80 = some (.stx .ay) ∧
      decodeTableWord 8 0x61 = some (.sty .ax) ∧
      decodeTableWord 16 0x7E52 = some (.stsp (.nx 0x7E#8)) := by
  decide

theorem test_decode_data_movement :
    decodeTableWord 8 0x18 = some .tfrAcc ∧
      decodeTableWord 8 0x19 = some .tfrCcA ∧
      decodeTableWord 8 0x1A = some .tfrXY ∧
      decodeTableWord 8 0x1B = some .tfrYX ∧
      decodeTableWord 8 0x1C = some .tfrXSp ∧
      decodeTableWord 8 0x1D = some .tfrSpX ∧
      decodeTableWord 8 0x1E = some .tfrYSp ∧
      decodeTableWord 8 0x1F = some .tfrSpY ∧
      decodeTableWord 8 0x9F = some .exgAcc ∧
      decodeTableWord 8 0xAF = some .exgXY ∧
      decodeTableWord 8 0xBF = some .exgXSp ∧
      decodeTableWord 8 0xCF = some .exgYSp := by
  decide

theorem test_decode_flow_control :
    decodeTableWord 16 0x8033 = some (.jmp (.ab 0x80#8)) ∧
      decodeTableWord 8 0x83 = some (.jmp .ay) ∧
      decodeTableWord 16 0x0454 = some (.jsr (.nx 0x04#8)) ∧
      decodeTableWord 16 0xFE20 = some (.bsr 0xFE#8) ∧
      decodeTableWord 16 0xFE21 = some (.bra 0xFE#8) ∧
      decodeTableWord 16 0x1022 = some (.bmi 0x10#8) ∧
      decodeTableWord 16 0x1023 = some (.bpl 0x10#8) ∧
      decodeTableWord 16 0x1024 = some (.beq 0x10#8) ∧
      decodeTableWord 16 0x1025 = some (.bne 0x10#8) ∧
      decodeTableWord 16 0x1026 = some (.bvs 0x10#8) ∧
      decodeTableWord 16 0x1027 = some (.bvc 0x10#8) ∧
      decodeTableWord 16 0x1028 = some (.bcs 0x10#8) ∧
      decodeTableWord 16 0x1029 = some (.bcc 0x10#8) ∧
      decodeTableWord 16 0x102A = some (.bhi 0x10#8) ∧
      decodeTableWord 16 0x102B = some (.bls 0x10#8) ∧
      decodeTableWord 16 0x102C = some (.bgt 0x10#8) ∧
      decodeTableWord 16 0x102D = some (.bge 0x10#8) ∧
      decodeTableWord 16 0x102E = some (.ble 0x10#8) ∧
      decodeTableWord 16 0x102F = some (.blt 0x10#8) ∧
      decodeTableWord 8 0x43 = some .rts ∧
      decodeTableWord 8 0x44 = some .rti := by
  decide

theorem test_decode_integer_arithmetic :
    decodeTableWord 16 0x34D6 = some (.adda (.mem (.ny 0x34#8))) ∧
      decodeTableWord 16 0x34C5 = some (.adca (.mem (.nx 0x34#8))) ∧
      decodeTableWord 16 0x34B4 = some (.suba (.mem (.ns 0x34#8))) ∧
      decodeTableWord 16 0x34A3 = some (.sbca (.mem (.ab 0x34#8))) ∧
      decodeTableWord 8 0x05 = some .clra ∧
      decodeTableWord 8 0x65 = some (.clr .ax) ∧
      decodeTableWord 8 0x06 = some .nega ∧
      decodeTableWord 16 0x4036 = some (.neg (.ab 0x40#8)) ∧
      decodeTableWord 8 0x08 = some .deca ∧
      decodeTableWord 8 0x88 = some (.dec .ay) ∧
      decodeTableWord 8 0x07 = some .inca ∧
      decodeTableWord 16 0x4047 = some (.inc (.ns 0x40#8)) := by
  decide

theorem test_decode_integer_test :
    decodeTableWord 16 0x5097 = some (.cmpa (.im 0x50#8)) ∧
      decodeTableWord 16 0x01BC = some (.cmpx (.mem (.ns 0x01#8))) ∧
      decodeTableWord 16 0x42AD = some (.cmpy (.mem (.ab 0x42#8))) ∧
      decodeTableWord 16 0x40AE = some (.cmpsp (.mem (.ab 0x40#8))) ∧
      decodeTableWord 16 0x00D8 = some (.bita (.mem (.ny 0x00#8))) ∧
      decodeTableWord 8 0x09 = some .tsta ∧
      decodeTableWord 16 0xFF59 = some (.tst (.nx 0xFF#8)) := by
  decide

theorem test_decode_logical :
    decodeTableWord 16 0x0F99 = some (.anda (.im 0x0F#8)) ∧
      decodeTableWord 16 0x40AA = some (.ora (.mem (.ab 0x40#8))) ∧
      decodeTableWord 16 0x00CB = some (.eora (.mem (.nx 0x00#8))) ∧
      decodeTableWord 16 0xEF01 = some (.andcc 0xEF#8) ∧
      decodeTableWord 16 0x1002 = some (.orcc 0x10#8) ∧
      decodeTableWord 8 0x0A = some .coma ∧
      decodeTableWord 8 0x8A = some (.com .ay) := by
  decide

theorem test_decode_shift_rotate :
    decodeTableWord 8 0x0B = some .lsla ∧
      decodeTableWord 16 0x403B = some (.lsl (.ab 0x40#8)) ∧
      decodeTableWord 8 0x0C = some .lsra ∧
      decodeTableWord 16 0x404C = some (.lsr (.ns 0x40#8)) ∧
      decodeTableWord 8 0x0F = some .asra ∧
      decodeTableWord 16 0x405F = some (.asr (.nx 0x40#8)) ∧
      decodeTableWord 8 0x0D = some .rola ∧
      decodeTableWord 16 0x407D = some (.rol (.ny 0x40#8)) ∧
      decodeTableWord 8 0x0E = some .rora ∧
      decodeTableWord 8 0x6E = some (.ror .ax) := by
  decide

theorem test_decode_stack_and_misc :
    decodeTableWord 8 0x10 = some .psha ∧
      decodeTableWord 8 0x11 = some .pshx ∧
      decodeTableWord 8 0x12 = some .pshy ∧
      decodeTableWord 8 0x13 = some .pshcc ∧
      decodeTableWord 8 0x14 = some .pula ∧
      decodeTableWord 8 0x15 = some .pulx ∧
      decodeTableWord 8 0x16 = some .puly ∧
      decodeTableWord 8 0x17 = some .pulcc ∧
      decodeTableWord 8 0x00 = some .nop ∧
      decodeTableWord 8 0x03 = some (.notImplemented 0x03#8) ∧
      decodeTableWord 8 0xDF = some (.notImplemented 0xDF#8) ∧
      decodeTableWord 8 0xFF = some (.notImplemented 0xFF#8) := by
  decide

theorem test_decode_needs_its_operand : decode [0x96#8] = .error (.operandMissing 0x96#8) := rfl
theorem test_decode_needs_an_opcode : decode [] = .error .noOpcode := rfl

/-! ### One step on a small state -/

/-- A state at an instruction boundary with PC at `$20`, as the vectors have it: no input active. -/
def at20 (a x y sp : Byte) (cc : CC) (mem : Memory) : State :=
  { State.reset with
    a := a, x := x, y := y, sp := sp, cc := cc, pc := 0x20#8, mem := mem, phase := .newFetch
    inputs := [⟨false, false⟩] }

/-- The step goes on, with these registers and flags and with these bytes in memory. -/
def ends (s : State) (a x y sp pc : Byte) (cc : CC) (written : List (Nat × Byte)) : Bool :=
  match step s with
  | .next t =>
    t.a == a && t.x == x && t.y == y && t.sp == sp && t.pc == pc && t.cc == cc &&
      written.all (fun c => Memory.find t.mem c.1 == some c.2)
  | .fault _ => false
  | .refused _ => false

theorem test_lda_1 :
    ends (at20 0x00#8 0x00#8 0x00#8 0x00#8 ⟨true, true, true, true, true⟩
        [(0x20, 0xF1#8), (0x21, 0x40#8), (0x40, 0x7F#8)])
      0x7F#8 0x00#8 0x00#8 0x00#8 0x22#8 ⟨true, false, false, false, true⟩ [] = true := by decide

theorem test_lda_2 :
    ends (at20 0x00#8 0xFF#8 0x00#8 0x00#8 ⟨false, false, false, false, false⟩
        [(0x20, 0xF5#8), (0xFF, 0x11#8)])
      0x11#8 0x00#8 0x00#8 0x00#8 0x21#8 ⟨false, false, false, false, false⟩ [] = true := by decide

theorem test_ldx :
    ends (at20 0x00#8 0x10#8 0x00#8 0x00#8 ⟨false, false, false, false, false⟩
        [(0x12, 0x34#8), (0x20, 0xC0#8), (0x21, 0x02#8)])
      0x00#8 0x34#8 0x00#8 0x00#8 0x22#8 ⟨false, false, false, false, false⟩ [] = true := by decide

theorem test_ldy :
    ends (at20 0x00#8 0x00#8 0x00#8 0x00#8 ⟨false, false, false, false, false⟩
        [(0x20, 0xA1#8), (0x21, 0x41#8), (0x41, 0x80#8)])
      0x00#8 0x00#8 0x80#8 0x00#8 0x22#8 ⟨false, true, false, false, false⟩ [] = true := by decide

theorem test_ldsp :
    ends (at20 0x00#8 0x00#8 0x00#8 0x10#8 ⟨false, false, false, false, false⟩
        [(0x11, 0xF0#8), (0x20, 0xB2#8), (0x21, 0x01#8)])
      0x00#8 0x00#8 0x00#8 0xF0#8 0x22#8 ⟨false, true, false, false, false⟩ [] = true := by decide

theorem test_leax :
    ends (at20 0x00#8 0xFE#8 0x00#8 0x00#8 ⟨false, true, true, true, true⟩
        [(0x20, 0xCC#8), (0x21, 0x05#8)])
      0x00#8 0x03#8 0x00#8 0x00#8 0x22#8 ⟨false, true, true, true, true⟩ [] = true := by decide

theorem test_leay :
    ends (at20 0x00#8 0x00#8 0x10#8 0x00#8 ⟨false, false, false, false, false⟩
        [(0x20, 0xCD#8), (0x21, 0xFF#8)])
      0x00#8 0x00#8 0x0F#8 0x00#8 0x22#8 ⟨false, false, false, false, false⟩ [] = true := by decide

theorem test_leasp :
    ends (at20 0x00#8 0x00#8 0xF8#8 0x00#8 ⟨false, false, false, false, false⟩
        [(0x20, 0xDE#8), (0x21, 0x10#8)])
      0x00#8 0x00#8 0xF8#8 0x08#8 0x22#8 ⟨false, false, false, false, false⟩ [] = true := by decide

theorem test_sta_1 :
    ends (at20 0x04#8 0x00#8 0x00#8 0x00#8 ⟨false, false, false, false, false⟩
        [(0x20, 0xE6#8)])
      0x04#8 0xFF#8 0x00#8 0x00#8 0x21#8 ⟨false, false, false, false, false⟩ [(0x00, 0x04#8)] = true := by decide

theorem test_sta_2 :
    ends (at20 0x05#8 0x40#8 0x00#8 0x00#8 ⟨false, false, false, false, false⟩
        [(0x20, 0xE7#8)])
      0x05#8 0x41#8 0x00#8 0x00#8 0x21#8 ⟨false, false, false, false, false⟩ [(0x41, 0x05#8)] = true := by decide

theorem test_stx :
    ends (at20 0x02#8 0x41#8 0x50#8 0x00#8 ⟨false, false, false, false, false⟩
        [(0x20, 0x80#8)])
      0x02#8 0x41#8 0x50#8 0x00#8 0x21#8 ⟨false, false, false, false, false⟩ [(0x52, 0x41#8)] = true := by decide

theorem test_sty :
    ends (at20 0x03#8 0x40#8 0x99#8 0x00#8 ⟨false, false, false, false, false⟩
        [(0x20, 0x61#8)])
      0x03#8 0x40#8 0x99#8 0x00#8 0x21#8 ⟨false, false, false, false, false⟩ [(0x43, 0x99#8)] = true := by decide

theorem test_stsp :
    ends (at20 0x00#8 0x40#8 0x00#8 0x7E#8 ⟨false, false, false, false, false⟩
        [(0x20, 0x52#8), (0x21, 0x01#8)])
      0x00#8 0x40#8 0x00#8 0x7E#8 0x22#8 ⟨false, false, false, false, false⟩ [(0x41, 0x7E#8)] = true := by decide

theorem test_tfrAcc :
    ends (at20 0xE0#8 0x00#8 0x00#8 0x00#8 ⟨true, true, true, true, true⟩
        [(0x20, 0x18#8)])
      0xE0#8 0x00#8 0x00#8 0x00#8 0x21#8 ⟨false, false, false, false, false⟩ [] = true := by decide

theorem test_tfrXY :
    ends (at20 0x00#8 0x12#8 0x34#8 0x00#8 ⟨false, true, true, true, true⟩
        [(0x20, 0x1A#8)])
      0x00#8 0x12#8 0x12#8 0x00#8 0x21#8 ⟨false, true, true, true, true⟩ [] = true := by decide

theorem test_tfrYX :
    ends (at20 0x00#8 0x12#8 0x34#8 0x00#8 ⟨false, false, false, false, false⟩
        [(0x20, 0x1B#8)])
      0x00#8 0x34#8 0x34#8 0x00#8 0x21#8 ⟨false, false, false, false, false⟩ [] = true := by decide

theorem test_tfrXSp :
    ends (at20 0x00#8 0x40#8 0x00#8 0x00#8 ⟨false, false, false, false, false⟩
        [(0x20, 0x1C#8)])
      0x00#8 0x40#8 0x00#8 0x40#8 0x21#8 ⟨false, false, false, false, false⟩ [] = true := by decide

theorem test_tfrSpX :
    ends (at20 0x00#8 0x00#8 0x00#8 0x7F#8 ⟨false, false, false, false, false⟩
        [(0x20, 0x1D#8)])
      0x00#8 0x7F#8 0x00#8 0x7F#8 0x21#8 ⟨false, false, false, false, false⟩ [] = true := by decide

theorem test_tfrYSp :
    ends (at20 0x00#8 0x00#8 0x80#8 0x01#8 ⟨false, false, false, false, false⟩
        [(0x20, 0x1E#8)])
      0x00#8 0x00#8 0x80#8 0x80#8 0x21#8 ⟨false, false, false, false, false⟩ [] = true := by decide

theorem test_tfrSpY :
    ends (at20 0x00#8 0x00#8 0x00#8 0xFE#8 ⟨false, false, false, false, false⟩
        [(0x20, 0x1F#8)])
      0x00#8 0x00#8 0xFE#8 0xFE#8 0x21#8 ⟨false, false, false, false, false⟩ [] = true := by decide

theorem test_exgXY :
    ends (at20 0x00#8 0x01#8 0x02#8 0x00#8 ⟨false, false, false, false, false⟩
        [(0x20, 0xAF#8)])
      0x00#8 0x02#8 0x01#8 0x00#8 0x21#8 ⟨false, false, false, false, false⟩ [] = true := by decide

theorem test_exgXSp :
    ends (at20 0x00#8 0x40#8 0x00#8 0x7F#8 ⟨false, false, false, false, false⟩
        [(0x20, 0xBF#8)])
      0x00#8 0x7F#8 0x00#8 0x40#8 0x21#8 ⟨false, false, false, false, false⟩ [] = true := by decide

theorem test_exgYSp :
    ends (at20 0x00#8 0x00#8 0x55#8 0xAA#8 ⟨false, false, false, false, false⟩
        [(0x20, 0xCF#8)])
      0x00#8 0x00#8 0xAA#8 0x55#8 0x21#8 ⟨false, false, false, false, false⟩ [] = true := by decide

theorem test_jmp :
    ends (at20 0x00#8 0xFF#8 0x00#8 0x00#8 ⟨false, false, false, false, false⟩
        [(0x20, 0x53#8), (0x21, 0x02#8)])
      0x00#8 0xFF#8 0x00#8 0x00#8 0x01#8 ⟨false, false, false, false, false⟩ [] = true := by decide

theorem test_jsr :
    ends (at20 0x01#8 0x60#8 0x00#8 0x00#8 ⟨false, false, false, false, false⟩
        [(0x20, 0x64#8)])
      0x01#8 0x60#8 0x00#8 0xFF#8 0x61#8 ⟨false, false, false, false, false⟩ [(0xFF, 0x21#8)] = true := by decide

theorem test_bsr :
    ends (at20 0x00#8 0x00#8 0x00#8 0x40#8 ⟨false, false, false, false, false⟩
        [(0x20, 0x20#8), (0x21, 0xFE#8)])
      0x00#8 0x00#8 0x00#8 0x3F#8 0x20#8 ⟨false, false, false, false, false⟩ [(0x3F, 0x22#8)] = true := by decide

theorem test_rts :
    ends (at20 0x00#8 0x00#8 0x00#8 0xFF#8 ⟨false, false, false, false, false⟩
        [(0x20, 0x43#8), (0xFF, 0x77#8)])
      0x00#8 0x00#8 0x00#8 0x00#8 0x77#8 ⟨false, false, false, false, false⟩ [] = true := by decide

theorem test_rti :
    ends (at20 0x00#8 0x00#8 0x00#8 0xFE#8 ⟨true, true, true, true, true⟩
        [(0x00, 0xBB#8), (0x01, 0xCC#8), (0x02, 0xDD#8), (0x20, 0x44#8), (0xFE, 0x00#8), (0xFF, 0xAA#8)])
      0xAA#8 0xBB#8 0xCC#8 0x03#8 0xDD#8 ⟨false, false, false, false, false⟩ [] = true := by decide

theorem test_bra :
    ends (at20 0x00#8 0x00#8 0x00#8 0x00#8 ⟨false, false, false, false, false⟩
        [(0x20, 0x21#8), (0x21, 0xFE#8)])
      0x00#8 0x00#8 0x00#8 0x00#8 0x20#8 ⟨false, false, false, false, false⟩ [] = true := by decide

theorem test_bmi_1 :
    ends (at20 0x00#8 0x00#8 0x00#8 0x00#8 ⟨false, true, false, false, false⟩
        [(0x20, 0x22#8), (0x21, 0x10#8)])
      0x00#8 0x00#8 0x00#8 0x00#8 0x32#8 ⟨false, true, false, false, false⟩ [] = true := by decide

theorem test_bmi_2 :
    ends (at20 0x00#8 0x00#8 0x00#8 0x00#8 ⟨false, false, false, false, false⟩
        [(0x20, 0x22#8), (0x21, 0x10#8)])
      0x00#8 0x00#8 0x00#8 0x00#8 0x22#8 ⟨false, false, false, false, false⟩ [] = true := by decide

theorem test_bpl_1 :
    ends (at20 0x00#8 0x00#8 0x00#8 0x00#8 ⟨false, false, false, false, false⟩
        [(0x20, 0x23#8), (0x21, 0x10#8)])
      0x00#8 0x00#8 0x00#8 0x00#8 0x32#8 ⟨false, false, false, false, false⟩ [] = true := by decide

theorem test_bpl_2 :
    ends (at20 0x00#8 0x00#8 0x00#8 0x00#8 ⟨false, true, false, false, false⟩
        [(0x20, 0x23#8), (0x21, 0x10#8)])
      0x00#8 0x00#8 0x00#8 0x00#8 0x22#8 ⟨false, true, false, false, false⟩ [] = true := by decide

theorem test_beq_1 :
    ends (at20 0x00#8 0x00#8 0x00#8 0x00#8 ⟨false, false, true, false, false⟩
        [(0x20, 0x24#8), (0x21, 0x10#8)])
      0x00#8 0x00#8 0x00#8 0x00#8 0x32#8 ⟨false, false, true, false, false⟩ [] = true := by decide

theorem test_beq_2 :
    ends (at20 0x00#8 0x00#8 0x00#8 0x00#8 ⟨false, false, false, false, false⟩
        [(0x20, 0x24#8), (0x21, 0x10#8)])
      0x00#8 0x00#8 0x00#8 0x00#8 0x22#8 ⟨false, false, false, false, false⟩ [] = true := by decide

theorem test_bne_1 :
    ends (at20 0x00#8 0x00#8 0x00#8 0x00#8 ⟨false, false, false, false, false⟩
        [(0x20, 0x25#8), (0x21, 0x10#8)])
      0x00#8 0x00#8 0x00#8 0x00#8 0x32#8 ⟨false, false, false, false, false⟩ [] = true := by decide

theorem test_bne_2 :
    ends (at20 0x00#8 0x00#8 0x00#8 0x00#8 ⟨false, false, true, false, false⟩
        [(0x20, 0x25#8), (0x21, 0x10#8)])
      0x00#8 0x00#8 0x00#8 0x00#8 0x22#8 ⟨false, false, true, false, false⟩ [] = true := by decide

theorem test_bvs_1 :
    ends (at20 0x00#8 0x00#8 0x00#8 0x00#8 ⟨false, false, false, true, false⟩
        [(0x20, 0x26#8), (0x21, 0x10#8)])
      0x00#8 0x00#8 0x00#8 0x00#8 0x32#8 ⟨false, false, false, true, false⟩ [] = true := by decide

theorem test_bvs_2 :
    ends (at20 0x00#8 0x00#8 0x00#8 0x00#8 ⟨false, false, false, false, false⟩
        [(0x20, 0x26#8), (0x21, 0x10#8)])
      0x00#8 0x00#8 0x00#8 0x00#8 0x22#8 ⟨false, false, false, false, false⟩ [] = true := by decide

theorem test_bvc_1 :
    ends (at20 0x00#8 0x00#8 0x00#8 0x00#8 ⟨false, false, false, false, false⟩
        [(0x20, 0x27#8), (0x21, 0x10#8)])
      0x00#8 0x00#8 0x00#8 0x00#8 0x32#8 ⟨false, false, false, false, false⟩ [] = true := by decide

theorem test_bvc_2 :
    ends (at20 0x00#8 0x00#8 0x00#8 0x00#8 ⟨false, false, false, true, false⟩
        [(0x20, 0x27#8), (0x21, 0x10#8)])
      0x00#8 0x00#8 0x00#8 0x00#8 0x22#8 ⟨false, false, false, true, false⟩ [] = true := by decide

theorem test_bcs_1 :
    ends (at20 0x00#8 0x00#8 0x00#8 0x00#8 ⟨false, false, false, false, true⟩
        [(0x20, 0x28#8), (0x21, 0x10#8)])
      0x00#8 0x00#8 0x00#8 0x00#8 0x32#8 ⟨false, false, false, false, true⟩ [] = true := by decide

theorem test_bcs_2 :
    ends (at20 0x00#8 0x00#8 0x00#8 0x00#8 ⟨false, false, false, false, false⟩
        [(0x20, 0x28#8), (0x21, 0x10#8)])
      0x00#8 0x00#8 0x00#8 0x00#8 0x22#8 ⟨false, false, false, false, false⟩ [] = true := by decide

theorem test_bcc_1 :
    ends (at20 0x00#8 0x00#8 0x00#8 0x00#8 ⟨false, false, false, false, false⟩
        [(0x20, 0x29#8), (0x21, 0x10#8)])
      0x00#8 0x00#8 0x00#8 0x00#8 0x32#8 ⟨false, false, false, false, false⟩ [] = true := by decide

theorem test_bcc_2 :
    ends (at20 0x00#8 0x00#8 0x00#8 0x00#8 ⟨false, false, false, false, true⟩
        [(0x20, 0x29#8), (0x21, 0x10#8)])
      0x00#8 0x00#8 0x00#8 0x00#8 0x22#8 ⟨false, false, false, false, true⟩ [] = true := by decide

theorem test_bhi_1 :
    ends (at20 0x00#8 0x00#8 0x00#8 0x00#8 ⟨false, false, false, false, false⟩
        [(0x20, 0x2A#8), (0x21, 0x10#8)])
      0x00#8 0x00#8 0x00#8 0x00#8 0x32#8 ⟨false, false, false, false, false⟩ [] = true := by decide

theorem test_bhi_2 :
    ends (at20 0x00#8 0x00#8 0x00#8 0x00#8 ⟨false, false, true, false, false⟩
        [(0x20, 0x2A#8), (0x21, 0x10#8)])
      0x00#8 0x00#8 0x00#8 0x00#8 0x22#8 ⟨false, false, true, false, false⟩ [] = true := by decide

theorem test_bls_1 :
    ends (at20 0x00#8 0x00#8 0x00#8 0x00#8 ⟨false, false, true, false, false⟩
        [(0x20, 0x2B#8), (0x21, 0x10#8)])
      0x00#8 0x00#8 0x00#8 0x00#8 0x32#8 ⟨false, false, true, false, false⟩ [] = true := by decide

theorem test_bls_2 :
    ends (at20 0x00#8 0x00#8 0x00#8 0x00#8 ⟨false, false, false, false, false⟩
        [(0x20, 0x2B#8), (0x21, 0x10#8)])
      0x00#8 0x00#8 0x00#8 0x00#8 0x22#8 ⟨false, false, false, false, false⟩ [] = true := by decide

theorem test_bgt_1 :
    ends (at20 0x00#8 0x00#8 0x00#8 0x00#8 ⟨false, true, false, true, false⟩
        [(0x20, 0x2C#8), (0x21, 0x10#8)])
      0x00#8 0x00#8 0x00#8 0x00#8 0x32#8 ⟨false, true, false, true, false⟩ [] = true := by decide

theorem test_bgt_2 :
    ends (at20 0x00#8 0x00#8 0x00#8 0x00#8 ⟨false, false, true, false, false⟩
        [(0x20, 0x2C#8), (0x21, 0x10#8)])
      0x00#8 0x00#8 0x00#8 0x00#8 0x22#8 ⟨false, false, true, false, false⟩ [] = true := by decide

theorem test_bge_1 :
    ends (at20 0x00#8 0x00#8 0x00#8 0x00#8 ⟨false, true, false, true, false⟩
        [(0x20, 0x2D#8), (0x21, 0x10#8)])
      0x00#8 0x00#8 0x00#8 0x00#8 0x32#8 ⟨false, true, false, true, false⟩ [] = true := by decide

theorem test_bge_2 :
    ends (at20 0x00#8 0x00#8 0x00#8 0x00#8 ⟨false, false, false, true, false⟩
        [(0x20, 0x2D#8), (0x21, 0x10#8)])
      0x00#8 0x00#8 0x00#8 0x00#8 0x22#8 ⟨false, false, false, true, false⟩ [] = true := by decide

theorem test_ble_1 :
    ends (at20 0x00#8 0x00#8 0x00#8 0x00#8 ⟨false, false, true, false, false⟩
        [(0x20, 0x2E#8), (0x21, 0x10#8)])
      0x00#8 0x00#8 0x00#8 0x00#8 0x32#8 ⟨false, false, true, false, false⟩ [] = true := by decide

theorem test_ble_2 :
    ends (at20 0x00#8 0x00#8 0x00#8 0x00#8 ⟨false, true, false, true, false⟩
        [(0x20, 0x2E#8), (0x21, 0x10#8)])
      0x00#8 0x00#8 0x00#8 0x00#8 0x22#8 ⟨false, true, false, true, false⟩ [] = true := by decide

theorem test_blt_1 :
    ends (at20 0x00#8 0x00#8 0x00#8 0x00#8 ⟨false, false, false, true, false⟩
        [(0x20, 0x2F#8), (0x21, 0x10#8)])
      0x00#8 0x00#8 0x00#8 0x00#8 0x32#8 ⟨false, false, false, true, false⟩ [] = true := by decide

theorem test_blt_2 :
    ends (at20 0x00#8 0x00#8 0x00#8 0x00#8 ⟨false, true, false, true, false⟩
        [(0x20, 0x2F#8), (0x21, 0x10#8)])
      0x00#8 0x00#8 0x00#8 0x00#8 0x22#8 ⟨false, true, false, true, false⟩ [] = true := by decide

theorem test_adda_1 :
    ends (at20 0x80#8 0x00#8 0x00#8 0x00#8 ⟨false, false, false, false, false⟩
        [(0x20, 0x96#8), (0x21, 0x80#8)])
      0x00#8 0x00#8 0x00#8 0x00#8 0x22#8 ⟨false, false, true, true, true⟩ [] = true := by decide

theorem test_adda_2 :
    ends (at20 0xFE#8 0x00#8 0x00#8 0x00#8 ⟨false, false, false, false, true⟩
        [(0x20, 0xA6#8), (0x21, 0x40#8), (0x40, 0x01#8)])
      0xFF#8 0x00#8 0x00#8 0x00#8 0x22#8 ⟨false, true, false, false, false⟩ [] = true := by decide

theorem test_adca_1 :
    ends (at20 0x80#8 0x00#8 0x00#8 0x00#8 ⟨false, false, false, false, true⟩
        [(0x20, 0x95#8), (0x21, 0x7F#8)])
      0x00#8 0x00#8 0x00#8 0x00#8 0x22#8 ⟨false, false, true, false, true⟩ [] = true := by decide

theorem test_adca_2 :
    ends (at20 0x01#8 0x00#8 0x00#8 0x40#8 ⟨false, false, false, false, false⟩
        [(0x20, 0xB5#8), (0x21, 0x00#8), (0x40, 0x01#8)])
      0x02#8 0x00#8 0x00#8 0x40#8 0x22#8 ⟨false, false, false, false, false⟩ [] = true := by decide

theorem test_suba_1 :
    ends (at20 0x7F#8 0x00#8 0x00#8 0x00#8 ⟨false, false, false, false, false⟩
        [(0x20, 0x94#8), (0x21, 0xFF#8)])
      0x80#8 0x00#8 0x00#8 0x00#8 0x22#8 ⟨false, true, false, true, true⟩ [] = true := by decide

theorem test_suba_2 :
    ends (at20 0x01#8 0x00#8 0x00#8 0x40#8 ⟨false, false, false, false, true⟩
        [(0x20, 0xB4#8), (0x21, 0x00#8), (0x40, 0x01#8)])
      0x00#8 0x00#8 0x00#8 0x40#8 0x22#8 ⟨false, false, true, false, false⟩ [] = true := by decide

theorem test_sbca_1 :
    ends (at20 0x00#8 0x00#8 0x00#8 0x00#8 ⟨false, false, false, false, true⟩
        [(0x20, 0x93#8), (0x21, 0xFF#8)])
      0x00#8 0x00#8 0x00#8 0x00#8 0x22#8 ⟨false, false, true, false, true⟩ [] = true := by decide

theorem test_sbca_2 :
    ends (at20 0x00#8 0x00#8 0x00#8 0x00#8 ⟨false, false, false, false, false⟩
        [(0x20, 0x93#8), (0x21, 0xFF#8)])
      0x01#8 0x00#8 0x00#8 0x00#8 0x22#8 ⟨false, false, false, false, true⟩ [] = true := by decide

theorem test_clra :
    ends (at20 0x99#8 0x00#8 0x00#8 0x00#8 ⟨true, true, false, true, true⟩
        [(0x20, 0x05#8)])
      0x00#8 0x00#8 0x00#8 0x00#8 0x21#8 ⟨true, false, true, false, false⟩ [] = true := by decide

theorem test_clr :
    ends (at20 0x05#8 0x40#8 0x00#8 0x00#8 ⟨false, false, false, false, false⟩
        [(0x20, 0x65#8), (0x45, 0x77#8)])
      0x05#8 0x40#8 0x00#8 0x00#8 0x21#8 ⟨false, false, true, false, false⟩ [(0x45, 0x00#8)] = true := by decide

theorem test_nega_1 :
    ends (at20 0x80#8 0x00#8 0x00#8 0x00#8 ⟨false, false, false, false, false⟩
        [(0x20, 0x06#8)])
      0x80#8 0x00#8 0x00#8 0x00#8 0x21#8 ⟨false, true, false, true, true⟩ [] = true := by decide

theorem test_nega_2 :
    ends (at20 0x00#8 0x00#8 0x00#8 0x00#8 ⟨false, false, false, false, false⟩
        [(0x20, 0x06#8)])
      0x00#8 0x00#8 0x00#8 0x00#8 0x21#8 ⟨false, false, true, false, false⟩ [] = true := by decide

theorem test_neg :
    ends (at20 0x01#8 0x00#8 0x40#8 0x00#8 ⟨false, false, false, false, false⟩
        [(0x20, 0x86#8), (0x41, 0x80#8)])
      0x01#8 0x00#8 0x40#8 0x00#8 0x21#8 ⟨false, true, false, true, true⟩ [(0x41, 0x80#8)] = true := by decide

theorem test_deca :
    ends (at20 0x80#8 0x00#8 0x00#8 0x00#8 ⟨false, false, false, false, true⟩
        [(0x20, 0x08#8)])
      0x7F#8 0x00#8 0x00#8 0x00#8 0x21#8 ⟨false, false, false, true, true⟩ [] = true := by decide

theorem test_dec :
    ends (at20 0x00#8 0x00#8 0x00#8 0x00#8 ⟨false, false, false, false, false⟩
        [(0x20, 0x38#8), (0x21, 0x40#8), (0x40, 0x00#8)])
      0x00#8 0x00#8 0x00#8 0x00#8 0x22#8 ⟨false, true, false, false, false⟩ [(0x40, 0xFF#8)] = true := by decide

theorem test_inca_1 :
    ends (at20 0x7F#8 0x00#8 0x00#8 0x00#8 ⟨false, false, false, false, true⟩
        [(0x20, 0x07#8)])
      0x80#8 0x00#8 0x00#8 0x00#8 0x21#8 ⟨false, true, false, true, true⟩ [] = true := by decide

theorem test_inca_2 :
    ends (at20 0xFF#8 0x00#8 0x00#8 0x00#8 ⟨false, false, false, false, false⟩
        [(0x20, 0x07#8)])
      0x00#8 0x00#8 0x00#8 0x00#8 0x21#8 ⟨false, false, true, false, false⟩ [] = true := by decide

theorem test_inc :
    ends (at20 0x00#8 0x00#8 0x00#8 0x40#8 ⟨false, false, false, false, false⟩
        [(0x20, 0x47#8), (0x21, 0x00#8), (0x40, 0x7F#8)])
      0x00#8 0x00#8 0x00#8 0x40#8 0x22#8 ⟨false, true, false, true, false⟩ [(0x40, 0x80#8)] = true := by decide

theorem test_cmpa_1 :
    ends (at20 0x7F#8 0x00#8 0x00#8 0x00#8 ⟨false, false, false, false, false⟩
        [(0x20, 0x97#8), (0x21, 0xFF#8)])
      0x7F#8 0x00#8 0x00#8 0x00#8 0x22#8 ⟨false, true, false, true, true⟩ [] = true := by decide

theorem test_cmpa_2 :
    ends (at20 0x80#8 0x00#8 0x00#8 0x00#8 ⟨false, false, false, false, false⟩
        [(0x20, 0x97#8), (0x21, 0x01#8)])
      0x80#8 0x00#8 0x00#8 0x00#8 0x22#8 ⟨false, false, false, true, false⟩ [] = true := by decide

theorem test_cmpx :
    ends (at20 0x00#8 0x10#8 0x00#8 0x00#8 ⟨false, false, false, false, false⟩
        [(0x20, 0xAC#8), (0x21, 0x40#8), (0x40, 0x11#8)])
      0x00#8 0x10#8 0x00#8 0x00#8 0x22#8 ⟨false, true, false, false, true⟩ [] = true := by decide

theorem test_cmpy :
    ends (at20 0x00#8 0x00#8 0x30#8 0x40#8 ⟨false, false, false, false, false⟩
        [(0x20, 0xBD#8), (0x21, 0x02#8), (0x42, 0x30#8)])
      0x00#8 0x00#8 0x30#8 0x40#8 0x22#8 ⟨false, false, true, false, false⟩ [] = true := by decide

theorem test_cmpsp_1 :
    ends (at20 0x00#8 0x00#8 0x00#8 0x40#8 ⟨false, false, false, false, false⟩
        [(0x20, 0xAE#8), (0x21, 0x40#8), (0x40, 0x80#8)])
      0x00#8 0x00#8 0x00#8 0x40#8 0x22#8 ⟨false, true, false, true, true⟩ [] = true := by decide

theorem test_cmpsp_2 :
    ends (at20 0x00#8 0x00#8 0x00#8 0x40#8 ⟨false, false, false, false, false⟩
        [(0x20, 0x9E#8), (0x21, 0x41#8)])
      0x00#8 0x00#8 0x00#8 0x40#8 0x22#8 ⟨false, true, false, false, true⟩ [] = true := by decide

theorem test_bita :
    ends (at20 0xF0#8 0x00#8 0x00#8 0x00#8 ⟨false, false, false, true, true⟩
        [(0x20, 0x98#8), (0x21, 0x0F#8)])
      0xF0#8 0x00#8 0x00#8 0x00#8 0x22#8 ⟨false, false, true, false, true⟩ [] = true := by decide

theorem test_tsta :
    ends (at20 0x00#8 0x00#8 0x00#8 0x00#8 ⟨true, true, false, true, true⟩
        [(0x20, 0x09#8)])
      0x00#8 0x00#8 0x00#8 0x00#8 0x21#8 ⟨true, false, true, false, false⟩ [] = true := by decide

theorem test_tst :
    ends (at20 0x00#8 0x00#8 0x00#8 0x40#8 ⟨false, true, false, true, true⟩
        [(0x20, 0x49#8), (0x21, 0x02#8), (0x42, 0x00#8)])
      0x00#8 0x00#8 0x00#8 0x40#8 0x22#8 ⟨false, false, true, false, false⟩ [] = true := by decide

theorem test_anda :
    ends (at20 0xF0#8 0x00#8 0x00#8 0x00#8 ⟨false, false, false, true, true⟩
        [(0x20, 0x99#8), (0x21, 0x0F#8)])
      0x00#8 0x00#8 0x00#8 0x00#8 0x22#8 ⟨false, false, true, false, true⟩ [] = true := by decide

theorem test_ora :
    ends (at20 0xF0#8 0x00#8 0x00#8 0x00#8 ⟨false, false, false, true, true⟩
        [(0x20, 0x9A#8), (0x21, 0x0F#8)])
      0xFF#8 0x00#8 0x00#8 0x00#8 0x22#8 ⟨false, true, false, false, true⟩ [] = true := by decide

theorem test_eora :
    ends (at20 0xFF#8 0x00#8 0x00#8 0x00#8 ⟨false, true, false, true, true⟩
        [(0x20, 0x9B#8), (0x21, 0xFF#8)])
      0x00#8 0x00#8 0x00#8 0x00#8 0x22#8 ⟨false, false, true, false, true⟩ [] = true := by decide

theorem test_andcc :
    ends (at20 0x00#8 0x00#8 0x00#8 0x00#8 ⟨true, false, true, false, true⟩
        [(0x20, 0x01#8), (0x21, 0xFE#8)])
      0x00#8 0x00#8 0x00#8 0x00#8 0x22#8 ⟨true, false, true, false, false⟩ [] = true := by decide

theorem test_orcc_1 :
    ends (at20 0x00#8 0x00#8 0x00#8 0x00#8 ⟨false, false, false, false, false⟩
        [(0x20, 0x02#8), (0x21, 0xE0#8)])
      0x00#8 0x00#8 0x00#8 0x00#8 0x22#8 ⟨false, false, false, false, false⟩ [] = true := by decide

theorem test_orcc_2 :
    ends (at20 0x00#8 0x00#8 0x00#8 0x00#8 ⟨false, false, false, false, false⟩
        [(0x20, 0x02#8), (0x21, 0x10#8)])
      0x00#8 0x00#8 0x00#8 0x00#8 0x22#8 ⟨true, false, false, false, false⟩ [] = true := by decide

theorem test_coma :
    ends (at20 0xFF#8 0x00#8 0x00#8 0x00#8 ⟨false, true, false, true, true⟩
        [(0x20, 0x0A#8)])
      0x00#8 0x00#8 0x00#8 0x00#8 0x21#8 ⟨false, false, true, false, true⟩ [] = true := by decide

theorem test_com :
    ends (at20 0x00#8 0x00#8 0x40#8 0x00#8 ⟨false, false, false, false, true⟩
        [(0x20, 0x7A#8), (0x21, 0x01#8), (0x41, 0xFF#8)])
      0x00#8 0x00#8 0x40#8 0x00#8 0x22#8 ⟨false, false, true, false, true⟩ [(0x41, 0x00#8)] = true := by decide

theorem test_lsla :
    ends (at20 0xC0#8 0x00#8 0x00#8 0x00#8 ⟨false, false, false, false, false⟩
        [(0x20, 0x0B#8)])
      0x80#8 0x00#8 0x00#8 0x00#8 0x21#8 ⟨false, true, false, false, true⟩ [] = true := by decide

theorem test_lsl :
    ends (at20 0x00#8 0x00#8 0x00#8 0x00#8 ⟨false, false, false, false, false⟩
        [(0x20, 0x3B#8), (0x21, 0x40#8), (0x40, 0x81#8)])
      0x00#8 0x00#8 0x00#8 0x00#8 0x22#8 ⟨false, false, false, true, true⟩ [(0x40, 0x02#8)] = true := by decide

theorem test_lsra :
    ends (at20 0xFF#8 0x00#8 0x00#8 0x00#8 ⟨false, false, false, false, true⟩
        [(0x20, 0x0C#8)])
      0x7F#8 0x00#8 0x00#8 0x00#8 0x21#8 ⟨false, false, false, true, true⟩ [] = true := by decide

theorem test_lsr :
    ends (at20 0x01#8 0x40#8 0x00#8 0x00#8 ⟨false, false, false, false, false⟩
        [(0x20, 0x6C#8), (0x41, 0xFE#8)])
      0x01#8 0x40#8 0x00#8 0x00#8 0x21#8 ⟨false, false, false, true, false⟩ [(0x41, 0x7F#8)] = true := by decide

theorem test_asra :
    ends (at20 0x85#8 0x00#8 0x00#8 0x00#8 ⟨false, false, false, false, false⟩
        [(0x20, 0x0F#8)])
      0xC2#8 0x00#8 0x00#8 0x00#8 0x21#8 ⟨false, true, false, false, true⟩ [] = true := by decide

theorem test_asr :
    ends (at20 0x01#8 0x40#8 0x00#8 0x00#8 ⟨false, false, false, false, false⟩
        [(0x20, 0x6F#8), (0x41, 0x01#8)])
      0x01#8 0x40#8 0x00#8 0x00#8 0x21#8 ⟨false, false, true, false, true⟩ [(0x41, 0x00#8)] = true := by decide

theorem test_rola :
    ends (at20 0x80#8 0x00#8 0x00#8 0x00#8 ⟨false, false, false, false, true⟩
        [(0x20, 0x0D#8)])
      0x01#8 0x00#8 0x00#8 0x00#8 0x21#8 ⟨false, false, false, true, true⟩ [] = true := by decide

theorem test_rol :
    ends (at20 0x01#8 0x40#8 0x00#8 0x00#8 ⟨false, false, false, false, true⟩
        [(0x20, 0x6D#8), (0x41, 0xC0#8)])
      0x01#8 0x40#8 0x00#8 0x00#8 0x21#8 ⟨false, true, false, false, true⟩ [(0x41, 0x81#8)] = true := by decide

theorem test_rora :
    ends (at20 0x01#8 0x00#8 0x00#8 0x00#8 ⟨false, false, false, false, true⟩
        [(0x20, 0x0E#8)])
      0x80#8 0x00#8 0x00#8 0x00#8 0x21#8 ⟨false, true, false, true, true⟩ [] = true := by decide

theorem test_ror :
    ends (at20 0x01#8 0x40#8 0x00#8 0x00#8 ⟨false, false, false, false, true⟩
        [(0x20, 0x6E#8), (0x41, 0xAA#8)])
      0x01#8 0x40#8 0x00#8 0x00#8 0x21#8 ⟨false, true, false, false, false⟩ [(0x41, 0xD5#8)] = true := by decide

theorem test_psha :
    ends (at20 0x5A#8 0x00#8 0x00#8 0x00#8 ⟨false, false, false, false, false⟩
        [(0x20, 0x10#8)])
      0x5A#8 0x00#8 0x00#8 0xFF#8 0x21#8 ⟨false, false, false, false, false⟩ [(0xFF, 0x5A#8)] = true := by decide

theorem test_pshx :
    ends (at20 0x00#8 0x12#8 0x00#8 0x40#8 ⟨false, false, false, false, false⟩
        [(0x20, 0x11#8)])
      0x00#8 0x12#8 0x00#8 0x3F#8 0x21#8 ⟨false, false, false, false, false⟩ [(0x3F, 0x12#8)] = true := by decide

theorem test_pshy :
    ends (at20 0x00#8 0x00#8 0x34#8 0x40#8 ⟨false, false, false, false, false⟩
        [(0x20, 0x12#8)])
      0x00#8 0x00#8 0x34#8 0x3F#8 0x21#8 ⟨false, false, false, false, false⟩ [(0x3F, 0x34#8)] = true := by decide

theorem test_pula :
    ends (at20 0x00#8 0x00#8 0x00#8 0xFF#8 ⟨false, false, false, false, false⟩
        [(0x20, 0x14#8), (0xFF, 0x01#8)])
      0x01#8 0x00#8 0x00#8 0x00#8 0x21#8 ⟨false, false, false, false, false⟩ [] = true := by decide

theorem test_pulx :
    ends (at20 0x00#8 0x55#8 0x00#8 0x3F#8 ⟨false, false, false, false, false⟩
        [(0x20, 0x15#8), (0x3F, 0x00#8)])
      0x00#8 0x00#8 0x00#8 0x40#8 0x21#8 ⟨false, false, false, false, false⟩ [] = true := by decide

theorem test_puly :
    ends (at20 0x00#8 0x00#8 0x00#8 0x3F#8 ⟨false, false, false, false, false⟩
        [(0x20, 0x16#8), (0x3F, 0x77#8)])
      0x00#8 0x00#8 0x77#8 0x40#8 0x21#8 ⟨false, false, false, false, false⟩ [] = true := by decide

theorem test_pulcc :
    ends (at20 0x00#8 0x00#8 0x00#8 0x3F#8 ⟨true, true, true, true, true⟩
        [(0x20, 0x17#8), (0x3F, 0xE0#8)])
      0x00#8 0x00#8 0x00#8 0x40#8 0x21#8 ⟨false, false, false, false, false⟩ [] = true := by decide

theorem test_nop :
    ends (at20 0x00#8 0x00#8 0x00#8 0x00#8 ⟨false, true, true, true, true⟩
        [(0x20, 0x00#8)])
      0x00#8 0x00#8 0x00#8 0x00#8 0x21#8 ⟨false, true, true, true, true⟩ [] = true := by decide

/-! CC read as a byte has three unknown bits, so these compare the flags in it (vectors `19`, `9F`, `13`). -/

theorem test_tfrCcA :
    CC.ofByte (after .tfrCcA (at20 0xAA#8 0#8 0#8 0#8 ⟨true, false, true, false, true⟩ [])).a =
      ⟨true, false, true, false, true⟩ := Laws.ofByte_toByte _ _

theorem test_exgAcc :
    let t := after .exgAcc (at20 0x13#8 0#8 0#8 0#8 ⟨false, true, true, false, false⟩ [])
    CC.ofByte t.a = ⟨false, true, true, false, false⟩ ∧ t.cc = ⟨true, false, false, true, true⟩ :=
  ⟨Laws.ofByte_toByte _ _, by decide⟩

theorem test_pshcc :
    let t := after .pshcc (at20 0#8 0#8 0#8 0x40#8 ⟨true, false, true, false, true⟩ [])
    CC.ofByte (t.byteAt 0x3F#8) = ⟨true, false, true, false, true⟩ ∧ t.sp = 0x3F#8 :=
  ⟨Laws.ofByte_toByte _ _, rfl⟩

/-! ### Trap, interrupt and reset (section 2.9) -/

/-- The state of section 2.9's first row. -/
def beforeTrap : State :=
  at20 0x11#8 0x22#8 0x33#8 0x40#8 ⟨false, true, false, false, true⟩ [(0x20, 0x03#8), (0xFE, 0x80#8)]

theorem test_trap_frame :
    ∃ t, step beforeTrap = .next t ∧ t.sp = 0x3B#8 ∧ t.pc = 0x80#8 ∧ t.a = 0x11#8 ∧ t.x = 0x22#8 ∧
      t.y = 0x33#8 ∧ t.byteAt 0x3F#8 = 0x21#8 ∧ t.byteAt 0x3E#8 = 0x33#8 ∧ t.byteAt 0x3D#8 = 0x22#8 ∧
      t.byteAt 0x3C#8 = 0x11#8 :=
  ⟨_, rfl, rfl, rfl, rfl, rfl, rfl, rfl, rfl, rfl, rfl⟩

theorem test_trap_flags :
    ∃ t, step beforeTrap = .next t ∧ CC.ofByte (t.byteAt 0x3B#8) = ⟨false, true, false, false, true⟩ ∧
      t.cc = ⟨Config.trapSetsI, true, false, false, true⟩ :=
  ⟨_, rfl, Laws.ofByte_toByte _ _, rfl⟩

/-- A frame that runs over the vectors: the pushes come before the vector's read. -/
theorem test_trap_over_vectors :
    ∃ t, step (at20 0#8 0#8 0#8 0x02#8 ⟨true, false, false, false, false⟩ [(0x20, 0xFF#8), (0xFE, 0x80#8)])
        = .next t ∧ t.sp = 0xFD#8 ∧ t.pc = 0x00#8 ∧ t.byteAt 0x01#8 = 0x21#8 :=
  ⟨_, rfl, rfl, rfl, rfl⟩

/-- The state of section 2.9's row on `IRQ_LINE`, with I as given. -/
def beforeIrq (i : Bool) : State :=
  { at20 0x11#8 0x22#8 0x33#8 0x40#8 ⟨i, false, true, false, true⟩
      [(0x20, 0xF0#8), (0x21, 0x01#8), (0xFD, 0x60#8)] with
    inputs := [⟨false, true⟩] }

theorem test_irq_entry :
    ∃ t, step (beforeIrq false) = .next t ∧ t.sp = 0x3B#8 ∧ t.pc = 0x60#8 ∧ t.a = 0x11#8 ∧
      t.cc = ⟨true, false, true, false, true⟩ ∧ t.byteAt 0x3F#8 = 0x20#8 ∧
      CC.ofByte (t.byteAt 0x3B#8) = ⟨false, false, true, false, true⟩ :=
  ⟨_, rfl, rfl, rfl, rfl, rfl, rfl, Laws.ofByte_toByte _ _⟩

theorem test_irq_masked :
    ends (beforeIrq true) 0x01#8 0x22#8 0x33#8 0x40#8 0x22#8 ⟨true, false, false, false, true⟩ [] = true := by
  decide

/-- A frame that runs over a port: the byte is output, not stored. -/
theorem test_irq_over_port :
    ∃ t v, step { at20 0xAA#8 0xBB#8 0xCC#8 0x01#8 ⟨false, false, false, false, false⟩ [(0xFD, 0x60#8)] with
        inputs := [⟨false, true⟩] } = .next t ∧ t.pc = 0xAA#8 ∧ t.sp = 0xFC#8 ∧
      t.ports = [.output 0xFC#8 v] ∧ Memory.find t.mem 0xFC = none :=
  ⟨_, _, rfl, rfl, rfl, rfl, rfl⟩

theorem test_reset_vector :
    ∃ t, step { State.reset with mem := [(0xFF, 0x20#8)] } = .next t ∧ t.pc = 0x20#8 ∧
      t.mem = [(0xFF, 0x20#8)] ∧ t.phase = .newFetch := ⟨_, rfl, rfl, rfl, rfl⟩

/-- The reset input at a later boundary, with the interrupt line active too. -/
theorem test_reset_input :
    ∃ t, step { beforeIrq false with inputs := [⟨true, true⟩], mem := [(0xFF, 0x20#8)] } = .next t ∧
      t.pc = 0x20#8 ∧ t.mem = [(0xFF, 0x20#8)] := ⟨_, rfl, rfl, rfl⟩

/-! ### What the host asks: an instruction stored where the next step fetches it -/

theorem test_withFetchWord :
    ∃ t, step (State.reset.withFetchWord 16 0x12F0) = .next t ∧ t.a = 0x12#8 ∧ t.pc = 0x02#8 :=
  ⟨_, rfl, rfl, rfl⟩

theorem test_fetch_over_the_end :
    ∃ t, step { at20 0#8 0#8 0#8 0#8 ⟨false, false, false, false, false⟩ [(0x00, 0x42#8), (0xFF, 0xF0#8)] with
        pc := 0xFF#8 } = .next t ∧ t.a = 0x42#8 ∧ t.pc = 0x01#8 := ⟨_, rfl, rfl, rfl⟩

theorem test_port_input :
    ∃ t, step { at20 0#8 0#8 0#8 0#8 ⟨false, false, false, false, false⟩ [(0x20, 0xF1#8), (0x21, 0xFC#8)] with
        portIn := [0x5A#8] } = .next t ∧ t.a = 0x5A#8 ∧ t.ports = [.input 0xFC#8 0x5A#8] ∧ t.portIn = [] :=
  ⟨_, rfl, rfl, rfl, rfl⟩

theorem test_read_only_store :
    ∃ t, step { at20 0x80#8 0#8 0#8 0#8 ⟨false, false, false, false, false⟩
        [(0x20, 0xE1#8), (0x21, 0x40#8), (0x40, 0x01#8)] with readOnly := [0x40#8] } = .next t ∧
      t.byteAt 0x40#8 = 0x01#8 := ⟨_, rfl, rfl⟩

/-! ### Part 2: rows of the ALU table (section 1.2) -/

theorem test_alu_subtract :
    alu 12#4 0x80#8 0x01#8 true = ⟨0x7F#8, false, false, true, true⟩ ∧
      alu 12#4 0x30#8 0x50#8 true = ⟨0xE0#8, true, false, false, false⟩ := by decide

theorem test_alu_shifts :
    alu 13#4 0x40#8 0x00#8 true = ⟨0x81#8, true, false, true, false⟩ ∧
      alu 14#4 0x01#8 0x00#8 true = ⟨0x80#8, true, false, true, true⟩ ∧
      alu 15#4 0x85#8 0x00#8 false = ⟨0xC2#8, true, false, false, true⟩ := by decide

theorem test_alu_negate :
    alu 5#4 0x01#8 0x00#8 true = ⟨0xFF#8, true, false, false, true⟩ ∧
      alu 5#4 0x80#8 0x00#8 true = ⟨0x80#8, true, false, true, true⟩ ∧
      alu 5#4 0x00#8 0x00#8 true = ⟨0x00#8, false, true, false, false⟩ := by decide

/-- A state in the middle of an instruction: T is 0, TA is the address `$40`. -/
def midway : State :=
  { at20 0x30#8 0#8 0#8 0x80#8 ⟨false, false, false, false, true⟩ [(0x20, 0x77#8), (0x40, 0x50#8)] with
    hidden := ⟨0x00#8, 0x00#8, 0x40#8, 0xB4#8⟩ }

/-- `MW` with `OE_A` at `M(T + SP)`: A goes to memory (R229, R232). -/
theorem test_pulse_memory_write :
    let t := midway.clockPulse { oeA := true, mw := true, gAddress := 1#3 } 0x99#8 0#8 0#8 0#8 0#8
    t.byteAt 0x80#8 = 0x30#8 ∧ t.a = 0x30#8 ∧ t.ports = [] := by decide

/-- `MR` at `M(PC)` with `LD_I` and `INC_PC`: the fetch of an opcode (R229, R232). -/
theorem test_pulse_memory_read :
    let t := midway.clockPulse { mr := true, ldI := true, incPC := true } 0x99#8 0#8 0#8 0#8 0#8
    t.hidden.ir = 0x77#8 ∧ t.pc = 0x21#8 ∧ t.mem = midway.mem := by decide

/-- `$30 - $50` (section 1.2): C is the borrow, the inverse of the adder's carry (C17). -/
theorem test_pulse_borrow :
    (midway.clockPulse { ldCC := true, f := 12#4, gCin := 1#2 } 0x99#8 0#8 0#8 0x30#8 0x50#8).cc =
      ⟨false, true, false, false, true⟩ := by decide

/-! ### The assembler: lines of program P2 (section 3.2) -/

/-- A number in hexadecimal. -/
def hex (h l : Nat) : Assembly.Value := .number ⟨.hexadecimal, [h, l]⟩

theorem test_assemble :
    Assembly.assemble [
      .org (hex 3 0),
      .code none .clra .inherent,
      .code none .adda (.nX (.number ⟨.decimal, [0]⟩)),
      .code none .leax (.nX (.number ⟨.decimal, [1]⟩)),
      .code none .cmpx (.immediate (hex 6 4)),
      .code none .bne (.address (hex 3 1)),
      .code none .rts .inherent] =
    .ok [(0x30, 0x05#8), (0x31, 0xC6#8), (0x32, 0x00#8), (0x33, 0xCC#8), (0x34, 0x01#8), (0x35, 0x9C#8),
      (0x36, 0x64#8), (0x37, 0x25#8), (0x38, 0xF8#8), (0x39, 0x43#8)] := by rfl

theorem test_assemble_alias :
    Assembly.pick .asl (.address 0x40#8) 0x20#8 = .ok (.lsl (.ab 0x40#8)) ∧
      Assembly.pick .bhs (.address 0x20#8) 0x20#8 = .ok (.bcc 0xFE#8) := ⟨rfl, rfl⟩

theorem test_assemble_no_form : Assembly.pick .cmpx (.nX 0x01#8) 0x20#8 = .error .noSuchForm := rfl

/-! ### Witnesses: a state and operands that meet all hypotheses of a statement -/

/-- A state at a boundary: a program byte `$96`, a read-only byte, a stack in storage. -/
def sample : State :=
  { at20 0x7F#8 0x40#8 0x50#8 0x80#8 ⟨false, false, false, false, true⟩ [(0x20, 0x96#8), (0x21, 0x01#8)] with
    readOnly := [0x10#8], portIn := [0x5A#8] }

theorem test_witness_DecodeOfEncodeIsIdentity :
    (Instr.lda (.mem .yPreDec)).wf = true ∧ (Instr.notImplemented 0xEF#8).wf = true := by decide

theorem test_witness_EncodeOfDecodeIsIdentity :
    decode [0xD6#8, 0xFF#8, 0x00#8] = .ok (.adda (.mem (.ny 0xFF#8)), [0x00#8]) := rfl

theorem test_witness_ReadAsksThePortOrTheStorage :
    Port 0xFB#8 ∧ Port 0xFC#8 ∧ ¬ Port 0xFA#8 ∧ ¬ Port 0xFD#8 ∧ sample.portIn = 0x5A#8 :: [] ∧
      State.reset.portIn = [] := ⟨by decide, by decide, by decide, by decide, rfl, rfl⟩

theorem test_witness_WriteStoresOrOutputs :
    Port 0xFB#8 ∧ Stores sample 0xFA#8 ∧ Stores sample 0xFD#8 ∧ (¬ Port 0x10#8 ∧ 0x10#8 ∈ sample.readOnly) ∧
      (0xFA#8 : Byte) ≠ 0xFB#8 := by decide

theorem test_witness_PullUndoesPush : Stores sample (sample.sp - 1#8) := by decide

theorem test_witness_PortInstructionsReachThePeripheral :
    Port 0xFB#8 ∧ Port 0xFC#8 ∧ sample.portIn = 0x5A#8 :: [] := ⟨by decide, by decide, rfl⟩

theorem test_witness_ConditionCodesAsByte : (0xE5#8 : Byte).toNat % 32 = (0x05#8 : Byte).toNat % 32 := by decide

theorem test_witness_StoresWriteOneByteAndNoFlag :
    (Instr.stsp .ax, sample.sp) ∈
      [(Instr.sta .ax, sample.a), (.stx .ax, sample.x), (.sty .ax, sample.y), (.stsp .ax, sample.sp)] := by
  decide

theorem test_witness_CallsPushTheReturnAddress :
    (AddrMode.ab 0x80#8).isJump = true ∧ AddrMode.ay.isJump = true := by decide

theorem test_witness_SubroutineReturnsToItsCaller :
    Stores sample (sample.sp - 1#8) ∧ (∃ off, Instr.bsr 0x10#8 = .bsr off) ∧
      ∃ m, Instr.jsr .ax = .jsr m ∧ m.isJump = true := ⟨by decide, ⟨_, rfl⟩, ⟨_, rfl, rfl⟩⟩

theorem test_witness_AdditionsAreExact :
    (Instr.adca (.im 0x01#8), 1) ∈ [(Instr.adda (.im 0x01#8), 0), (.adca (.im 0x01#8), sample.cc.c.toNat)] := by
  decide

theorem test_witness_SubtractionsAreExact :
    (Instr.sbca (.im 0x01#8), 1) ∈ [(Instr.suba (.im 0x01#8), 0), (.sbca (.im 0x01#8), sample.cc.c.toNat)] := by
  decide

theorem test_witness_ComparesSetFlagsOnly :
    (Instr.cmpx (.im 0x40#8), sample.x) ∈
      [(Instr.cmpa (.im 0x40#8), sample.a), (.cmpx (.im 0x40#8), sample.x), (.cmpy (.im 0x40#8), sample.y),
        (.cmpsp (.im 0x40#8), sample.sp)] ∧
      (Instr.cmpx (.im 0x40#8)).wf = true := by decide

theorem test_witness_LogicalOperationsOnA :
    Instr.ora (.im 0x0F#8) = .ora (.im 0x0F#8) ∧ (fun a b : Byte => a ||| b) = (· ||| ·) := ⟨rfl, rfl⟩

theorem test_witness_PushesWriteBelowTheStack :
    (Instr.pshy, sample.y) ∈ [(Instr.psha, sample.a), (.pshx, sample.x), (.pshy, sample.y)] := by decide

theorem test_witness_NopOnlyMovesPC :
    let s := at20 0#8 0#8 0#8 0#8 ⟨false, false, false, false, false⟩ [(0x20, 0x00#8)]
    Fetches s ∧ ¬ Port s.pc ∧ s.byteAt s.pc = 0x00#8 :=
  ⟨⟨rfl, false, .inl ⟨[], rfl⟩, .inl rfl⟩, by decide, rfl⟩

theorem test_witness_InterruptEntryPushesTheFrame :
    (beforeIrq false).phase = .newFetch ∧ Samples (beforeIrq false) false true ∧ (beforeIrq false).cc.i = false :=
  ⟨rfl, .inl ⟨[], rfl⟩, rfl⟩

theorem test_witness_ReturnUndoesExceptionEntry : FrameStores sample ∧ ¬ Port 0xFD#8 := by decide

theorem test_witness_TrapResumesAfterTheIllegalByte :
    Fetches beforeTrap ∧ ¬ Port beforeTrap.pc ∧
      beforeTrap.byteAt beforeTrap.pc ∈ [0x03#8, 0x04#8, 0xDF#8, 0xE0#8, 0xEF#8, 0xFF#8] ∧
      FrameStores beforeTrap :=
  ⟨⟨rfl, false, .inl ⟨[], rfl⟩, .inl rfl⟩, by decide⟩

theorem test_witness_MaskedInterruptIsInvisible :
    (beforeIrq true).phase = .newFetch ∧ (beforeIrq true).cc.i = true := by decide

theorem test_witness_ResetLoadsTheVector :
    State.reset.phase = .vectorFetch ∧ (∃ irq, Samples { sample with inputs := [⟨true, true⟩] } true irq) ∧
      Memory.find [(0x20, 0x96#8), (0xFF, 0x20#8)] 255 = some 0x20#8 := ⟨rfl, ⟨true, .inl ⟨[], rfl⟩⟩, rfl⟩

/-- Also with the line active under I = 1. -/
theorem test_witness_StepRunsTheDecodedInstruction :
    Fetches sample ∧ Fetches (beforeIrq true) ∧ ¬ Port sample.pc ∧ ¬ Port (sample.pc + 1#8) ∧
      decode [sample.byteAt sample.pc, sample.byteAt (sample.pc + 1#8)] = .ok (.adda (.im 0x01#8), []) ∧
      decode [sample.passBoundary.fetch8.1, sample.passBoundary.fetch8.2.fetch8.1] =
        .ok (.adda (.im 0x01#8), []) :=
  ⟨⟨rfl, false, .inl ⟨[], rfl⟩, .inl rfl⟩, ⟨rfl, true, .inl ⟨[], rfl⟩, .inr rfl⟩, by decide, by decide, rfl, rfl⟩

theorem test_witness_step_invariants :
    MemoryInv sample ∧ (∃ t, step sample = .next t ∧ t.a = 0x80#8) ∧ 0x10#8 ∈ sample.readOnly :=
  ⟨by decide, ⟨_, rfl, rfl⟩, by decide⟩

theorem test_witness_exec_frames :
    (Instr.sta (.ab 0x30#8)).wf = true ∧ (∃ t, exec (.sta (.ab 0x30#8)) sample = .next t) ∧
      0x31#8 ∉ storedTo (.sta (.ab 0x30#8)) sample := ⟨by decide, ⟨_, rfl⟩, by decide⟩

theorem test_witness_SelectorsGiveTheStoredFlags :
    aluUse (.dec (.ab 0x30#8)) = some { f := 10#4, gC := 3#2 } ∧
      aluUse (.sbca (.im 0x01#8)) = some { f := 12#4, gCin := 3#2 } ∧ writesA (.sbca (.im 0x01#8)) = true ∧
      0x30#8 ∈ storedTo (.dec (.ab 0x30#8)) sample ∧ Stores sample 0x30#8 := by decide

theorem test_witness_AssemblerPicksInstructionsOfTheMap :
    sample.pc = 0x1E#8 + 2#8 ∧ Assembly.pick .blo (.address 0x10#8) 0x1E#8 = .ok (.bcs 0xF0#8) ∧
      (Instr.bcs 0xF0#8).wf = true ∧ (∀ op, Instr.bcs 0xF0#8 ≠ .notImplemented op) :=
  ⟨by decide, rfl, rfl, fun _ h => by cases h⟩

end Sys2Proof.Tests
end

section
/-! PROOFS. A push and a pull on the same state (`00_scope.md` R5, `10_state.md` R13). -/

namespace Sys2Proof.Proofs

open Sys2Proof.Machine Sys2Proof.Safety Sys2Proof.Laws

/-- Over writable storage, the pull reads the slot that the push wrote, and SP comes back around the ring of
256 addresses. -/
theorem pull_push {s : State} (v : Byte) (h : Stores s (s.sp - 1#8)) :
    (s.push v).pull = (v, { s.push v with sp := s.sp }) := by
  have hsp : (s.push v).sp = s.sp - 1#8 := push_sp s v
  have hslot : (s.push v).byteAt (s.sp - 1#8) = v := (push_wrote s v).stored h
  have hpull := pull_storage (s := s.push v) (hsp ▸ h.1)
  rw [hpull, hsp, hslot, BitVec.sub_add_cancel]

/-- Settles O7: the frame of the push is `push_wrote`, the round trip is `pull_push`. -/
theorem pullUndoesPush : Obligations.PullUndoesPush :=
  fun s v => ⟨push_sp s v, push_wrote s v, pull_push v⟩

end Sys2Proof.Proofs
end

section
/-! PROOFS. The decoder and the fetch read one opcode map (`30_encoding.md` R50, R51, `00_scope.md` R4): what each
makes of a cell of format `F1` and of format `F2`, and the step at a boundary where an instruction is fetched. -/

namespace Sys2Proof.Proofs

open Sys2Proof.Machine Sys2Proof.Safety Sys2Proof.Laws

/-! ### The cells of the opcode map -/

/-- The instructions of a cell have the length of its format (R51): one byte in `F1`, two in `F2`. -/
def HasFormatLength : Form → Prop
  | .one i => i.length = 1
  | .two f => ∀ n, (f n).length = 2

/-- Cell by cell over the 256 of the map, where the mode a cell names fixes its operand bytes. -/
theorem hasFormatLength_of_mem_opcodeMap :
    ∀ column ∈ opcodeMap, ∀ cell ∈ column, HasFormatLength cell := by
  simp only [opcodeMap, opcodeColumn0, opcodeColumn1, opcodeColumn2, opcodeColumn3, opcodeColumn4, opcodeColumn5,
    opcodeColumn6, opcodeColumn7, opcodeColumn8, opcodeColumn9, opcodeColumnA, opcodeColumnB, opcodeColumnC,
    opcodeColumnD, opcodeColumnE, opcodeColumnF, List.forall_mem_cons]
  simp [HasFormatLength, Instr.length, Operand.operandBytes, AddrMode.operandBytes]

/-- A property of every cell, and of what stands for an absent one, holds of the cell looked up. -/
theorem getD_of_forall_mem {α : Type} {P : α → Prop} {l : List α} {d : α} (k : Nat) (hl : ∀ a ∈ l, P a)
    (hd : P d) : P (l.getD k d) := by
  rcases Nat.lt_or_ge k l.length with hk | hk
  · rw [List.getD_eq_getElem _ _ hk]; exact hl _ (List.getElem_mem hk)
  · rwa [List.getD_eq_default _ _ hk]

theorem formOf_hasFormatLength (op : Byte) : HasFormatLength (formOf op) :=
  have hcolumn : ∀ cell ∈ opcodeMap.getD (op.toNat / 16) [], HasFormatLength cell :=
    getD_of_forall_mem (P := fun column => ∀ cell ∈ column, HasFormatLength cell) _
      hasFormatLength_of_mem_opcodeMap (by simp)
  getD_of_forall_mem _ hcolumn rfl

/-! ### The decoder -/

theorem decode_of_one {op : Byte} {i : Instr} (rest : List Byte) (h : formOf op = .one i) :
    decode (op :: rest) = .ok (i, rest) := by
  simp [decode, h]

theorem decode_of_two {op : Byte} {f : Byte → Instr} (n : Byte) (rest : List Byte) (h : formOf op = .two f) :
    decode (op :: n :: rest) = .ok (f n, rest) := by
  simp [decode, h]

/-- All that two bytes can decode to: the first byte's `F1` instruction, or its `F2` instruction with the second
byte as operand. -/
theorem decode_pair_cases {op n : Byte} {i : Instr} {rest : List Byte} (h : decode [op, n] = .ok (i, rest)) :
    (formOf op = .one i ∧ i.length = 1) ∨ (∃ f, formOf op = .two f ∧ i = f n ∧ i.length = 2) := by
  have hlen := formOf_hasFormatLength op
  cases hform : formOf op with
  | one j =>
    rw [decode_of_one [n] hform] at h
    rw [hform] at hlen
    cases h
    exact .inl ⟨rfl, hlen⟩
  | two f =>
    rw [decode_of_two n [] hform] at h
    rw [hform] at hlen
    cases h
    exact .inr ⟨f, rfl, rfl, hlen n⟩

/-! ### The fetch -/

theorem fetchInstr_of_one {s : State} {i : Instr} (h : formOf s.fetch8.1 = .one i) :
    s.fetchInstr = (i, { s.fetch8.2 with
      cycles := s.cycles + Instr.cycles i, hidden := { s.fetch8.2.hidden with ir := s.fetch8.1 } }) := by
  simp [State.fetchInstr, h]

theorem fetchInstr_of_two {s : State} {f : Byte → Instr} (h : formOf s.fetch8.1 = .two f) :
    s.fetchInstr = (f s.fetch8.2.fetch8.1, { s.fetch8.2.fetch8.2 with
      cycles := s.cycles + Instr.cycles (f s.fetch8.2.fetch8.1)
      hidden := { s.fetch8.2.fetch8.2.hidden with ir := s.fetch8.1 } }) := by
  simp [State.fetchInstr, h]

/-! ### The step -/

/-- A step at a boundary without reset and accepted interrupt is the meaning of the instruction fetched. -/
theorem step_of_fetches {s : State} (h : Fetches s) :
    step s = exec s.passBoundary.fetchInstr.1 s.passBoundary.fetchInstr.2 := by
  obtain ⟨hphase, hreset, hirq⟩ := (fetches_iff s).1 h
  exact step_of_instruction hphase hreset hirq

theorem step_of_one {s : State} {i : Instr} (hs : Fetches s) (h : formOf s.passBoundary.fetch8.1 = .one i) :
    step s = exec i { s.passBoundary.fetch8.2 with
      cycles := s.cycles + Instr.cycles i
      hidden := { s.passBoundary.fetch8.2.hidden with ir := s.passBoundary.fetch8.1 } } := by
  rw [step_of_fetches hs, fetchInstr_of_one h, passBoundary_cycles]

theorem step_of_two {s : State} {f : Byte → Instr} (hs : Fetches s)
    (h : formOf s.passBoundary.fetch8.1 = .two f) :
    step s = exec (f s.passBoundary.fetch8.2.fetch8.1) { s.passBoundary.fetch8.2.fetch8.2 with
      cycles := s.cycles + Instr.cycles (f s.passBoundary.fetch8.2.fetch8.1)
      hidden := { s.passBoundary.fetch8.2.fetch8.2.hidden with ir := s.passBoundary.fetch8.1 } } := by
  rw [step_of_fetches hs, fetchInstr_of_two h, passBoundary_cycles]

/-- A fetch from storage just past a boundary: the byte at PC, which a boundary leaves as it was. -/
theorem fetch8_passBoundary_storage {s : State} (h : ¬ Port s.pc) :
    s.passBoundary.fetch8 = (s.byteAt s.pc, { s.passBoundary with pc := s.pc + 1#8 }) :=
  fetch8_storage (s := s.passBoundary) h

/-- The second fetch from storage past a boundary: the byte after the one at PC. -/
theorem fetch8_fetch8_passBoundary_storage {s : State} (h : ¬ Port s.pc) (hn : ¬ Port (s.pc + 1#8)) :
    s.passBoundary.fetch8.2.fetch8 = (s.byteAt (s.pc + 1#8), { s.passBoundary with pc := s.pc + 1#8 + 1#8 }) := by
  rw [fetch8_passBoundary_storage h]
  exact fetch8_storage (s := { s.passBoundary with pc := s.pc + 1#8 }) hn

/-- PC moved by a length, as the claims write it, is PC plus the length in the ring of 256 addresses. -/
theorem ofNat_toNat_add (b : Byte) (k : Nat) : BitVec.ofNat 8 (b.toNat + k) = b + BitVec.ofNat 8 k := by
  rw [BitVec.ofNat_add, BitVec.ofNat_toNat, BitVec.setWidth_eq]

/-- The first claim of O48: whatever the fetch reads, ports included. -/
theorem step_of_decode_fetched {s : State} {i : Instr} {rest : List Byte} (hs : Fetches s)
    (h : decode [s.passBoundary.fetch8.1, s.passBoundary.fetch8.2.fetch8.1] = .ok (i, rest)) :
    let op := s.passBoundary.fetch8
    let f := if i.length = 2 then op.2.fetch8.2 else op.2
    step s = exec i { f with cycles := s.cycles + Instr.cycles i, hidden := { f.hidden with ir := op.1 } } := by
  rcases decode_pair_cases h with ⟨hform, hlen⟩ | ⟨f, hform, rfl, hlen⟩
  · rw [step_of_one hs hform]; simp [hlen]
  · rw [step_of_two hs hform]; simp [hlen]

/-- The second claim of O48: the bytes lie in storage, so the fetch only moves PC. The second byte matters, and
has to be storage, only where the instruction has two. -/
theorem step_of_decode_stored {s : State} {i : Instr} {rest : List Byte} (hs : Fetches s) (hp : ¬ Port s.pc)
    (hn : i.length = 2 → ¬ Port (s.pc + 1#8))
    (h : decode [s.byteAt s.pc, s.byteAt (s.pc + 1#8)] = .ok (i, rest)) :
    step s = exec i { s.passBoundary with
      pc := BitVec.ofNat 8 (s.pc.toNat + i.length), cycles := s.cycles + Instr.cycles i
      hidden := { s.passBoundary.hidden with ir := s.byteAt s.pc } } := by
  have hop := fetch8_passBoundary_storage hp
  have hbyte : s.passBoundary.fetch8.1 = s.byteAt s.pc := by rw [hop]
  rcases decode_pair_cases h with ⟨hform, hlen⟩ | ⟨f, hform, rfl, hlen⟩
  · rw [step_of_one hs (hbyte ▸ hform), hop, hlen, ofNat_toNat_add]
  · have hnext := fetch8_fetch8_passBoundary_storage hp (hn hlen)
    rw [step_of_two hs (hbyte ▸ hform), hnext, hop, hlen, ofNat_toNat_add, BitVec.add_assoc]
    rfl

/-- Settles O48, by the format of the opcode fetched: one claim for any fetch, one for a fetch from storage. -/
theorem stepRunsTheDecodedInstruction : Obligations.StepRunsTheDecodedInstruction :=
  ⟨fun _ _ _ hs h => step_of_decode_fetched hs h, fun _ _ _ hs hp hn h => step_of_decode_stored hs hp hn h⟩

end Sys2Proof.Proofs
end

section
/-! PROOFS. CC as a byte (`10_state.md` R15 to R17, D2, D14): the flags are its low five bits, the high three are read
as `CC_HI` and dropped when written. -/

namespace Sys2Proof.Proofs

open Sys2Proof.Machine Sys2Proof.Laws

/-- Above the five flags, CC read as a byte holds `CC_HI` (R15). -/
theorem toByte_toNat_div (cc : CC) (hi : BitVec 3) : (cc.toByte hi).toNat / 32 = hi.toNat := by
  unfold CC.toByte
  generalize BitVec.ofBool cc.i ++ BitVec.ofBool cc.n ++ BitVec.ofBool cc.z ++ BitVec.ofBool cc.v ++
    BitVec.ofBool cc.c = low
  have hlow : low.toNat < 32 := low.isLt
  have happend : (BitVec.append hi low).toNat = hi.toNat * 32 + low.toNat := by
    rw [BitVec.append_eq, BitVec.toNat_append, ← Nat.shiftLeft_add_eq_or_of_lt low.isLt, Nat.shiftLeft_eq]
  rw [happend]
  omega

/-- Bit `k` of a byte, as the claims write it. -/
theorem getLsbD_eq_decide (v : Byte) (k : Nat) : v.getLsbD k = decide (v.toNat / 2 ^ k % 2 = 1) :=
  Nat.testBit_eq_decide_div_mod_eq

/-- The flags that a byte written to CC sets (R16), by its value. -/
theorem ofByte_eq (v : Byte) :
    CC.ofByte v = ⟨v.toNat / 16 % 2 = 1, v.toNat / 8 % 2 = 1, v.toNat / 4 % 2 = 1, v.toNat / 2 % 2 = 1,
      v.toNat % 2 = 1⟩ := by
  simp only [CC.ofByte, getLsbD_eq_decide, Nat.reducePow, Nat.div_one]

/-- Bits 7 to 5 of a byte written to CC are dropped (R16). -/
theorem ofByte_congr {v w : Byte} (h : v.toNat % 32 = w.toNat % 32) : CC.ofByte v = CC.ofByte w := by
  have h16 : v.toNat / 16 % 2 = w.toNat / 16 % 2 := by omega
  have h8 : v.toNat / 8 % 2 = w.toNat / 8 % 2 := by omega
  have h4 : v.toNat / 4 % 2 = w.toNat / 4 % 2 := by omega
  have h2 : v.toNat / 2 % 2 = w.toNat / 2 % 2 := by omega
  have h1 : v.toNat % 2 = w.toNat % 2 := by omega
  rw [ofByte_eq, ofByte_eq, h16, h8, h4, h2, h1]

/-- Writing back what was read leaves only the count of the read (R17). -/
theorem ccWrite_ccRead (s : State) : s.ccRead.2.ccWrite s.ccRead.1 = s.ccRead.2 := by
  simp [State.ccWrite, State.ccRead]

/-- Settles O10: the flags read are those that writing the byte back sets (`ofByte_toByte`). -/
theorem conditionCodesAsByte : Obligations.ConditionCodesAsByte := by
  refine ⟨fun s => ⟨?_, toByte_toNat_div s.cc _, rfl, ccWrite_ccRead s⟩, fun s v w h => ?_, fun s v => ?_⟩
  · have h : CC.ofByte s.ccRead.1 = s.cc := ofByte_toByte s.cc _
    exact ⟨congrArg CC.i h, congrArg CC.n h, congrArg CC.z h, congrArg CC.v h, congrArg CC.c h⟩
  · rw [State.ccWrite, State.ccWrite, ofByte_congr h]
  · rw [State.ccWrite, ofByte_eq]

end Sys2Proof.Proofs
end

section
/-! PROOFS. What a step does not depend on: the interrupt line where I = 1 (`10_state.md` R18, `60_exceptions.md` R255,
D3), and the hidden registers (`10_state.md` R21, `49_alu_and_control_signals.md` R233). -/

namespace Sys2Proof.Proofs

open Sys2Proof.Machine Sys2Proof.Laws

/-- With I = 1 no interrupt is accepted, whatever the line (R255). -/
theorem irqAccepted_of_masked {s : State} (h : s.cc.i = true) : s.irqAccepted = false := by
  simp [State.irqAccepted, h]

/-- At a boundary with I = 1 the step takes from the sampled inputs nothing but reset. -/
theorem step_of_masked {s : State} (hphase : s.phase = .newFetch) (hi : s.cc.i = true) :
    step s = if s.resetActive then .next s.passBoundary.resetSequence
      else exec s.passBoundary.fetchInstr.1 s.passBoundary.fetchInstr.2 := by
  cases hr : s.resetActive with
  | true => exact step_of_resetActive hphase hr
  | false => exact step_of_instruction hphase hr (irqAccepted_of_masked hi)

/-- Settles O46: the two states agree in the reset sample, and past the boundary, which uses the sample up, they are
the same state. -/
theorem maskedInterruptIsInvisible : Obligations.MaskedInterruptIsInvisible := by
  intro s l r hphase hi
  let past : State := { s.countStep with inputs := l }
  have hstep (irq : Bool) : step { s with inputs := ⟨r, irq⟩ :: l } =
      if r then .next past.resetSequence else exec past.fetchInstr.1 past.fetchInstr.2 :=
    step_of_masked (s := { s with inputs := ⟨r, irq⟩ :: l }) hphase hi
  rw [hstep true, hstep false]

/-- The count of a step sets every hidden register, so what they held is gone (R21, R233). -/
theorem countStep_withHidden (s : State) (h : Hidden) : { s with hidden := h }.countStep = s.countStep := rfl

theorem passBoundary_withHidden (s : State) (h : Hidden) :
    { s with hidden := h }.passBoundary = s.passBoundary := rfl

/-- Settles O57: each kind of step begins with a count that overwrites the hidden registers, and neither the phase
nor the inputs, which choose the kind, are among them. -/
theorem hiddenRegistersAreUnobservable : Obligations.HiddenRegistersAreUnobservable := by
  intro s h
  unfold step
  rw [countStep_withHidden, passBoundary_withHidden]
  rfl

end Sys2Proof.Proofs
end

section
/-! PROOFS. What each instruction leaves alone (`10_state.md` R10, R14), built up operation by operation: a frame says
which of the registers A, X, Y, SP and PC may differ between two states, and each named operation extends it. -/

namespace Sys2Proof.Proofs

open Sys2Proof.Machine Sys2Proof.Safety Sys2Proof.Laws

/-- The state that an instruction leads to is the one the claims name. -/
theorem after_eq {i : Instr} {s t : State} (h : exec i s = .next t) : after i s = t := by
  simp [after, h]

/-- A read touches what belongs to the ports only. -/
theorem memRead_snd_eq (s : State) (adr : Byte) :
    (s.memRead adr).2 = { s with portIn := (s.memRead adr).2.portIn, ports := (s.memRead adr).2.ports } := by
  unfold State.memRead; split <;> rfl

/-! ### The frame and the operations -/

/-- From `s` to `t`, A, X, Y, SP and PC change only where the register's flag allows it, and what belongs to the
step and not to an instruction's meaning (log entries 6, 9, 12, 13, 19) does not change. -/
structure RegisterFrame (wA wX wY wSP wPC : Bool) (s t : State) : Prop where
  a : wA = false → t.a = s.a
  x : wX = false → t.x = s.x
  y : wY = false → t.y = s.y
  sp : wSP = false → t.sp = s.sp
  pc : wPC = false → t.pc = s.pc
  phase : t.phase = s.phase
  inputs : t.inputs = s.inputs
  readOnly : t.readOnly = s.readOnly
  boundary : t.boundary = s.boundary
  cycles : t.cycles = s.cycles
  hidden : t.hidden = s.hidden

namespace RegisterFrame

theorem refl {s : State} : RegisterFrame false false false false false s s :=
  ⟨fun _ => rfl, fun _ => rfl, fun _ => rfl, fun _ => rfl, fun _ => rfl, rfl, rfl, rfl, rfl, rfl, rfl⟩

variable {wA wX wY wSP wPC : Bool} {s t : State}

/-! Writing a register, or CC, which the frame does not speak of. -/

theorem setA (h : RegisterFrame wA wX wY wSP wPC s t) {v : Byte} :
    RegisterFrame true wX wY wSP wPC s { t with a := v } :=
  { h with a := nofun }

theorem setX (h : RegisterFrame wA wX wY wSP wPC s t) {v : Byte} :
    RegisterFrame wA true wY wSP wPC s { t with x := v } :=
  { h with x := nofun }

theorem setY (h : RegisterFrame wA wX wY wSP wPC s t) {v : Byte} :
    RegisterFrame wA wX true wSP wPC s { t with y := v } :=
  { h with y := nofun }

theorem setSP (h : RegisterFrame wA wX wY wSP wPC s t) {v : Byte} :
    RegisterFrame wA wX wY true wPC s { t with sp := v } :=
  { h with sp := nofun }

theorem setPC (h : RegisterFrame wA wX wY wSP wPC s t) {v : Byte} :
    RegisterFrame wA wX wY wSP true s { t with pc := v } :=
  { h with pc := nofun }

theorem setCC (h : RegisterFrame wA wX wY wSP wPC s t) {cc : CC} :
    RegisterFrame wA wX wY wSP wPC s { t with cc := cc } :=
  { h with }

/-! The named operations: accesses to memory and to CC change no register, a push and a pull change SP. -/

theorem ccRead (h : RegisterFrame wA wX wY wSP wPC s t) : RegisterFrame wA wX wY wSP wPC s t.ccRead.2 :=
  { h with }

theorem memRead (h : RegisterFrame wA wX wY wSP wPC s t) {adr : Byte} :
    RegisterFrame wA wX wY wSP wPC s (t.memRead adr).2 := by
  rw [memRead_snd_eq]; exact { h with }

theorem memWrite (h : RegisterFrame wA wX wY wSP wPC s t) {adr v : Byte} :
    RegisterFrame wA wX wY wSP wPC s (t.memWrite adr v) := by
  rw [memWrite_eq]; exact { h with }

theorem push (h : RegisterFrame wA wX wY wSP wPC s t) {v : Byte} : RegisterFrame wA wX wY true wPC s (t.push v) :=
  h.setSP.memWrite

theorem pull (h : RegisterFrame wA wX wY wSP wPC s t) : RegisterFrame wA wX wY true wPC s t.pull.2 :=
  h.memRead.setSP

theorem enter (h : RegisterFrame wA wX wY wSP wPC s t) {vector returnPc : Byte} {setI : Bool} :
    RegisterFrame wA wX wY true true s (t.enter vector returnPc setI) :=
  have hframe := h.push (v := returnPc) |>.push (v := t.y) |>.push (v := t.x) |>.push (v := t.a)
  hframe.ccRead.push.setCC.memRead.setPC

theorem returnFromException (h : RegisterFrame wA wX wY wSP wPC s t) :
    RegisterFrame true true true true true s t.returnFromException :=
  h.pull.setCC.pull.setA.pull.setX.pull.setY.pull.setPC

theorem branch (h : RegisterFrame wA wX wY wSP wPC s t) {taken : Bool} {off : Byte} :
    RegisterFrame wA wX wY wSP true s (t.branch taken off) := by
  rw [branch_eq]; exact h.setPC

/-! The addresses of the modes: X and Y change in the auto modes only (R62 to R65), which the one-operand, the
two-operand and the jump groups do not have (R67). -/

theorem ea {m : AddrMode} : RegisterFrame false (stepsX m) (stepsY m) false false s (s.ea m).2 where
  a _ := ea_snd_a s m
  x := ea_snd_x
  y := ea_snd_y
  sp _ := ea_snd_sp s m
  pc _ := ea_snd_pc s m
  phase := ea_snd_phase s m
  inputs := ea_snd_inputs s m
  readOnly := ea_snd_readOnly s m
  boundary := ea_snd_boundary s m
  cycles := ea_snd_cycles s m
  hidden := ea_snd_hidden s m

theorem eaUnary {m : AddrMode} (h : m.isUnary = true) : RegisterFrame false false false false false s (s.ea m).2 := by
  rw [ea_snd_of_isUnary h]; exact refl

theorem eaJump {m : AddrMode} (h : m.isJump = true) : RegisterFrame false false false false false s (s.ea m).2 := by
  rw [ea_snd_of_isJump h]; exact refl

theorem operandBinary {o : Operand} (h : o.isBinary = true) :
    RegisterFrame false false false false false s (s.operand o).2 where
  a _ := operand_snd_a s o
  x _ := (operand_snd_xy_of_isBinary h).1
  y _ := (operand_snd_xy_of_isBinary h).2
  sp _ := operand_snd_sp s o
  pc _ := operand_snd_pc s o
  phase := operand_snd_phase s o
  inputs := operand_snd_inputs s o
  readOnly := operand_snd_readOnly s o
  boundary := operand_snd_boundary s o
  cycles := operand_snd_cycles s o
  hidden := operand_snd_hidden s o

end RegisterFrame

/-! ### The modes of LEAX, LEAY and LEASP -/

theorem isUnary_of_isLeaX {m : AddrMode} (h : m.isLeaX = true) : m.isUnary = true := by
  cases m <;> first | rfl | cases h

theorem isUnary_of_isLeaY {m : AddrMode} (h : m.isLeaY = true) : m.isUnary = true := by
  cases m <;> first | rfl | cases h

theorem isUnary_of_isLeaSP {m : AddrMode} (h : m.isLeaSP = true) : m.isUnary = true := by
  cases m <;> first | rfl | cases h

/-! ### The instructions -/

/-- The column "written by" of R10 holds of every well-formed instruction: its meaning is a chain of the operations
above, and the registers that the chain writes are those of the column. -/
theorem after_frame (i : Instr) (s : State) (hwf : i.wf = true) :
    RegisterFrame (writesA i) (writesX i) (writesY i) (writesSP i) (writesPC i) s (after i s) := by
  cases i with
  | lda o =>
    cases o with
    | im d => exact RegisterFrame.refl.setA.setCC
    | mem m => exact RegisterFrame.ea.memRead.setA.setCC
  | ldx o => exact (RegisterFrame.operandBinary hwf).setX (v := (s.operand o).1) |>.setCC
  | ldy o => exact (RegisterFrame.operandBinary hwf).setY (v := (s.operand o).1) |>.setCC
  | ldsp o => exact (RegisterFrame.operandBinary hwf).setSP (v := (s.operand o).1) |>.setCC
  | leax m => exact (RegisterFrame.eaUnary (isUnary_of_isLeaX hwf)).setX
  | leay m => exact (RegisterFrame.eaUnary (isUnary_of_isLeaY hwf)).setY
  | leasp m => exact (RegisterFrame.eaUnary (isUnary_of_isLeaSP hwf)).setSP
  | sta m => exact RegisterFrame.ea.memWrite
  | stx m | sty m | stsp m => exact (RegisterFrame.eaUnary hwf).memWrite
  | tfrAcc | andcc d | orcc d | tsta => exact RegisterFrame.refl.setCC
  | tfrCcA => exact RegisterFrame.refl.ccRead.setA
  | tfrYX | tfrSpX => exact RegisterFrame.refl.setX
  | tfrXY | tfrSpY => exact RegisterFrame.refl.setY
  | tfrXSp | tfrYSp => exact RegisterFrame.refl.setSP
  | exgAcc => exact RegisterFrame.refl.ccRead.setCC.setA
  | exgXY => exact RegisterFrame.refl.setX (v := s.y) |>.setY
  | exgXSp => exact RegisterFrame.refl.setX (v := s.sp) |>.setSP
  | exgYSp => exact RegisterFrame.refl.setY (v := s.sp) |>.setSP
  | jmp m => exact (RegisterFrame.eaJump hwf).setPC
  | jsr m => exact (RegisterFrame.eaJump hwf).push.setPC
  | bsr off => exact RegisterFrame.refl.push.setPC
  | bra off | bmi off | bpl off | beq off | bne off | bvs off | bvc off | bcs off | bcc off | bhi off | bls off
  | bgt off | bge off | ble off | blt off => exact RegisterFrame.refl.branch
  | rts => exact RegisterFrame.refl.pull.setPC
  | rti => exact RegisterFrame.refl.returnFromException
  | adda o | adca o | suba o | sbca o | anda o | ora o | eora o => exact (RegisterFrame.operandBinary hwf).setA.setCC
  | clra | nega | deca | inca | coma | lsla | lsra | asra | rola | rora => exact RegisterFrame.refl.setA.setCC
  | clr m => exact (RegisterFrame.eaUnary hwf).memWrite.setCC
  | neg m | dec m | inc m | com m | lsl m | lsr m | asr m | rol m | ror m =>
    exact (RegisterFrame.eaUnary hwf).memRead.memWrite.setCC
  | cmpa o | bita o => exact (RegisterFrame.operandBinary hwf).setCC
  | cmpx o | cmpy o => exact (RegisterFrame.operandBinary (isBinary_of_isCmpXY hwf)).setCC
  | cmpsp o => exact (RegisterFrame.operandBinary (isBinary_of_isCmpSP hwf)).setCC
  | tst m => exact (RegisterFrame.eaUnary hwf).memRead.setCC
  | psha | pshx | pshy => exact RegisterFrame.refl.push
  | pshcc => exact RegisterFrame.refl.ccRead.push
  | pula => exact RegisterFrame.refl.pull.setA
  | pulx => exact RegisterFrame.refl.pull.setX
  | puly => exact RegisterFrame.refl.pull.setY
  | pulcc => exact RegisterFrame.refl.pull.setCC
  | nop => exact RegisterFrame.refl
  | notImplemented op => exact RegisterFrame.refl.enter

/-- Settles O55, by the frame of the state that the instruction leads to. -/
theorem instructionsWriteOnlyTheirRegisters : Obligations.InstructionsWriteOnlyTheirRegisters := by
  intro i s t hwf h
  rw [← after_eq h]
  obtain ⟨ha, hx, hy, hsp, hpc, hphase, hinputs, hreadOnly, hboundary, hcycles, hhidden⟩ := after_frame i s hwf
  exact ⟨ha, hx, hy, hsp, hpc, hphase, hinputs, hreadOnly, hboundary, hcycles, hhidden⟩

end Sys2Proof.Proofs
end

section
/-! PROOFS. The flag table (`10_state.md` R19) over all instructions: the ways in which a meaning writes CC, each with
the rows of the table that it satisfies. -/

namespace Sys2Proof.Proofs

open Sys2Proof.Machine Sys2Proof.Safety Sys2Proof.Laws

theorem storeAt_cc (s : State) (m : AddrMode) (v : Byte) : (s.storeAt m v).cc = s.cc := by
  rw [storeAt_eq, ea_snd_cc]

theorem branch_cc (s : State) (taken : Bool) (off : Byte) : (s.branch taken off).cc = s.cc := by
  rw [branch_eq]

/-- Bit 7 of a logical shift to the right is the bit shifted in, so with 0 shifted in N is 0 (R194, R195). -/
theorem shr_n (d : Byte) (cin : Bool) : (shr d cin).n = cin := by
  cases cin <;> simp [shr, Byte.sign]

/-- A row of the flag table allows a change of CC: each of its five cells allows its flag's. -/
structure RowAllows (m : Marks) (old new : CC) : Prop where
  i : m.i.allows old.i new.i
  n : m.n.allows old.n new.n
  z : m.z.allows old.z new.z
  v : m.v.allows old.v new.v
  c : m.c.allows old.c new.c

namespace RowAllows

/-! ### The ways of writing CC -/

theorem unchanged {old new : CC} (h : new = old) : RowAllows ⟨.kept, .kept, .kept, .kept, .kept⟩ old new :=
  h ▸ ⟨rfl, rfl, rfl, rfl, rfl⟩

theorem wholeWrite {old new : CC} : RowAllows ⟨.set, .set, .set, .set, .set⟩ old new :=
  ⟨trivial, trivial, trivial, trivial, trivial⟩

variable {cc : CC}

theorem withNZVC {o : Result} : RowAllows ⟨.kept, .set, .set, .set, .set⟩ cc (cc.withNZVC o) :=
  ⟨rfl, trivial, trivial, trivial, trivial⟩

theorem withNZV {o : Result} : RowAllows ⟨.kept, .set, .set, .set, .kept⟩ cc (cc.withNZV o) :=
  ⟨rfl, trivial, trivial, trivial, rfl⟩

theorem withNZ0 {r : Byte} : RowAllows ⟨.kept, .set, .set, .zero, .kept⟩ cc (cc.withNZ0 r) :=
  ⟨rfl, trivial, trivial, rfl, rfl⟩

theorem withNZ00 {r : Byte} : RowAllows ⟨.kept, .set, .set, .zero, .zero⟩ cc (cc.withNZ00 r) :=
  ⟨rfl, trivial, trivial, rfl, rfl⟩

theorem cleared : RowAllows ⟨.kept, .zero, .one, .zero, .zero⟩ cc cc.cleared :=
  ⟨rfl, rfl, rfl, rfl, rfl⟩

theorem withShr {d : Byte} : RowAllows ⟨.kept, .zero, .set, .set, .set⟩ cc (cc.withNZVC (shr d false)) :=
  ⟨rfl, shr_n d false, trivial, trivial, trivial⟩

/-- An arithmetic shift to the right clears V (R190, R191). -/
theorem withSar {d : Byte} : RowAllows ⟨.kept, .set, .set, .zero, .set⟩ cc (cc.withNZVC (sar d)) :=
  ⟨rfl, trivial, trivial, rfl, trivial⟩

/-! ### The states in which CC is written -/

variable {m : Marks} {s : State}

/-- The access to an operand changes no flag, so CC is the old one where the meaning sets its flags (R38). -/
theorem operand {o : Operand} {g : CC → CC} (h : ∀ cc, RowAllows m cc (g cc)) :
    RowAllows m s.cc (g (s.operand o).2.cc) := by
  rw [operand_snd_cc]; exact h s.cc

/-- A read-modify-write form sets CC by its flag function (R163). -/
theorem modify {a : AddrMode} {f : Byte → CC → Byte} {g : Byte → CC → CC} (h : ∀ d cc, RowAllows m cc (g d cc)) :
    RowAllows m s.cc (s.modify a f g).cc := by
  rw [modify_eq]; exact h _ s.cc

/-- The trap keeps all flags but I, which it sets where `TRAP_SETS_I` (R252, D5). -/
theorem trap : RowAllows ⟨.trap, .kept, .kept, .kept, .kept⟩ s.cc s.trap.cc := by
  have hcc : s.trap.cc = { s.cc with i := s.cc.i || Config.trapSetsI } := enter_cc s _ _ _
  rw [hcc]
  refine ⟨?_, rfl, rfl, rfl, rfl⟩
  cases hset : Config.trapSetsI <;> simp [Mark.allows, hset]

end RowAllows

/-! ### The instructions -/

/-- Every instruction writes CC in one of the ways above, and the way satisfies the instruction's row. -/
theorem marks_allow_after (i : Instr) (s : State) : RowAllows (marks i) s.cc (after i s).cc := by
  cases i with
  | adda o | adca o | suba o | sbca o | cmpa o | cmpx o | cmpy o | cmpsp o =>
    exact .operand fun _ => .withNZVC
  | lda o | ldx o | ldy o | ldsp o | anda o | ora o | eora o | bita o => exact .operand fun _ => .withNZ0
  | nega | lsla | rola | rora => exact .withNZVC
  | neg m | lsl m | rol m | ror m => exact .modify fun _ _ => .withNZVC
  | inca | deca => exact .withNZV
  | inc m | dec m => exact .modify fun _ _ => .withNZV
  | clra | clr m => exact .cleared
  | tsta => exact .withNZ00
  | tst m => exact .operand fun _ => .withNZ00
  | coma => exact .withNZ0
  | com m => exact .modify fun _ _ => .withNZ0
  | lsra => exact .withShr
  | lsr m => exact .modify fun _ _ => .withShr
  | asra => exact .withSar
  | asr m => exact .modify fun _ _ => .withSar
  | andcc d | orcc d | tfrAcc | exgAcc | pulcc | rti => exact .wholeWrite
  | notImplemented op => exact .trap
  | sta m | stx m | sty m | stsp m => exact .unchanged (storeAt_cc s m _)
  | leax m | leay m | leasp m | jmp m => exact .unchanged (ea_snd_cc s m)
  | jsr m => exact .unchanged ((push_cc _ _).trans (ea_snd_cc s m))
  | bsr off => exact .unchanged (push_cc s _)
  | bra off | bmi off | bpl off | beq off | bne off | bvs off | bvc off | bcs off | bcc off | bhi off | bls off
  | bgt off | bge off | ble off | blt off => exact .unchanged (branch_cc s _ off)
  | psha | pshx | pshy => exact .unchanged (push_cc s _)
  | pshcc => exact .unchanged (push_cc s.ccRead.2 _)
  | rts | pula | pulx | puly => exact .unchanged (pull_snd_cc s)
  | tfrCcA | tfrXY | tfrYX | tfrXSp | tfrSpX | tfrYSp | tfrSpY | exgXY | exgXSp | exgYSp | nop =>
    exact .unchanged rfl

/-- Settles O56, by the row of the state that the instruction leads to. -/
theorem flagsFollowTheFlagTable : Obligations.FlagsFollowTheFlagTable := by
  intro i s t h
  rw [← after_eq h]
  obtain ⟨hi, hn, hz, hv, hc⟩ := marks_allow_after i s
  exact ⟨hi, hn, hz, hv, hc⟩

end Sys2Proof.Proofs
end

section
/-! PROOFS. One read and one write of memory (`20_memory.md` R30, R31, R34): a port, writable storage, and storage
that is not writable. -/

namespace Sys2Proof.Proofs

open Sys2Proof.Machine Sys2Proof.Safety Sys2Proof.Laws

/-! ### The answer of a port -/

theorem portAnswer_of_cons {s : State} {v : Byte} {l : List Byte} (h : s.portIn = v :: l) (adr : Byte) :
    s.portAnswer adr = v := by
  simp [State.portAnswer, h]

theorem portAnswer_of_nil {s : State} (h : s.portIn = []) (adr : Byte) :
    s.portAnswer adr = Config.ioRead adr s.ports := by
  simp [State.portAnswer, h]

/-- Settles O5: at a port the value is `portAnswer`, whose two cases are those of the schedule. -/
theorem readAsksThePortOrTheStorage : Obligations.ReadAsksThePortOrTheStorage := by
  intro s adr
  refine ⟨fun hp => ⟨s.portAnswer adr, memRead_port hp, fun w l h => ?_, fun h => ?_⟩, memRead_storage⟩
  · exact portAnswer_of_cons h adr
  · exact portAnswer_of_nil h adr

/-! ### A write, as a read sees it -/

/-- A read of writable storage just written gives the byte and changes nothing. -/
theorem memRead_memWrite_same {s : State} {adr : Byte} (v : Byte) (h : Stores s adr) :
    (s.memWrite adr v).memRead adr = (v, s.memWrite adr v) := by
  rw [memRead_storage h.1, memWrite_byteAt_same v h]

/-- With the old memory and trace put back, nothing of a write is left. -/
theorem memWrite_withOld (s : State) (adr v : Byte) :
    { s.memWrite adr v with mem := s.mem, ports := s.ports } = s := by
  rw [memWrite_eq]

/-- Settles O6, by the three cases of a write and its frame. -/
theorem writeStoresOrOutputs : Obligations.WriteStoresOrOutputs :=
  fun s adr v => ⟨memWrite_port v, memRead_memWrite_same v, memWrite_denied v,
    fun _ => memWrite_byteAt_other v, memWrite_withOld s adr v⟩

end Sys2Proof.Proofs
end

section
/-! PROOFS. Instructions whose operand is a port (`20_memory.md` R34, R37): one access each, COM two. -/

namespace Sys2Proof.Proofs

open Sys2Proof.Machine Sys2Proof.Safety Sys2Proof.Laws

/-! ### The flags of a byte, as the claims write them -/

theorem sign_eq_decide (r : Byte) : r.sign = decide (Negative r) := by
  rw [Bool.eq_iff_iff, sign_iff, decide_eq_true_iff]

theorem beq_zero_eq_decide (r : Byte) : (r == 0#8) = decide (IsZero r) := by
  rw [Bool.eq_iff_iff, beq_iff_eq, decide_eq_true_iff, ← BitVec.toNat_inj]
  rfl

theorem withNZ0_eq_flags (cc : CC) (r : Byte) :
    cc.withNZ0 r = flags cc (Negative r) (IsZero r) False (cc.c = true) := by
  simp only [CC.withNZ0, nz, flags, sign_eq_decide, beq_zero_eq_decide, decide_false, Bool.decide_eq_true]

theorem cleared_eq_flags (cc : CC) : cc.cleared = flags cc False True False False := rfl

/-! ### The port's accesses -/

/-- A read of a port takes the next scheduled answer. -/
theorem memRead_port_scheduled {s : State} {adr v : Byte} {l : List Byte} (hp : Port adr) (h : s.portIn = v :: l) :
    s.memRead adr = (v, { s with portIn := l, ports := s.ports ++ [.input adr v] }) := by
  rw [memRead_port hp, portAnswer_of_cons h, h, List.tail_cons]

section
variable {s : State} {adr v : Byte} {l : List Byte}

theorem lda_port (hp : Port adr) (h : s.portIn = v :: l) :
    after (.lda (.mem (.ab adr))) s =
      { s with a := v, portIn := l, ports := s.ports ++ [.input adr v], cc := s.cc.withNZ0 v } := by
  simp [after, exec, execLda, State.operand, State.ea, memRead_port_scheduled hp h]

theorem sta_port (hp : Port adr) :
    after (.sta (.ab adr)) s = { s with ports := s.ports ++ [.output adr s.a] } :=
  memWrite_port s.a hp

theorem clr_port (hp : Port adr) :
    after (.clr (.ab adr)) s = { s with ports := s.ports ++ [.output adr 0#8], cc := s.cc.cleared } := by
  simp [after, exec, execClr, State.storeAt, State.ea, memWrite_port _ hp]

/-- The read comes before the write, so the trace has the answer and then its complement (R163). -/
theorem com_port (hp : Port adr) (h : s.portIn = v :: l) :
    after (.com (.ab adr)) s =
      { s with portIn := l, ports := s.ports ++ [.input adr v, .output adr (~~~v)], cc := s.cc.withNZ0 (~~~v) } := by
  simp [after, exec, execCom, State.modify, State.ea, memRead_port_scheduled hp h, memWrite_port _ hp]

end

/-- Settles O8, instruction by instruction; what is left is the claims' way of writing the flags. -/
theorem portInstructionsReachThePeripheral : Obligations.PortInstructionsReachThePeripheral := by
  intro s adr v l hp h
  rw [lda_port hp h, sta_port hp, clr_port hp, com_port hp h, withNZ0_eq_flags, withNZ0_eq_flags,
    cleared_eq_flags]
  exact ⟨rfl, rfl, rfl, rfl⟩

end Sys2Proof.Proofs
end

section
/-! PROOFS. All that an instruction and a step do to memory and ports (`20_memory.md` R31, R34, R40, R45): a chain of
reads and writes. The chain is shown once for every instruction and for every kind of step; what a single read and a
single write keep is then kept by all of them. -/

namespace Sys2Proof.Proofs

open Sys2Proof.Machine Sys2Proof.Safety Sys2Proof.Laws

/-- The addresses of an exception frame below `sp` (R262). -/
def frameSlots (sp : Byte) : List Byte :=
  [sp - 1#8, sp - 2#8, sp - 3#8, sp - 4#8, sp - 5#8]

theorem storedTo_notImplemented (op : Byte) (s : State) : storedTo (.notImplemented op) s = frameSlots s.sp := rfl

/-- `t` comes from `s` by reads, by writes to addresses of `stores`, and by updates of other fields. -/
inductive Accesses (stores : List Byte) (s : State) : State → Prop
  /-- no access -/
  | start : Accesses stores s s
  /-- one more read, at any address -/
  | read {t : State} {adr : Byte} (h : Accesses stores s t) : Accesses stores s (t.memRead adr).2
  /-- one more write, at an address of `stores` -/
  | write {t : State} {adr v : Byte} (h : Accesses stores s t) (hadr : adr ∈ stores) :
    Accesses stores s (t.memWrite adr v)
  /-- an update that touches neither memory, nor what belongs to the ports, nor what is writable -/
  | update {t u : State} (h : Accesses stores s t) (mem : u.mem = t.mem) (ports : u.ports = t.ports)
    (portIn : u.portIn = t.portIn) (readOnly : u.readOnly = t.readOnly) : Accesses stores s u

namespace Accesses

variable {stores : List Byte} {s t u : State}

theorem trans (h : Accesses stores s t) (h' : Accesses stores t u) : Accesses stores s u := by
  induction h' with
  | start => exact h
  | read _ ih => exact ih.read
  | write _ hadr ih => exact ih.write hadr
  | update _ hm hp hi hr ih => exact ih.update hm hp hi hr

/-- Writing registers or CC, and counting cycles, is no access. -/
theorem registers (h : Accesses stores s t) {a x y sp pc : Byte} {cc : CC} {cycles : Nat} :
    Accesses stores s { t with a := a, x := x, y := y, sp := sp, pc := pc, cc := cc, cycles := cycles } :=
  h.update rfl rfl rfl rfl

/-! ### The named operations, as chains -/

theorem ccRead (h : Accesses stores s t) : Accesses stores s t.ccRead.2 :=
  h.update rfl rfl rfl rfl

theorem ea (h : Accesses stores s t) {m : AddrMode} : Accesses stores s (t.ea m).2 :=
  h.update (ea_snd_mem t m) (ea_snd_ports t m) (ea_snd_portIn t m) (ea_snd_readOnly t m)

theorem operand (h : Accesses stores s t) {o : Operand} : Accesses stores s (t.operand o).2 := by
  cases o with
  | im d => exact h
  | mem m => exact h.ea.read

theorem storeAt (h : Accesses stores s t) {m : AddrMode} {v : Byte} (hadr : (t.ea m).1 ∈ stores) :
    Accesses stores s (t.storeAt m v) :=
  h.ea.write hadr

theorem branch (h : Accesses stores s t) {taken : Bool} {off : Byte} : Accesses stores s (t.branch taken off) := by
  rw [branch_eq]; exact h.registers

theorem fetch8 (h : Accesses stores s t) : Accesses stores s t.fetch8.2 :=
  h.read.registers

theorem push (h : Accesses stores s t) {v : Byte} (hadr : t.sp - 1#8 ∈ stores) : Accesses stores s (t.push v) :=
  h.registers.write hadr

theorem pull (h : Accesses stores s t) : Accesses stores s t.pull.2 :=
  h.read.registers

/-- Exception entry stores the five bytes of its frame (R253, R262) and reads the vector. -/
theorem enter (h : Accesses stores s t) {vector returnPc : Byte} {setI : Bool}
    (hframe : frameSlots t.sp ⊆ stores) :
    Accesses stores s (t.enter vector returnPc setI) := by
  have hpc := h.push (v := returnPc) (hframe (by simp [frameSlots]))
  have hy := hpc.push (v := t.y) (hframe (by simp [frameSlots, BitVec.sub_sub]))
  have hx := hy.push (v := t.x) (hframe (by simp [frameSlots, BitVec.sub_sub]))
  have ha := hx.push (v := t.a) (hframe (by simp [frameSlots, BitVec.sub_sub]))
  refine (ha.ccRead.push (hframe ?_)).registers.read.registers
  simp [frameSlots, BitVec.sub_sub]

/-- The return from an exception is five pulls (R141). -/
theorem returnFromException (h : Accesses stores s t) : Accesses stores s t.returnFromException :=
  h.pull.registers.pull.registers.pull.registers.pull.registers.pull.registers

theorem irqEntry (h : Accesses stores s t) (hframe : frameSlots t.sp ⊆ stores) : Accesses stores s t.irqEntry := by
  rw [irqEntry_eq]
  exact (h.enter hframe).registers

/-- The reset sequence reads its vector and pushes nothing (R280). -/
theorem resetSequence (h : Accesses stores s t) : Accesses stores s t.resetSequence :=
  (h.read (adr := Config.resetVector)).update rfl rfl rfl rfl

theorem countStep (h : Accesses stores s t) : Accesses stores s t.countStep :=
  h.update rfl rfl rfl rfl

theorem passBoundary (h : Accesses stores s t) : Accesses stores s t.passBoundary :=
  h.update rfl rfl rfl rfl

/-- The fetch of an instruction reads its opcode and, in a two-byte format, its operand (R4, R51). -/
theorem fetchInstr (h : Accesses stores s t) : Accesses stores s t.fetchInstr.2 := by
  cases hform : formOf t.fetch8.1 with
  | one i => rw [fetchInstr_of_one hform]; exact h.fetch8.update rfl rfl rfl rfl
  | two f => rw [fetchInstr_of_two hform]; exact h.fetch8.fetch8.update rfl rfl rfl rfl

/-! ### What a chain keeps -/

/-- The canonical form and the trace of ports only (R31, R34). -/
theorem keep_inv (h : Accesses stores s t) (hs : MemoryInv s) : MemoryInv t := by
  induction h with
  | start => exact hs
  | read _ ih => exact memRead_inv _ ih
  | write _ _ ih => exact memWrite_inv _ _ ih
  | update _ hm hp _ _ ih => exact (inv_congr hm hp).2 ih

/-- What is writable is the platform's and never changes (D18). -/
theorem keep_readOnly (h : Accesses stores s t) : t.readOnly = s.readOnly := by
  induction h with
  | start => rfl
  | read _ ih => rw [memRead_snd_readOnly, ih]
  | write _ _ ih => rw [memWrite_readOnly, ih]
  | update _ _ _ _ hr ih => rw [hr, ih]

/-- A byte that is not writable: a write to it is dropped (R31). -/
theorem keep_byteAt_readOnly (h : Accesses stores s t) {b : Byte} (hb : b ∈ s.readOnly) :
    t.byteAt b = s.byteAt b := by
  induction h with
  | start => rfl
  | read _ ih => rw [memRead_snd_byteAt, ih]
  | @write t adr v h _ ih =>
    have hdrop : (t.memWrite adr v).byteAt b = t.byteAt b := by
      by_cases hadr : b = adr
      · subst hadr; exact (memWrite_wrote t b v).dropped (h.keep_readOnly ▸ hb)
      · exact memWrite_byteAt_other v hadr
    rw [hdrop, ih]
  | update _ hm _ _ _ ih => rw [byteAt_congr hm, ih]

/-- A byte outside `stores`: no write of the chain is to it. -/
theorem keep_byteAt_other (h : Accesses stores s t) {b : Byte} (hb : b ∉ stores) : t.byteAt b = s.byteAt b := by
  induction h with
  | start => rfl
  | read _ ih => rw [memRead_snd_byteAt, ih]
  | write _ hadr ih => rw [memWrite_byteAt_other _ (ne_of_mem_of_not_mem hadr hb).symm, ih]
  | update _ hm _ _ _ ih => rw [byteAt_congr hm, ih]

end Accesses

/-! ### The trace of the ports -/

/-- From `s` to `t` the port trace has grown at its end, and each read in what is new has used up one scheduled answer
(R34, R40; log entries 8 and 10). -/
def TraceGrows (s t : State) : Prop :=
  ∃ l, t.ports = s.ports ++ l ∧ t.portIn = s.portIn.drop (l.countP isInput)

namespace TraceGrows

variable {s t u : State}

theorem of_eq (hp : t.ports = s.ports) (hi : t.portIn = s.portIn) : TraceGrows s t :=
  ⟨[], by simp [hp], by simp [hi]⟩

theorem trans : TraceGrows s t → TraceGrows t u → TraceGrows s u := by
  rintro ⟨l, hp, hi⟩ ⟨l', hp', hi'⟩
  exact ⟨l ++ l', by rw [hp', hp, List.append_assoc], by rw [hi', hi, List.drop_drop, List.countP_append]⟩

/-- A read of a port adds its own event and uses the first scheduled answer. -/
theorem memRead (s : State) (adr : Byte) : TraceGrows s (s.memRead adr).2 := by
  rcases memRead_trace s adr with ⟨hp, hi⟩ | ⟨-, hp, hi⟩
  · exact of_eq hp hi
  · exact ⟨_, hp, by simp [hi, isInput]⟩

/-- A write to a port adds its own event and uses no answer. -/
theorem memWrite (s : State) (adr v : Byte) : TraceGrows s (s.memWrite adr v) := by
  by_cases hport : Port adr
  · exact ⟨_, ((memWrite_wrote s adr v).output hport).1, by simp [isInput]⟩
  · exact of_eq (memWrite_ports_of_not_port v hport) (memWrite_portIn s adr v)

end TraceGrows

theorem Accesses.traceGrows {stores : List Byte} {s t : State} (h : Accesses stores s t) : TraceGrows s t := by
  induction h with
  | start => exact .of_eq rfl rfl
  | read _ ih => exact ih.trans (.memRead _ _)
  | write _ _ ih => exact ih.trans (.memWrite _ _ _)
  | update _ _ hp hi _ ih => exact ih.trans (.of_eq hp hi)

/-! ### The instructions and the step -/

/-- Every instruction's meaning is a chain of accesses whose writes go to the addresses of `storedTo` (R45). -/
theorem after_accesses (i : Instr) (s : State) : Accesses (storedTo i s) s (after i s) := by
  cases i with
  | lda o | ldx o | ldy o | ldsp o | adda o | adca o | suba o | sbca o | anda o | ora o | eora o | cmpa o | cmpx o
  | cmpy o | cmpsp o | bita o | tst m => exact Accesses.start.operand.registers
  | leax m | leay m | leasp m | jmp m => exact Accesses.start.ea.registers
  | sta m | stx m | sty m | stsp m => exact Accesses.start.storeAt (List.mem_singleton_self _)
  | clr m => exact (Accesses.start.storeAt (List.mem_singleton_self _)).registers
  | neg m | dec m | inc m | com m | lsl m | lsr m | asr m | rol m | ror m =>
    exact (Accesses.start.ea.read.write (List.mem_singleton_self _)).registers
  | tfrXY | tfrYX | tfrXSp | tfrSpX | tfrYSp | tfrSpY | exgXY | exgXSp | exgYSp | tfrAcc | andcc d | orcc d | tsta
  | clra | nega | deca | inca | coma | lsla | lsra | asra | rola | rora => exact Accesses.start.registers
  | tfrCcA | exgAcc => exact Accesses.start.ccRead.registers
  | jsr m => exact (Accesses.start.ea.push (by simp [storedTo])).registers
  | bsr off => exact (Accesses.start.push (List.mem_singleton_self _)).registers
  | bra off | bmi off | bpl off | beq off | bne off | bvs off | bvc off | bcs off | bcc off | bhi off | bls off
  | bgt off | bge off | ble off | blt off => exact Accesses.start.branch
  | psha | pshx | pshy => exact Accesses.start.push (List.mem_singleton_self _)
  | pshcc => exact Accesses.start.ccRead.push (List.mem_singleton_self _)
  | pula | pulx | puly | pulcc | rts => exact Accesses.start.pull.registers
  | rti => exact Accesses.start.returnFromException
  | nop => exact Accesses.start
  | notImplemented op =>
    rw [storedTo_notImplemented]
    exact Accesses.start.enter (List.Subset.refl _)

/-- All that a step can be: the reset sequence, at power-on or at a boundary, an interrupt entry, or the fetch and the
meaning of an instruction. -/
theorem step_cases {s t : State} (h : step s = .next t) :
    t = s.countStep.resetSequence ∨ t = s.passBoundary.resetSequence ∨ t = s.passBoundary.irqEntry ∨
      t = after s.passBoundary.fetchInstr.1 s.passBoundary.fetchInstr.2 := by
  cases hphase : s.phase with
  | vectorFetch =>
    rw [step_of_vectorFetch hphase] at h
    exact .inl (Host.Outcome.next.inj h).symm
  | newFetch =>
    cases hreset : s.resetActive with
    | true =>
      rw [step_of_resetActive hphase hreset] at h
      exact .inr (.inl (Host.Outcome.next.inj h).symm)
    | false =>
      cases hirq : s.irqAccepted with
      | true =>
        rw [step_of_irqAccepted hphase hreset hirq] at h
        exact .inr (.inr (.inl (Host.Outcome.next.inj h).symm))
      | false =>
        rw [step_of_instruction hphase hreset hirq] at h
        exact .inr (.inr (.inr (after_eq h).symm))

/-- Every step is a chain of accesses. -/
theorem step_accesses {s t : State} (h : step s = .next t) : ∃ stores, Accesses stores s t := by
  rcases step_cases h with rfl | rfl | rfl | rfl
  · exact ⟨[], Accesses.start.countStep.resetSequence⟩
  · exact ⟨[], Accesses.start.passBoundary.resetSequence⟩
  · exact ⟨_, Accesses.start.passBoundary.irqEntry (List.Subset.refl _)⟩
  · exact ⟨_, Accesses.start.passBoundary.fetchInstr.trans (after_accesses _ _)⟩

/-! ### The statements -/

/-- Settles O50: the step is a chain of accesses, and each access keeps the invariant. -/
theorem stepKeepsTheMemoryForm : Obligations.StepKeepsTheMemoryForm := by
  intro s t hs h
  obtain ⟨_, haccesses⟩ := step_accesses h
  exact haccesses.keep_inv hs

/-- Settles O51: after reset the memory lists nothing and the trace is empty. -/
theorem resetHasTheMemoryForm : Obligations.ResetHasTheMemoryForm :=
  ⟨reset_mem_wf, List.forall_mem_nil _⟩

/-- Settles O52: no access of the step changes such a byte, or which they are. -/
theorem readOnlyBytesNeverChange : Obligations.ReadOnlyBytesNeverChange := by
  intro s t h
  obtain ⟨_, haccesses⟩ := step_accesses h
  exact ⟨haccesses.keep_readOnly, fun _ => haccesses.keep_byteAt_readOnly⟩

/-- Settles O53: each access of the step adds to the trace at its end. -/
theorem portTraceOnlyGrows : Obligations.PortTraceOnlyGrows := by
  intro s t h
  obtain ⟨_, haccesses⟩ := step_accesses h
  exact haccesses.traceGrows

/-- Settles O54: the writes of the instruction's chain go to the addresses of `storedTo` only. -/
theorem instructionsStoreOnlyWhereTheySay : Obligations.InstructionsStoreOnlyWhereTheySay := by
  intro i s t h adr hadr
  rw [← after_eq h]
  exact (after_accesses i s).keep_byteAt_other hadr

end Sys2Proof.Proofs
end

section
/-! PROOFS. The opcode map, its decoder and its encoder (`30_encoding.md` R50 to R53, R67): the words of the machine
language, from the map's cells and from the groups of the encoder. -/

namespace Sys2Proof.Proofs

/-! ### The words of the machine language -/

/-- `Word w i`: the bytes `w` are one cell of the opcode map with the operand byte its format asks for (R50), and `i`
is that cell's instruction. -/
inductive Word : List Byte → Instr → Prop
  /-- format `F1` -/
  | one {op : Byte} {i : Instr} (h : formOf op = .one i) : Word [op] i
  /-- format `F2`, with any operand byte -/
  | two {op : Byte} {f : Byte → Instr} (h : formOf op = .two f) (n : Byte) : Word [op, n] (f n)

theorem decode_append_of_word {w : List Byte} {i : Instr} (h : Word w i) (rest : List Byte) :
    decode (w ++ rest) = .ok (i, rest) := by
  cases h with
  | one hform => exact decode_of_one rest hform
  | two hform n => exact decode_of_two n rest hform

/-- What decodes begins with a word of the language, and the rest is what follows it. -/
theorem word_of_decode {bytes rest : List Byte} {i : Instr} (h : decode bytes = .ok (i, rest)) :
    ∃ w, Word w i ∧ bytes = w ++ rest := by
  cases bytes with
  | nil => cases h
  | cons op tail =>
    cases hform : formOf op with
    | one j =>
      rw [decode_of_one tail hform] at h
      cases h
      exact ⟨[op], .one hform, rfl⟩
    | two f =>
      cases tail with
      | nil => simp [decode, hform] at h
      | cons n tail =>
        rw [decode_of_two n tail hform] at h
        cases h
        exact ⟨[op, n], .two hform n, rfl⟩

/-! ### Every encoding is a word

One lemma per group of mnemonics that share the columns of the map (R67). Its cells are given by the row and the
mnemonic. -/

/-- A mnemonic's cells in the columns `9x` and `Ax` (CMPSP has no other). -/
structure CmpSPCells (row : Byte) (f : Operand → Instr) : Prop where
  im : formOf (0x90#8 + row) = .two fun n => f (.im n)
  ab : formOf (0xA0#8 + row) = .two fun n => f (.mem (.ab n))

/-- A mnemonic's cells in the columns `9x` to `Bx` (CMPX and CMPY have no other). -/
structure CmpXYCells (row : Byte) (f : Operand → Instr) : Prop extends CmpSPCells row f where
  ns : formOf (0xB0#8 + row) = .two fun n => f (.mem (.ns n))

/-- A mnemonic's cells in the columns `9x` to `Dx`. -/
structure BinaryCells (row : Byte) (f : Operand → Instr) : Prop extends CmpXYCells row f where
  nx : formOf (0xC0#8 + row) = .two fun n => f (.mem (.nx n))
  ny : formOf (0xD0#8 + row) = .two fun n => f (.mem (.ny n))

/-- A mnemonic's cells in the columns `3x` and `5x` to `8x` (JMP and JSR have no other). -/
structure JumpCells (row : Byte) (f : AddrMode → Instr) : Prop where
  ab : formOf (0x30#8 + row) = .two fun n => f (.ab n)
  nx : formOf (0x50#8 + row) = .two fun n => f (.nx n)
  ax : formOf (0x60#8 + row) = .one (f .ax)
  ny : formOf (0x70#8 + row) = .two fun n => f (.ny n)
  ay : formOf (0x80#8 + row) = .one (f .ay)

/-- A mnemonic's cells in the columns `3x` to `8x`. -/
structure UnaryCells (row : Byte) (f : AddrMode → Instr) : Prop extends JumpCells row f where
  ns : formOf (0x40#8 + row) = .two fun n => f (.ns n)

/-- The cells of STA in column `Ex` or of LDA's memory forms in column `Fx`. -/
structure AccCells (column : Byte) (f : AddrMode → Instr) : Prop where
  ab : formOf (column + 0x1#8) = .two fun n => f (.ab n)
  ns : formOf (column + 0x2#8) = .two fun n => f (.ns n)
  nx : formOf (column + 0x3#8) = .two fun n => f (.nx n)
  ax : formOf (column + 0x4#8) = .one (f .ax)
  xPostInc : formOf (column + 0x5#8) = .one (f .xPostInc)
  xPostDec : formOf (column + 0x6#8) = .one (f .xPostDec)
  xPreInc : formOf (column + 0x7#8) = .one (f .xPreInc)
  xPreDec : formOf (column + 0x8#8) = .one (f .xPreDec)
  ny : formOf (column + 0x9#8) = .two fun n => f (.ny n)
  ay : formOf (column + 0xA#8) = .one (f .ay)
  yPostInc : formOf (column + 0xB#8) = .one (f .yPostInc)
  yPostDec : formOf (column + 0xC#8) = .one (f .yPostDec)
  yPreInc : formOf (column + 0xD#8) = .one (f .yPreInc)
  yPreDec : formOf (column + 0xE#8) = .one (f .yPreDec)

section
variable {row column : Byte} {f : AddrMode → Instr} {g : Operand → Instr} {m : AddrMode} {o : Operand}

theorem word_encodeCmpSP (c : CmpSPCells 0xE#8 g) (h : o.isCmpSP = true) : Word (encodeCmpSP o) (g o) := by
  rw [encodeCmpSP, if_pos h]
  cases o with
  | im n => exact .two c.im n
  | mem m =>
    cases m with
    | ab n => exact .two c.ab n
    | _ => cases h

theorem word_encodeCmpXY (c : CmpXYCells row g) (h : o.isCmpXY = true) : Word (encodeCmpXY row o) (g o) := by
  rw [encodeCmpXY, if_pos h]
  cases o with
  | im n => exact .two c.im n
  | mem m =>
    cases m with
    | ab n => exact .two c.ab n
    | ns n => exact .two c.ns n
    | _ => cases h

theorem word_encodeBinary (c : BinaryCells row g) (h : o.isBinary = true) : Word (encodeBinary row o) (g o) := by
  cases o with
  | im n => exact .two c.im n
  | mem m =>
    cases m with
    | ab n => exact .two c.ab n
    | ns n => exact .two c.ns n
    | nx n => exact .two c.nx n
    | ny n => exact .two c.ny n
    | _ => cases h

theorem word_encodeJump (c : JumpCells row f) (h : m.isJump = true) : Word (encodeJump row m) (f m) := by
  cases m with
  | ab n => exact .two c.ab n
  | nx n => exact .two c.nx n
  | ax => exact .one c.ax
  | ny n => exact .two c.ny n
  | ay => exact .one c.ay
  | _ => cases h

theorem word_encodeUnary (c : UnaryCells row f) (h : m.isUnary = true) : Word (encodeUnary row m) (f m) := by
  cases m with
  | ab n => exact .two c.ab n
  | ns n => exact .two c.ns n
  | nx n => exact .two c.nx n
  | ax => exact .one c.ax
  | ny n => exact .two c.ny n
  | ay => exact .one c.ay
  | _ => cases h

theorem word_encodeAcc (c : AccCells column f) : Word (encodeAcc column m) (f m) := by
  cases m with
  | ab n => exact .two c.ab n
  | ns n => exact .two c.ns n
  | nx n => exact .two c.nx n
  | ny n => exact .two c.ny n
  | ax => exact .one c.ax
  | ay => exact .one c.ay
  | xPostInc => exact .one c.xPostInc
  | xPostDec => exact .one c.xPostDec
  | xPreInc => exact .one c.xPreInc
  | xPreDec => exact .one c.xPreDec
  | yPostInc => exact .one c.yPostInc
  | yPostDec => exact .one c.yPostDec
  | yPreInc => exact .one c.yPreInc
  | yPreDec => exact .one c.yPreDec

end

theorem word_encodeLeaX {m : AddrMode} (h : m.isLeaX = true) : Word (encodeLeaX m) (.leax m) := by
  cases m with
  | nx n => exact .two (op := 0xCC#8) rfl n
  | ns n => exact .two (op := 0xDC#8) rfl n
  | _ => cases h

theorem word_encodeLeaY {m : AddrMode} (h : m.isLeaY = true) : Word (encodeLeaY m) (.leay m) := by
  cases m with
  | ny n => exact .two (op := 0xCD#8) rfl n
  | ns n => exact .two (op := 0xDD#8) rfl n
  | _ => cases h

theorem word_encodeLeaSP {m : AddrMode} (h : m.isLeaSP = true) : Word (encodeLeaSP m) (.leasp m) := by
  cases m with
  | ns n => exact .two (op := 0xBE#8) rfl n
  | nx n => exact .two (op := 0xCE#8) rfl n
  | ny n => exact .two (op := 0xDE#8) rfl n
  | _ => cases h

/-- The six opcodes of R53 in the claims' spelling. -/
theorem isIllegalOpcode_iff (op : Byte) :
    isIllegalOpcode op = true ↔ op ∈ [0x03#8, 0x04#8, 0xDF#8, 0xE0#8, 0xEF#8, 0xFF#8] := by
  simp [isIllegalOpcode, or_assoc]

/-- The six blank cells of the map (R53) hold their own opcode byte. -/
theorem formOf_of_isIllegalOpcode {op : Byte} (h : isIllegalOpcode op = true) :
    formOf op = .one (.notImplemented op) := by
  simp only [isIllegalOpcode_iff, List.mem_cons, List.not_mem_nil, or_false] at h
  rcases h with rfl | rfl | rfl | rfl | rfl | rfl <;> rfl

/-- The encoder writes words of the language. -/
theorem word_encode {i : Instr} (h : i.wf = true) : Word (encode i) i := by
  cases i with
  | lda o =>
    cases o with
    | im n => exact .two (op := 0xF0#8) rfl n
    | mem m => exact word_encodeAcc (f := fun m => .lda (.mem m)) (by constructor <;> rfl)
  | sta m => exact word_encodeAcc (by constructor <;> rfl)
  | leax m => exact word_encodeLeaX h
  | leay m => exact word_encodeLeaY h
  | leasp m => exact word_encodeLeaSP h
  | jmp m | jsr m => exact word_encodeJump (by constructor <;> rfl) h
  | cmpx o | cmpy o => exact word_encodeCmpXY ⟨⟨rfl, rfl⟩, rfl⟩ h
  | cmpsp o => exact word_encodeCmpSP ⟨rfl, rfl⟩ h
  | ldx o | ldy o | ldsp o | adda o | adca o | suba o | sbca o | cmpa o | bita o | anda o | ora o | eora o =>
    exact word_encodeBinary ⟨⟨⟨rfl, rfl⟩, rfl⟩, rfl, rfl⟩ h
  | stx m | sty m | stsp m | clr m | neg m | dec m | inc m | tst m | com m | lsl m | lsr m | asr m | rol m | ror m =>
    exact word_encodeUnary ⟨⟨rfl, rfl, rfl, rfl, rfl⟩, rfl⟩ h
  | bsr n | bra n | bmi n | bpl n | beq n | bne n | bvs n | bvc n | bcs n | bcc n | bhi n | bls n | bgt n | bge n
  | ble n | blt n | andcc n | orcc n => exact .two rfl n
  | notImplemented op =>
    have hop : isIllegalOpcode op = true := h
    rw [encode, if_pos hop]
    exact .one (formOf_of_isIllegalOpcode hop)
  | _ => exact .one rfl

/-- Settles O1: the encoder writes words, and the decoder reads a word back whatever follows. -/
theorem decodeOfEncodeIsIdentity : Obligations.DecodeOfEncodeIsIdentity :=
  fun _ rest h => decode_append_of_word (word_encode h) rest


/-! ### Every word is an encoding -/

/-- The encoder writes the opcode byte `op`, and then the operand byte, for the instructions of a cell. -/
def EncodesTo (op : Byte) : Form → Prop
  | .one i => i.wf = true ∧ encode i = [op]
  | .two f => ∀ n, (f n).wf = true ∧ encode (f n) = [op, n]

/-- The cells of a column are encoded under the opcode bytes from `op` on. -/
def ColumnEncodesTo (op : Byte) : List Form → Prop
  | [] => True
  | cell :: cells => EncodesTo op cell ∧ ColumnEncodesTo (op + 1#8) cells

theorem encodesTo_of_column {op : Byte} {column : List Form} {d : Form} {k : Nat} (h : ColumnEncodesTo op column)
    (hk : k < column.length) : EncodesTo (op + BitVec.ofNat 8 k) (column.getD k d) := by
  induction column generalizing op k with
  | nil => exact absurd hk (Nat.not_lt_zero k)
  | cons cell cells ih =>
    obtain ⟨hcell, hcells⟩ := h
    cases k with
    | zero => rwa [BitVec.add_zero]
    | succ k =>
      have hnext := ih hcells (Nat.lt_of_succ_lt_succ hk)
      rwa [BitVec.add_assoc, BitVec.add_comm 1#8, ← BitVec.ofNat_add] at hnext

/-- Cell by cell over the map: column `c` has the opcodes from `16c` on. -/
theorem columnEncodesTo_of_mem_opcodeMap :
    ∀ column ∈ opcodeMap.zipIdx, ColumnEncodesTo (BitVec.ofNat 8 (16 * column.2)) column.1 := by
  simp [opcodeMap, opcodeColumn0, opcodeColumn1, opcodeColumn2, opcodeColumn3, opcodeColumn4, opcodeColumn5,
    opcodeColumn6, opcodeColumn7, opcodeColumn8, opcodeColumn9, opcodeColumnA, opcodeColumnB, opcodeColumnC,
    opcodeColumnD, opcodeColumnE, opcodeColumnF, ColumnEncodesTo, EncodesTo, Instr.wf, AddrMode.isUnary,
    AddrMode.isJump, AddrMode.isLeaX, AddrMode.isLeaY, AddrMode.isLeaSP, Operand.isBinary, Operand.isCmpXY,
    Operand.isCmpSP, isIllegalOpcode, encode, encodeUnary, encodeJump, encodeBinary, encodeCmpXY, encodeCmpSP,
    encodeAcc, encodeLeaX, encodeLeaY, encodeLeaSP]

/-- No column of the map is shorter than its sixteen rows. -/
theorem length_of_mem_opcodeMap : ∀ column ∈ opcodeMap, column.length = 16 := by decide

/-- The cell of an opcode byte holds instructions that are encoded under this byte. -/
theorem formOf_encodesTo (op : Byte) : EncodesTo op (formOf op) := by
  have hcolumn : op.toNat / 16 < opcodeMap.length := Nat.div_lt_of_lt_mul op.isLt
  have hmem : (opcodeMap.getD (op.toNat / 16) [], op.toNat / 16) ∈ opcodeMap.zipIdx := by
    rw [List.getD_eq_getElem _ _ hcolumn, List.mk_mem_zipIdx_iff_getElem?]
    exact List.getElem?_eq_getElem hcolumn
  have hrow : op.toNat % 16 < (opcodeMap.getD (op.toNat / 16) []).length := by
    rw [length_of_mem_opcodeMap _ (List.fst_mem_of_mem_zipIdx hmem)]
    exact Nat.mod_lt _ (by decide)
  have hcell := encodesTo_of_column (d := .one (.notImplemented op)) (columnEncodesTo_of_mem_opcodeMap _ hmem) hrow
  rwa [← BitVec.ofNat_add, Nat.div_add_mod, BitVec.ofNat_toNat, BitVec.setWidth_eq] at hcell

theorem wf_and_encode_of_word {w : List Byte} {i : Instr} (h : Word w i) : i.wf = true ∧ encode i = w := by
  cases h with
  | @one op _ hform =>
    have hcell := formOf_encodesTo op
    rwa [hform] at hcell
  | @two op _ hform n =>
    have hcell := formOf_encodesTo op
    rw [hform] at hcell
    exact hcell n

/-- Settles O2: what decodes begins with a word, and each word is its instruction's encoding. -/
theorem encodeOfDecodeIsIdentity : Obligations.EncodeOfDecodeIsIdentity := by
  intro bytes rest i h
  obtain ⟨w, hword, rfl⟩ := word_of_decode h
  obtain ⟨hwf, hencode⟩ := wf_and_encode_of_word hword
  exact ⟨hwf, by rw [hencode]⟩

/-! ### The opcode byte alone -/

/-- A cell of format `F2` is none of the six blank ones. -/
theorem not_isIllegalOpcode_of_two {op : Byte} {f : Byte → Instr} (h : formOf op = .two f) :
    isIllegalOpcode op ≠ true := by
  intro hop
  rw [formOf_of_isIllegalOpcode hop] at h
  cases h

theorem eq_notImplemented_iff_of_one {op : Byte} {i : Instr} (h : formOf op = .one i) :
    i = .notImplemented op ↔ isIllegalOpcode op = true := by
  constructor
  · rintro rfl
    exact (wf_and_encode_of_word (.one h)).1
  · intro hop
    rw [formOf_of_isIllegalOpcode hop] at h
    cases h
    rfl

/-- Settles O3, by the format of the opcode's cell: the length is that of the format (`formOf_hasFormatLength`), and
the blank cells are of format `F1`. -/
theorem opcodeByteAloneSelectsLength : Obligations.OpcodeByteAloneSelectsLength := by
  intro op
  have hformat := formOf_hasFormatLength op
  simp only [← isIllegalOpcode_iff]
  cases hform : formOf op with
  | one i =>
    rw [hform] at hformat
    refine ⟨1, .inl rfl, fun n => ⟨i, hformat, (wf_and_encode_of_word (.one hform)).1, decode_of_one [n] hform,
      eq_notImplemented_iff_of_one hform⟩, ?_⟩
    rw [decode_of_one [] hform]
    simp
  | two f =>
    rw [hform] at hformat
    have himplemented (n : Byte) : f n ≠ .notImplemented op := fun h => by
      have hlength := hformat n
      rw [h] at hlength
      cases hlength
    refine ⟨2, .inr rfl, fun n => ⟨f n, hformat n, (wf_and_encode_of_word (.two hform n)).1, decode_of_two n [] hform,
      iff_of_false (himplemented n) (not_isIllegalOpcode_of_two hform)⟩, ?_⟩
    simp [decode, hform]

/-! ### Words written out from the map -/

/-- Settles O4: each word's opcode byte is looked up in the map. -/
theorem wordsOfTheMapDecode : Obligations.WordsOfTheMapDecode :=
  ⟨rfl, rfl, rfl, rfl, rfl, rfl, rfl⟩

end Sys2Proof.Proofs
end

section
/-! PROOFS. The assembly language (`30_encoding.md` R57, R69 to R72): a source line and an instruction belong together,
for the assembler and for `sourceOf` alike. -/

namespace Sys2Proof.Proofs

open Sys2Proof.Machine Sys2Proof.Safety Sys2Proof.Assembly

/-! ### Source lines -/

/-- `SourceLine adr m f i`: under mnemonic `m` with operand form `f`, the line at `adr` is the instruction `i`, by the
table that has the mnemonic (R69). -/
inductive SourceLine (adr : Byte) : Mnemonic → OperandForm Byte → Instr → Prop
  /-- no operand -/
  | inherent {m : Mnemonic} {i : Instr} (h : inherentInstr m = some i) : SourceLine adr m .inherent i
  /-- two register names -/
  | registers {m : Mnemonic} {r q : Register} {i : Instr} (h : registerInstr m r q = some i) :
    SourceLine adr m (.registers r q) i
  /-- ANDCC and ORCC -/
  | immediate {m : Mnemonic} {g : Byte → Instr} (h : immediateInstr m = some g) (v : Byte) :
    SourceLine adr m (.immediate v) (g v)
  /-- a branch, written with its target (R57) -/
  | relative {m : Mnemonic} {g : Byte → Instr} (h : relativeInstr m = some g) (target : Byte) :
    SourceLine adr m (.address target) (g (branchOffset adr target))
  /-- a memory operand -/
  | address {m : Mnemonic} {g : AddrMode → Instr} (h : addressInstr m = some g) (k : AddrMode) :
    SourceLine adr m (modeForm k) (g k)
  /-- a datum, immediate or in memory -/
  | datum {m : Mnemonic} {g : Operand → Instr} (h : datumInstr m = some g) (o : Operand) :
    SourceLine adr m (operandForm o) (g o)

/-! ### The relative offset -/

/-- The offset is the way from the address after the instruction to the target (R57, R72). -/
theorem add_branchOffset (adr target : Byte) : adr + 2#8 + branchOffset adr target = target := by
  rw [branchOffset, BitVec.add_comm, BitVec.sub_add_cancel]

theorem branchOffset_add (adr off : Byte) : branchOffset adr (adr + 2#8 + off) = off := by
  rw [branchOffset, BitVec.add_comm, BitVec.add_sub_cancel]

/-- Of a branch instruction, which is written with its target, the offset comes back. -/
theorem sourceLine_relative {m : Mnemonic} {g : Byte → Instr} (h : relativeInstr m = some g) (adr off : Byte) :
    SourceLine adr m (.address (adr + 2#8 + off)) (g off) := by
  have hline := SourceLine.relative (adr := adr) h (adr + 2#8 + off)
  rwa [branchOffset_add] at hline

/-! ### The assembler's candidates are the source lines -/

/-- No mnemonic is in two of the tables that an operand form could choose from. -/
theorem relativeInstr_of_addressInstr {m : Mnemonic} {g : AddrMode → Instr} (h : addressInstr m = some g) :
    relativeInstr m = none := by
  cases m <;> cases h <;> rfl

theorem other_tables_of_datumInstr {m : Mnemonic} {g : Operand → Instr} (h : datumInstr m = some g) :
    relativeInstr m = none ∧ addressInstr m = none ∧ immediateInstr m = none := by
  cases m <;> cases h <;> exact ⟨rfl, rfl, rfl⟩

/-- The instruction of a mnemonic with an operand in memory, be it an address or a datum. -/
def memoryInstr (m : Mnemonic) (k : AddrMode) : Option Instr :=
  ((addressInstr m).map fun g => g k).or ((datumInstr m).map fun g => g (.mem k))

theorem candidate_immediate (m : Mnemonic) (v adr : Byte) :
    candidate m (.immediate v) adr =
      ((immediateInstr m).map fun g => g v).or ((datumInstr m).map fun g => g (.im v)) := by
  unfold candidate
  cases immediateInstr m <;> rfl

theorem candidate_address (m : Mnemonic) (v adr : Byte) :
    candidate m (.address v) adr =
      ((relativeInstr m).map fun g => g (branchOffset adr v)).or (memoryInstr m (.ab v)) := by
  unfold candidate memoryInstr
  cases relativeInstr m <;> cases addressInstr m <;> rfl

/-- An address alone could also be a branch's target. Every other memory operand is its mode's. -/
theorem candidate_modeForm {m : Mnemonic} {k : AddrMode} (adr : Byte) (h : relativeInstr m = none ∨ ∀ v, k ≠ .ab v) :
    candidate m (modeForm k) adr = memoryInstr m k := by
  cases k with
  | ab v =>
    have hrelative : relativeInstr m = none := h.resolve_right fun hk => hk v rfl
    rw [modeForm, candidate_address, hrelative]
    rfl
  | _ =>
    unfold candidate memoryInstr
    cases addressInstr m <;> rfl

theorem sourceLine_of_memoryInstr {m : Mnemonic} {k : AddrMode} {i : Instr} (adr : Byte)
    (h : memoryInstr m k = some i) : SourceLine adr m (modeForm k) i := by
  simp only [memoryInstr, Option.or_eq_some_iff, Option.map_eq_some_iff] at h
  rcases h with ⟨g, hg, rfl⟩ | ⟨-, g, hg, rfl⟩
  · exact .address hg k
  · exact .datum hg (.mem k)

theorem sourceLine_of_candidate {m : Mnemonic} {f : OperandForm Byte} {adr : Byte} {i : Instr}
    (h : candidate m f adr = some i) : SourceLine adr m f i := by
  have hmemory (k : AddrMode) (hk : ∀ v, k ≠ .ab v) (hc : candidate m (modeForm k) adr = some i) :
      SourceLine adr m (modeForm k) i :=
    sourceLine_of_memoryInstr adr ((candidate_modeForm adr (.inr hk)).symm.trans hc)
  cases f with
  | inherent => exact .inherent h
  | registers r q => exact .registers h
  | immediate v =>
    simp only [candidate_immediate, Option.or_eq_some_iff, Option.map_eq_some_iff] at h
    rcases h with ⟨g, hg, rfl⟩ | ⟨-, g, hg, rfl⟩
    · exact .immediate hg v
    · exact .datum hg (.im v)
  | address v =>
    simp only [candidate_address, Option.or_eq_some_iff, Option.map_eq_some_iff] at h
    rcases h with ⟨g, hg, rfl⟩ | ⟨-, h⟩
    · exact .relative hg v
    · exact sourceLine_of_memoryInstr adr h
  | nSP n => exact hmemory (.ns n) nofun h
  | nX n => exact hmemory (.nx n) nofun h
  | nY n => exact hmemory (.ny n) nofun h
  | aX => exact hmemory .ax nofun h
  | aY => exact hmemory .ay nofun h
  | xPostInc => exact hmemory .xPostInc nofun h
  | xPostDec => exact hmemory .xPostDec nofun h
  | xPreInc => exact hmemory .xPreInc nofun h
  | xPreDec => exact hmemory .xPreDec nofun h
  | yPostInc => exact hmemory .yPostInc nofun h
  | yPostDec => exact hmemory .yPostDec nofun h
  | yPreInc => exact hmemory .yPreInc nofun h
  | yPreDec => exact hmemory .yPreDec nofun h

theorem candidate_of_sourceLine {m : Mnemonic} {f : OperandForm Byte} {adr : Byte} {i : Instr}
    (h : SourceLine adr m f i) : candidate m f adr = some i := by
  cases h with
  | inherent h => exact h
  | registers h => exact h
  | immediate h v => simp [candidate_immediate, h]
  | relative h target => simp [candidate_address, h]
  | address h k =>
    rw [candidate_modeForm adr (.inl (relativeInstr_of_addressInstr h))]
    simp [memoryInstr, h]
  | datum h o =>
    obtain ⟨hrelative, haddress, himmediate⟩ := other_tables_of_datumInstr h
    cases o with
    | im v => simp [operandForm, candidate_immediate, himmediate, h]
    | mem k =>
      rw [operandForm, candidate_modeForm adr (.inl hrelative)]
      simp [memoryInstr, haddress, h]

/-! ### `sourceOf` writes the source lines -/

theorem sourceLine_of_sourceOf {m : Mnemonic} {f : OperandForm Byte} {adr : Byte} {i : Instr}
    (h : sourceOf adr i = some (m, f)) : SourceLine adr m f i := by
  cases i with
  | notImplemented op => cases h
  | lda o | ldx o | ldy o | ldsp o | adda o | adca o | suba o | sbca o | cmpa o | cmpx o | cmpy o | cmpsp o | bita o
  | anda o | ora o | eora o => cases h; exact .datum rfl o
  | leax k | leay k | leasp k | sta k | stx k | sty k | stsp k | jmp k | jsr k | clr k | neg k | dec k | inc k | tst k
  | com k | lsl k | lsr k | asr k | rol k | ror k => cases h; exact .address rfl k
  | bsr off | bra off | bmi off | bpl off | beq off | bne off | bvs off | bvc off | bcs off | bcc off | bhi off
  | bls off | bgt off | bge off | ble off | blt off => cases h; exact sourceLine_relative rfl adr off
  | andcc v | orcc v => cases h; exact .immediate rfl v
  | tfrAcc | tfrCcA | tfrXY | tfrYX | tfrXSp | tfrSpX | tfrYSp | tfrSpY | exgAcc | exgXY | exgXSp | exgYSp =>
    cases h; exact .registers rfl
  | _ => cases h; exact .inherent rfl

theorem sourceOf_of_sourceLine {m : Mnemonic} {f : OperandForm Byte} {adr : Byte} {i : Instr}
    (h : SourceLine adr m f i) : sourceOf adr i = some (m, f) := by
  cases h with
  | inherent h => cases m <;> cases h <;> rfl
  | registers h => unfold registerInstr at h; split at h <;> cases h <;> rfl
  | immediate h v => cases m <;> cases h <;> rfl
  | relative h target => cases m <;> cases h <;> simp [sourceOf, add_branchOffset]
  | address h k => cases m <;> cases h <;> rfl
  | datum h o => cases m <;> cases h <;> rfl

theorem candidate_eq_some_iff {m : Mnemonic} {f : OperandForm Byte} {adr : Byte} {i : Instr} :
    candidate m f adr = some i ↔ sourceOf adr i = some (m, f) :=
  ⟨fun h => sourceOf_of_sourceLine (sourceLine_of_candidate h),
    fun h => candidate_of_sourceLine (sourceLine_of_sourceOf h)⟩

/-! ### The pick -/

/-- A mnemonic of record is its own mnemonic of record (R71). -/
theorem ofRecord_ofRecord (m : Mnemonic) : m.ofRecord.ofRecord = m.ofRecord := by cases m <;> rfl

/-- The lines that `sourceOf` writes have mnemonics of record. -/
theorem ofRecord_of_sourceOf {m : Mnemonic} {f : OperandForm Byte} {adr : Byte} {i : Instr}
    (h : sourceOf adr i = some (m, f)) : m.ofRecord = m := by
  cases i <;> cases h <;> rfl

/-- What the assembler picks: the instruction of the map whose source the line is, under the mnemonic of record. -/
theorem pick_eq_ok_iff {m : Mnemonic} {f : OperandForm Byte} {adr : Byte} {i : Instr} :
    pick m f adr = .ok i ↔ i.wf = true ∧ sourceOf adr i = some (m.ofRecord, f) := by
  rw [← candidate_eq_some_iff, pick]
  cases hcandidate : candidate m.ofRecord f adr with
  | none => simp
  | some j =>
    by_cases hwf : j.wf = true
    · constructor
      · intro h
        simp only [if_pos hwf, Except.ok.injEq] at h
        exact ⟨h ▸ hwf, congrArg some h⟩
      · rintro ⟨-, h⟩
        obtain rfl := Option.some.inj h
        simp only [if_pos hwf]
    · constructor
      · intro h
        simp only [if_neg hwf] at h
        cases h
      · rintro ⟨hi, h⟩
        exact absurd (Option.some.inj h ▸ hi) hwf

theorem pick_ofRecord (m : Mnemonic) (f : OperandForm Byte) (adr : Byte) : pick m f adr = pick m.ofRecord f adr := by
  rw [pick, pick, ofRecord_ofRecord]

/-- Every implemented instruction is written in some way. -/
theorem exists_sourceOf {i : Instr} (adr : Byte) (h : ∀ op, i ≠ .notImplemented op) :
    ∃ m f, sourceOf adr i = some (m, f) := by
  cases i with
  | notImplemented op => exact absurd rfl (h op)
  | _ => exact ⟨_, _, rfl⟩

/-- Settles O60: the offset by `add_branchOffset`, the aliases by their mnemonics of record, and both directions of the
pick by `pick_eq_ok_iff`. -/
theorem assemblerPicksInstructionsOfTheMap : Obligations.AssemblerPicksInstructionsOfTheMap := by
  refine ⟨fun s adr target hpc => ?_, fun m f adr => ⟨pick_ofRecord m f adr, rfl, rfl, rfl, rfl⟩,
    fun i adr hwf himplemented => ?_, fun _ _ _ _ hpick => pick_eq_ok_iff.1 hpick⟩
  · rw [State.branchTarget, hpc, add_branchOffset]
  · obtain ⟨m, f, hsource⟩ := exists_sourceOf adr himplemented
    refine ⟨m, f, hsource, pick_eq_ok_iff.2 ⟨hwf, ?_⟩⟩
    rw [ofRecord_of_sourceOf hsource, hsource]

end Sys2Proof.Proofs
end

section
/-! PROOFS. The effective addresses (`30_encoding.md` R56, R57, R66). -/

namespace Sys2Proof.Proofs

/-- Settles O9: each line is a row of R66, as `State.ea` has it. -/
theorem effectiveAddressTable : Obligations.EffectiveAddressTable :=
  fun _ _ => ⟨rfl, rfl, fun _ => rfl, rfl, rfl, rfl, rfl, rfl, rfl, rfl, rfl, rfl, rfl, rfl, rfl, rfl, rfl⟩

end Sys2Proof.Proofs
end

section
/-! PROOFS. The trap and the return from it (`30_encoding.md` R53, `60_exceptions.md` R252, R253, R257). -/

namespace Sys2Proof.Proofs

open Sys2Proof.Machine Sys2Proof.Safety Sys2Proof.Laws

/-! ### The exception frame, written and read back -/

/-- The pulls of an exception return, from storage: CC at SP, then A, X, Y and PC at the addresses above (R141). -/
theorem returnFromException_storage {s : State} (h0 : ¬ Port s.sp) (h1 : ¬ Port (s.sp + 1#8))
    (h2 : ¬ Port (s.sp + 2#8)) (h3 : ¬ Port (s.sp + 3#8)) (h4 : ¬ Port (s.sp + 4#8)) :
    s.returnFromException = { s with
      cc := CC.ofByte (s.byteAt s.sp), a := s.byteAt (s.sp + 1#8), x := s.byteAt (s.sp + 2#8)
      y := s.byteAt (s.sp + 3#8), pc := s.byteAt (s.sp + 4#8), sp := s.sp + 5#8 } := by
  have e2 : s.sp + 1#8 + 1#8 = s.sp + 2#8 := by rw [BitVec.add_assoc]; rfl
  have e3 : s.sp + 2#8 + 1#8 = s.sp + 3#8 := by rw [BitVec.add_assoc]; rfl
  have e4 : s.sp + 3#8 + 1#8 = s.sp + 4#8 := by rw [BitVec.add_assoc]; rfl
  have e5 : s.sp + 4#8 + 1#8 = s.sp + 5#8 := by rw [BitVec.add_assoc]; rfl
  simp only [State.returnFromException, pull_storage h0, State.ccWrite, pull_registers, memRead_storage h1, e2,
    memRead_storage h2, e3, memRead_storage h3, e4, memRead_storage h4, e5]

theorem stores_memWrite {s : State} {adr v b : Byte} (h : Stores s b) : Stores (s.memWrite adr v) b := by
  rwa [Stores, memWrite_readOnly]

/-- What exception entry leaves in a frame of writable storage (R253, R262): CC, A, X, Y and the saved PC, upwards from
the new SP. Each of the five writes is at an address of its own. -/
theorem enter_frame {s : State} {vector : Byte} (returnPc : Byte) (setI : Bool) (hs : FrameStores s)
    (hv : ¬ Port vector) :
    let t := s.enter vector returnPc setI
    t.byteAt (s.sp - 5#8) = s.cc.toByte (Config.ccHi s.ccReads) ∧ t.byteAt (s.sp - 4#8) = s.a ∧
      t.byteAt (s.sp - 3#8) = s.x ∧ t.byteAt (s.sp - 2#8) = s.y ∧ t.byteAt (s.sp - 1#8) = returnPc := by
  obtain ⟨h1, h2, h3, h4, h5⟩ := hs
  intro t
  have hmem : t.mem = _ := congrArg State.mem (enter_eq s vector returnPc setI hv)
  have hbyte : ∀ b, t.byteAt b = (((((s.memWrite (s.sp - 1#8) returnPc).memWrite (s.sp - 2#8) s.y).memWrite
      (s.sp - 3#8) s.x).memWrite (s.sp - 4#8) s.a).memWrite (s.sp - 5#8)
      (s.cc.toByte (Config.ccHi s.ccReads))).byteAt b := byteAt_congr hmem
  simp only [hbyte, memWrite_byteAt_other, ne_eq, sub_right_inj, BitVec.reduceEq, not_false_eq_true]
  exact ⟨memWrite_byteAt_same _ (stores_memWrite (stores_memWrite (stores_memWrite (stores_memWrite h5)))),
    memWrite_byteAt_same _ (stores_memWrite (stores_memWrite (stores_memWrite h4))),
    memWrite_byteAt_same _ (stores_memWrite (stores_memWrite h3)),
    memWrite_byteAt_same _ (stores_memWrite h2), memWrite_byteAt_same _ h1⟩

/-- The return undoes the entry in every register, whatever the vector, the saved PC and the treatment of I (R257):
each pull reads the slot that holds the register. -/
theorem returnFromException_enter {s : State} {vector : Byte} (returnPc : Byte) (setI : Bool) (hs : FrameStores s)
    (hv : ¬ Port vector) :
    let u := (s.enter vector returnPc setI).returnFromException
    u.pc = returnPc ∧ u.a = s.a ∧ u.x = s.x ∧ u.y = s.y ∧ u.sp = s.sp ∧ u.cc = s.cc := by
  obtain ⟨hcc, ha, hx, hy, hpc⟩ := enter_frame returnPc setI hs hv
  obtain ⟨⟨h1, -⟩, ⟨h2, -⟩, ⟨h3, -⟩, ⟨h4, -⟩, ⟨h5, -⟩⟩ := hs
  have hsp : (s.enter vector returnPc setI).sp = s.sp - 5#8 := enter_sp s vector returnPc setI
  generalize s.enter vector returnPc setI = t at hcc ha hx hy hpc hsp
  have e5 : t.sp + 5#8 = s.sp := by rw [hsp, BitVec.sub_add_cancel]
  have e4 : t.sp + 4#8 = s.sp - 1#8 := by rw [hsp, sub_add]; rfl
  have e3 : t.sp + 3#8 = s.sp - 2#8 := by rw [hsp, sub_add]; rfl
  have e2 : t.sp + 2#8 = s.sp - 3#8 := by rw [hsp, sub_add]; rfl
  have e1 : t.sp + 1#8 = s.sp - 4#8 := by rw [hsp, sub_add]; rfl
  rw [← e1] at ha h4
  rw [← e2] at hx h3
  rw [← e3] at hy h2
  rw [← e4] at hpc h1
  rw [← hsp] at hcc h5
  rw [returnFromException_storage h5 h4 h3 h2 h1]
  exact ⟨hpc, ha, hx, hy, e5, (congrArg CC.ofByte hcc).trans (ofByte_toByte _ _)⟩

/-! ### The trap as a step -/

/-- An opcode that is not implemented, fetched from storage: the step is the trap, with PC past the opcode (R252). -/
theorem step_of_illegalOpcode {s : State} (hs : Fetches s) (hp : ¬ Port s.pc)
    (hop : isIllegalOpcode (s.byteAt s.pc) = true) :
    step s = .next { s.passBoundary with
      pc := s.pc + 1#8, cycles := s.cycles + Config.trapCycles
      hidden := { s.passBoundary.hidden with ir := s.byteAt s.pc } : State }.trap := by
  have hfetch := fetch8_passBoundary_storage hp
  have hform : formOf s.passBoundary.fetch8.1 = .one (.notImplemented (s.byteAt s.pc)) := by
    rw [hfetch]
    exact formOf_of_isIllegalOpcode hop
  rw [step_of_one hs hform, hfetch]
  rfl

/-- Settles O45: the step is the trap past the illegal byte, and the return undoes its entry. -/
theorem trapResumesAfterTheIllegalByte : Obligations.TrapResumesAfterTheIllegalByte := by
  intro s hs hp hop hframe
  refine ⟨_, _, step_of_illegalOpcode hs hp ((isIllegalOpcode_iff _).2 hop), rfl, ?_⟩
  exact returnFromException_enter _ _ hframe (by decide)

end Sys2Proof.Proofs
end

section
/-! PROOFS. Rows of the opcode table for the mnemonics that share columns of the map (`30_encoding.md` R67, the cycles
of `70_reset_and_hazards.md` R290): the encoder's and the cycle count's group gives all rows of a mnemonic. -/

namespace Sys2Proof.Proofs

open Sys2Proof.Machine Sys2Proof.Safety

section
variable {f : AddrMode → Instr} {g : Operand → Instr} {row column : Byte} {cycles cIm cMem : Nat}

theorem unaryRows_of_encode (h : ∀ m, encode (f m) = encodeUnary row m ∧ Instr.cycles (f m) = cycles) :
    UnaryRows f (0x30#8 + row) (0x40#8 + row) (0x50#8 + row) (0x60#8 + row) (0x70#8 + row) (0x80#8 + row) cycles :=
  ⟨fun n => h (.ab n), fun n => h (.ns n), fun n => h (.nx n), h .ax, fun n => h (.ny n), h .ay⟩

theorem binaryRows_of_encode
    (h : ∀ o, encode (g o) = encodeBinary row o ∧ Instr.cycles (g o) = Operand.cyclesOf o cIm cMem) :
    BinaryRows g (0x90#8 + row) (0xA0#8 + row) (0xB0#8 + row) (0xC0#8 + row) (0xD0#8 + row) cIm cMem :=
  ⟨fun n => h (.im n), fun n => h (.mem (.ab n)), fun n => h (.mem (.ns n)), fun n => h (.mem (.nx n)),
    fun n => h (.mem (.ny n))⟩

theorem accRows_of_encode
    (h : ∀ m, encode (f m) = encodeAcc column m ∧ Instr.cycles (f m) = AddrMode.accCycles m) : AccRows f column :=
  ⟨fun n => h (.ab n), fun n => h (.ns n), fun n => h (.nx n), h .ax, h .xPostInc, h .xPostDec, h .xPreInc,
    h .xPreDec, fun n => h (.ny n), h .ay, h .yPostInc, h .yPostDec, h .yPreInc, h .yPreDec⟩

end

end Sys2Proof.Proofs
end

section
/-! PROOFS. Load and store (`40_load_store.md` R80 to R90): one operand read and the flags of its byte, an address
without an access, or one write and no flag. -/

namespace Sys2Proof.Proofs

open Sys2Proof.Machine Sys2Proof.Safety Sys2Proof.Laws

/-- The flags of a load are those of the operand over the old CC, because the access to the operand changes no flag
(R38). -/
theorem operand_withNZ0_eq_flags (s : State) (o : Operand) :
    (s.operand o).2.cc.withNZ0 (s.operand o).1 =
      flags s.cc (Negative (s.operand o).1) (IsZero (s.operand o).1) False (s.cc.c = true) := by
  rw [operand_snd_cc, withNZ0_eq_flags]

/-- Settles O11: each load puts the operand in its register and stores the flags of `withNZ0`. LDX, LDY and LDSP are
rows 0, 1 and 2 of the two-operand group, LDA has column `Fx`. -/
theorem loadsSetRegisterAndFlags : Obligations.LoadsSetRegisterAndFlags := by
  refine ⟨fun s o => ?_, fun _ => ⟨rfl, rfl⟩, accRows_of_encode fun _ => ⟨rfl, rfl⟩,
    binaryRows_of_encode (row := 0x0#8) fun _ => ⟨rfl, rfl⟩,
    binaryRows_of_encode (row := 0x1#8) fun _ => ⟨rfl, rfl⟩,
    binaryRows_of_encode (row := 0x2#8) fun _ => ⟨rfl, rfl⟩⟩
  intro d cc
  have hcc : cc = d.2.cc.withNZ0 d.1 := (operand_withNZ0_eq_flags s o).symm
  rw [hcc]
  exact ⟨rfl, rfl, rfl, rfl⟩

/-- Each of the four stores is `storeAt` of its register's byte. -/
theorem exec_store {s : State} {m : AddrMode} {i : Instr} {v : Byte}
    (h : (i, v) ∈ [(.sta m, s.a), (.stx m, s.x), (.sty m, s.y), (.stsp m, s.sp)]) :
    exec i s = .next (s.storeAt m v) := by
  simp only [List.mem_cons, Prod.mk.injEq, List.not_mem_nil, or_false] at h
  rcases h with ⟨rfl, rfl⟩ | ⟨rfl, rfl⟩ | ⟨rfl, rfl⟩ | ⟨rfl, rfl⟩ <;> rfl

/-- Settles O12: what `storeAt` writes is `storeAt_wrote`, and what it leaves alone is `storeAt_eq`. STX, STY and STSP
are rows 0, 1 and 2 of the one-operand memory group, STA has column `Ex`. -/
theorem storesWriteOneByteAndNoFlag : Obligations.StoresWriteOneByteAndNoFlag :=
  ⟨fun s m _ v h => ⟨_, exec_store h, storeAt_wrote s m v, storeAt_eq s m v⟩,
    accRows_of_encode fun _ => ⟨rfl, rfl⟩,
    unaryRows_of_encode (row := 0x0#8) fun _ => ⟨rfl, rfl⟩,
    unaryRows_of_encode (row := 0x1#8) fun _ => ⟨rfl, rfl⟩,
    unaryRows_of_encode (row := 0x2#8) fun _ => ⟨rfl, rfl⟩⟩

/-- Settles O13: the modes of LEAX, LEAY and LEASP step no register, so the address is all they give, and their sums
are those of the 8-bit adder (`BitVec.add_def`). -/
theorem leaLoadsTheAddressOnly : Obligations.LeaLoadsTheAddressOnly := by
  refine ⟨fun s n => ?_, fun _ => ⟨rfl, rfl⟩, fun _ => ⟨rfl, rfl⟩, fun _ => ⟨rfl, rfl⟩, fun _ => ⟨rfl, rfl⟩,
    fun _ => ⟨rfl, rfl⟩, fun _ => ⟨rfl, rfl⟩, fun _ => ⟨rfl, rfl⟩⟩
  simp only [← BitVec.add_def]
  exact ⟨rfl, rfl, rfl, rfl, rfl, rfl, rfl⟩

end Sys2Proof.Proofs
end

section
/-! PROOFS. Transfers and exchanges (`41_data_movement.md` R100 to R111): CC read as a byte is `CC_HI` over the weighted
flags (`10_state.md` R15), and what a TFR or EXG stores is read from the state before the instruction. -/

namespace Sys2Proof.Proofs

open Sys2Proof.Machine Sys2Proof.Laws

/-- A byte is its upper three bits over the flags that it sets when written to CC (R16), each with its weight. -/
theorem byte_eq_ofNat_ofByte (v : Byte) :
    v = BitVec.ofNat 8 (32 * (v.toNat / 32) + 16 * (CC.ofByte v).i.toNat + 8 * (CC.ofByte v).n.toNat +
      4 * (CC.ofByte v).z.toNat + 2 * (CC.ofByte v).v.toNat + (CC.ofByte v).c.toNat) := by
  have hv : v.toNat < 256 := v.isLt
  apply BitVec.eq_of_toNat_eq
  simp only [CC.ofByte, BitVec.getLsbD, Nat.toNat_testBit, BitVec.toNat_ofNat]
  omega

/-- CC read as a byte (R15), by its value: its upper bits are `CC_HI` (`toByte_toNat_div`), and written back it sets
the flags it was read from (`ofByte_toByte`). -/
theorem toByte_eq_ofNat (cc : CC) (hi : BitVec 3) :
    cc.toByte hi = BitVec.ofNat 8 (32 * hi.toNat + 16 * cc.i.toNat + 8 * cc.n.toNat + 4 * cc.z.toNat +
      2 * cc.v.toNat + cc.c.toNat) := by
  have h := byte_eq_ofNat_ofByte (cc.toByte hi)
  rwa [toByte_toNat_div, ofByte_toByte] at h

/-- Settles O14: each meaning is one update of the state before it, and each opcode is one cell of the map. -/
theorem addressRegisterTransfers : Obligations.AddressRegisterTransfers :=
  ⟨fun _ => ⟨rfl, rfl, rfl, rfl, rfl, rfl, rfl, rfl, rfl⟩, ⟨rfl, rfl⟩, ⟨rfl, rfl⟩, ⟨rfl, rfl⟩, ⟨rfl, rfl⟩, ⟨rfl, rfl⟩,
    ⟨rfl, rfl⟩, ⟨rfl, rfl⟩, ⟨rfl, rfl⟩, ⟨rfl, rfl⟩⟩

/-- Settles O15: the flags written are `ofByte_eq` of A, the byte read is `toByte_eq_ofNat` of the
old CC. -/
theorem conditionCodeTransfers : Obligations.ConditionCodeTransfers := by
  refine ⟨fun s => ?_, ⟨rfl, rfl⟩, ⟨rfl, rfl⟩, ⟨rfl, rfl⟩⟩
  intro old byte
  have hold : old = CC.ofByte s.a := (ofByte_eq s.a).symm
  have hbyte : byte = s.ccRead.1 := (toByte_eq_ofNat s.cc _).symm
  rw [hold, hbyte]
  exact ⟨rfl, rfl, rfl⟩

end Sys2Proof.Proofs
end

section
/-! PROOFS. Jumps, calls and the return from a call (`42_flow_control.md` R120, R122, R123, R140). -/

namespace Sys2Proof.Proofs

open Sys2Proof.Machine Sys2Proof.Safety Sys2Proof.Laws

/-- The rows of JMP and JSR: columns `3x`, `5x`, `6x`, `7x`, `8x` of the map, with the absolute form's own cycles. -/
theorem jumpRows_of_encode {f : AddrMode → Instr} {row : Byte} {cAb cIdx : Nat}
    (h : ∀ m, encode (f m) = encodeJump row m ∧ Instr.cycles (f m) = AddrMode.jumpCycles m cAb cIdx) :
    JumpRows f (0x30#8 + row) (0x50#8 + row) (0x60#8 + row) (0x70#8 + row) (0x80#8 + row) cAb cIdx :=
  ⟨fun n => h (.ab n), fun n => h (.nx n), h .ax, fun n => h (.ny n), h .ay⟩

/-- Settles O16: JMP puts the address of its mode in PC. Its modes step no register, and their sums are those of the
8-bit adder (`BitVec.add_def`). -/
theorem jumpGoesToTheEffectiveAddress : Obligations.JumpGoesToTheEffectiveAddress := by
  refine ⟨fun s n => ?_, jumpRows_of_encode (row := 0x3#8) fun _ => ⟨rfl, rfl⟩⟩
  simp only [← BitVec.add_def]
  exact ⟨rfl, rfl, rfl, rfl, rfl⟩

/-! ### A call: the return address pushed, then the target in PC -/

/-- What JSR and BSR have in common (R122, R123). -/
def callTo (s : State) (target : Byte) : State :=
  { s.push s.pc with pc := target }

theorem exec_jsr (s : State) {m : AddrMode} (h : m.isJump = true) :
    exec (.jsr m) s = .next (callTo s (s.ea m).1) := by
  have hea : (s.ea m).2 = s := ea_snd_of_isJump h
  simp only [exec, execJsr, callTo, hea]

theorem exec_bsr (s : State) (off : Byte) : exec (.bsr off) s = .next (callTo s (s.pc + off)) := rfl

/-- Every call instruction is a call to some target. -/
theorem after_call {s : State} {i : Instr} (h : (∃ off, i = .bsr off) ∨ ∃ m, i = .jsr m ∧ m.isJump = true) :
    ∃ target, after i s = callTo s target := by
  rcases h with ⟨off, rfl⟩ | ⟨m, rfl, hm⟩
  · exact ⟨_, after_eq (exec_bsr s off)⟩
  · exact ⟨_, after_eq (exec_jsr s hm)⟩

/-- A call writes the return address below the stack (R5). -/
theorem callTo_wrote (s : State) (target : Byte) : Wrote s (callTo s target) (s.sp - 1#8) s.pc :=
  let h := push_wrote s s.pc
  ⟨h.output, h.quiet, h.stored, h.dropped, h.others⟩

/-- A call touches SP, PC, memory and trace only. -/
theorem callTo_eq (s : State) (target : Byte) :
    callTo s target = { s with
      sp := s.sp - 1#8, pc := target, mem := (callTo s target).mem, ports := (callTo s target).ports } :=
  congrArg (fun t : State => { t with pc := target }) (push_eq s s.pc)

/-- Settles O17: both are calls, JSR to the effective address and BSR to PC plus the offset. -/
theorem callsPushTheReturnAddress : Obligations.CallsPushTheReturnAddress :=
  ⟨fun s _ hm => ⟨_, exec_jsr s hm, callTo_wrote s _, callTo_eq s _⟩,
    fun s off => ⟨_, exec_bsr s off, callTo_wrote s _, callTo_eq s _⟩,
    jumpRows_of_encode (row := 0x4#8) fun _ => ⟨rfl, rfl⟩, fun _ => ⟨rfl, rfl⟩⟩

/-! ### The return from a call -/

/-- Settles O18: RTS is one pull into PC, and the byte read does not depend on PC or SP. -/
theorem returnFromSubroutinePullsPC : Obligations.ReturnFromSubroutinePullsPC := by
  refine ⟨fun s => ?_, rfl, rfl⟩
  rw [ofNat_toNat_add]
  rfl

/-- RTS undoes a call over writable storage: it reads the slot that the call wrote, and of the call only the memory
stays. -/
theorem exec_rts_callTo {s : State} (target : Byte) (h : Stores s (s.sp - 1#8)) :
    exec .rts (callTo s target) = .next { s with mem := (callTo s target).mem } := by
  have hwrote := callTo_wrote s target
  have hslot : (callTo s target).byteAt (s.sp - 1#8) = s.pc := hwrote.stored h
  have hports : (callTo s target).ports = s.ports := hwrote.quiet h.1
  have hsp : (callTo s target).sp = s.sp - 1#8 := push_sp s s.pc
  have hpull := pull_storage (s := callTo s target) (hsp ▸ h.1)
  rw [hsp, hslot, BitVec.sub_add_cancel] at hpull
  simp only [exec, execRts, hpull]
  rw [callTo_eq, hports]

/-- Settles O19: every call instruction is a call (`after_call`), which RTS undoes (`exec_rts_callTo`), and the only
byte that the call wrote is the one below the stack. -/
theorem subroutineReturnsToItsCaller : Obligations.SubroutineReturnsToItsCaller := by
  intro s i hs hi
  obtain ⟨target, hafter⟩ := after_call (s := s) hi
  rw [hafter]
  refine ⟨_, exec_rts_callTo target hs, rfl, fun adr hadr => ?_⟩
  exact (callTo_wrote s target).others adr hadr

end Sys2Proof.Proofs
end

section
/-! PROOFS. The return from an exception (`42_flow_control.md` R141), and exception entry undone by it
(`60_exceptions.md` R253, R257). -/

namespace Sys2Proof.Proofs

open Sys2Proof.Machine Sys2Proof.Safety Sys2Proof.Laws

/-! ### The five pulls -/

/-- The pulls of an exception return read from SP upwards, whatever is there: no read depends on the registers that
the pulls before it wrote (`pull_registers`). -/
theorem returnFromException_eq (s : State) :
    let cc := s.memRead s.sp
    let a := cc.2.memRead (s.sp + 1#8)
    let x := a.2.memRead (s.sp + 2#8)
    let y := x.2.memRead (s.sp + 3#8)
    let pc := y.2.memRead (s.sp + 4#8)
    s.returnFromException =
      { pc.2 with cc := CC.ofByte cc.1, a := a.1, x := x.1, y := y.1, pc := pc.1, sp := s.sp + 5#8 } := by
  have e2 : s.sp + 1#8 + 1#8 = s.sp + 2#8 := by rw [BitVec.add_assoc]; rfl
  have e3 : s.sp + 2#8 + 1#8 = s.sp + 3#8 := by rw [BitVec.add_assoc]; rfl
  have e4 : s.sp + 3#8 + 1#8 = s.sp + 4#8 := by rw [BitVec.add_assoc]; rfl
  have e5 : s.sp + 4#8 + 1#8 = s.sp + 5#8 := by rw [BitVec.add_assoc]; rfl
  have hcc : s.pull = ((s.memRead s.sp).1, { (s.memRead s.sp).2 with sp := s.sp + 1#8 }) := rfl
  simp only [State.returnFromException, hcc, State.ccWrite, pull_registers, e2, e3, e4, e5]

/-- Settles O20: the five reads are `returnFromException_eq`, the flags of the byte read first are `ofByte_eq`. -/
theorem returnFromInterruptPullsTheFrame : Obligations.ReturnFromInterruptPullsTheFrame := by
  refine ⟨fun s => ?_, rfl, rfl⟩
  intro cc a x y pc
  rw [← ofByte_eq]
  exact congrArg Host.Outcome.next (returnFromException_eq s)

/-! ### Entry and return -/

/-- Exception entry with its frame in storage makes no access to a port. -/
theorem enter_ports {s : State} {vector : Byte} (returnPc : Byte) (setI : Bool) (hs : FrameStores s)
    (hv : ¬ Port vector) :
    (s.enter vector returnPc setI).ports = s.ports ∧ (s.enter vector returnPc setI).portIn = s.portIn := by
  obtain ⟨⟨h1, -⟩, ⟨h2, -⟩, ⟨h3, -⟩, ⟨h4, -⟩, ⟨h5, -⟩⟩ := hs
  rw [enter_eq s vector returnPc setI hv]
  simp only [memWrite_portIn, memWrite_ports_of_not_port _ h5, memWrite_ports_of_not_port _ h4,
    memWrite_ports_of_not_port _ h3, memWrite_ports_of_not_port _ h2, memWrite_ports_of_not_port _ h1, and_self]

/-- Entry and return together make no access to a port: the pulls read the slots of the frame. -/
theorem returnFromException_enter_ports {s : State} {vector : Byte} (returnPc : Byte) (setI : Bool)
    (hs : FrameStores s) (hv : ¬ Port vector) :
    let u := (s.enter vector returnPc setI).returnFromException
    u.ports = s.ports ∧ u.portIn = s.portIn := by
  obtain ⟨hports, hportIn⟩ := enter_ports returnPc setI hs hv
  obtain ⟨⟨h1, -⟩, ⟨h2, -⟩, ⟨h3, -⟩, ⟨h4, -⟩, ⟨h5, -⟩⟩ := hs
  have hsp : (s.enter vector returnPc setI).sp = s.sp - 5#8 := enter_sp s vector returnPc setI
  generalize s.enter vector returnPc setI = t at hports hportIn hsp
  have slot (k : Byte) : t.sp + k = s.sp - (5#8 - k) := by rw [hsp, sub_add]
  have hret := returnFromException_storage (s := t) (by rwa [hsp]) (by rw [slot]; exact h4) (by rw [slot]; exact h3)
    (by rw [slot]; exact h2) (by rw [slot]; exact h1)
  rw [hret]
  exact ⟨hports, hportIn⟩

/-- Outside the frame, entry and return write nothing. -/
theorem returnFromException_enter_byteAt {s : State} {vector returnPc adr : Byte} {setI : Bool}
    (h : adr ∉ frameSlots s.sp) : (s.enter vector returnPc setI).returnFromException.byteAt adr = s.byteAt adr :=
  have haccesses : Accesses (frameSlots s.sp) s (s.enter vector returnPc setI).returnFromException :=
    (Accesses.start.enter (List.Subset.refl _)).returnFromException
  haccesses.keep_byteAt_other h

/-- Settles O44: the registers are `returnFromException_enter`, the trace is `returnFromException_enter_ports`, and
every other field is one that neither entry nor return writes. -/
theorem returnUndoesExceptionEntry : Obligations.ReturnUndoesExceptionEntry := by
  intro s vector returnPc setI hs hv
  refine ⟨_, rfl, ?_, fun adr hadr => returnFromException_enter_byteAt ?_⟩
  · obtain ⟨hpc, ha, hx, hy, hsp, hcc⟩ := returnFromException_enter returnPc setI hs hv
    obtain ⟨hports, hportIn⟩ := returnFromException_enter_ports returnPc setI hs hv
    have hccReads : (s.enter vector returnPc setI).returnFromException.ccReads = s.ccReads + 1 := by
      rw [returnFromException_ccReads, enter_ccReads]
    obtain ⟨-, -, -, -, -, hphase, hinputs, hreadOnly, hboundary, hcycles, hhidden⟩ :=
      (RegisterFrame.refl (s := s)).enter (vector := vector) (returnPc := returnPc) (setI := setI)
        |>.returnFromException
    generalize (s.enter vector returnPc setI).returnFromException = u at *
    exact (State.mk.injEq ..).mpr ⟨ha, hx, hy, hsp, hpc, hcc, rfl, hphase, hinputs, hportIn, hports, hreadOnly,
      hboundary, hccReads, hcycles, hhidden⟩
  · simpa [frameSlots] using hadr

end Sys2Proof.Proofs
end

section
/-! PROOFS. The branches (`42_flow_control.md` R121, R125 to R139), and what they decide after CMPA (R124). -/

namespace Sys2Proof.Proofs

open Sys2Proof.Machine Sys2Proof.Safety Sys2Proof.Laws

/-- A branch on a Boolean that says `p`, as the claims write it. -/
theorem branch_of_iff {taken : Bool} {p : Prop} [Decidable p] (h : taken = true ↔ p) (s : State) (off : Byte) :
    (Host.Outcome.next (s.branch taken off) : Host.Outcome State Fault Refusal) =
      .next { s with pc := if decide p = true then s.pc + off else s.pc } := by
  have htaken : taken = decide p := by rw [Bool.eq_iff_iff, h, decide_eq_true_iff]
  rw [branch_eq, htaken]

/-- The negation of a Boolean that says `p` says the complement. -/
theorem bnot_iff_of_iff {b : Bool} {p : Prop} (h : b = true ↔ p) : (!b) = true ↔ ¬ p := by
  rw [Bool.not_eq_true', ← Bool.not_eq_true, h]

/-- Settles O21: each mnemonic is `State.branch` on its flag or on the flag's negation. -/
theorem singleFlagBranches : Obligations.SingleFlagBranches := by
  refine ⟨fun s off => ?_, fun _ => ⟨rfl, rfl⟩, fun _ => ⟨rfl, rfl⟩, fun _ => ⟨rfl, rfl⟩, fun _ => ⟨rfl, rfl⟩,
    fun _ => ⟨rfl, rfl⟩, fun _ => ⟨rfl, rfl⟩, fun _ => ⟨rfl, rfl⟩, fun _ => ⟨rfl, rfl⟩, fun _ => ⟨rfl, rfl⟩⟩
  have clear (b : Bool) : (!b) = true ↔ b = false := by rw [Bool.not_eq_true']
  exact ⟨rfl, branch_of_iff Iff.rfl s off, branch_of_iff (clear _) s off, branch_of_iff Iff.rfl s off,
    branch_of_iff (clear _) s off, branch_of_iff Iff.rfl s off, branch_of_iff (clear _) s off,
    branch_of_iff Iff.rfl s off, branch_of_iff (clear _) s off⟩

/-- Settles O22: BLS, BLT and BLE are `State.branch` on their expressions, and BHI, BGE and BGT on the negations. -/
theorem compoundFlagBranches : Obligations.CompoundFlagBranches := by
  refine ⟨fun s off => ?_, fun _ => ⟨rfl, rfl⟩, fun _ => ⟨rfl, rfl⟩, fun _ => ⟨rfl, rfl⟩, fun _ => ⟨rfl, rfl⟩,
    fun _ => ⟨rfl, rfl⟩, fun _ => ⟨rfl, rfl⟩⟩
  have hls : (s.cc.c || s.cc.z) = true ↔ s.cc.c = true ∨ s.cc.z = true := Bool.or_eq_true_iff
  have hlt : Bool.xor s.cc.n s.cc.v = true ↔ s.cc.n ≠ s.cc.v := Bool.xor_iff_ne
  have hle : (Bool.xor s.cc.n s.cc.v || s.cc.z) = true ↔ s.cc.n ≠ s.cc.v ∨ s.cc.z = true := by
    rw [Bool.or_eq_true, hlt]
  have hhi : ¬ (s.cc.c = true ∨ s.cc.z = true) ↔ s.cc.c = false ∧ s.cc.z = false := by
    rw [not_or, Bool.not_eq_true, Bool.not_eq_true]
  have hgt : ¬ (s.cc.n ≠ s.cc.v ∨ s.cc.z = true) ↔ s.cc.n = s.cc.v ∧ s.cc.z = false := by
    rw [not_or, not_ne_iff, Bool.not_eq_true]
  exact ⟨branch_of_iff ((bnot_iff_of_iff hls).trans hhi) s off, branch_of_iff hls s off,
    branch_of_iff ((bnot_iff_of_iff hle).trans hgt) s off,
    branch_of_iff ((bnot_iff_of_iff hlt).trans not_ne_iff) s off, branch_of_iff hle s off, branch_of_iff hlt s off⟩

/-! ### The flags of a difference decide the order (R7) -/

/-- Adding the complement and 1 is the difference in the ring of 256 values. -/
theorem sub8_r_eq_sub (a b : Byte) : (sub8 a b false).r = a - b := by
  rw [sub8_r, add8_r_eq_add, BitVec.sub_eq_add_neg, BitVec.neg_eq_not_add, BitVec.add_assoc]
  rfl

/-- Z says that the operands are equal. -/
theorem sub8_z_iff (a b : Byte) : (sub8 a b false).z = true ↔ a = b := by
  rw [sub8_z, beq_iff_eq, sub8_r_eq_sub]
  exact sub_eq_zero

/-- C says that the first operand is below the second, unsigned. -/
theorem sub8_c_iff (a b : Byte) : (sub8 a b false).c = true ↔ a.toNat < b.toNat := sub8_c a b false

/-- N ⊕ V is the sign of the difference between operands of one sign, where the difference cannot overflow, and the
first operand's sign otherwise. -/
theorem sub8_n_xor_v (a b : Byte) :
    Bool.xor (sub8 a b false).n (sub8 a b false).v =
      if a.sign = b.sign then (sub8 a b false).r.sign else a.sign := by
  have hnot : (~~~b).sign = !b.sign := by simp
  have hv : (sub8 a b false).v = ((!(sub8 a b false).r.sign && a.sign && (~~~b).sign) ||
    ((sub8 a b false).r.sign && !a.sign && !(~~~b).sign)) := rfl
  rw [hv, hnot, sub8_n]
  cases (sub8 a b false).r.sign <;> cases a.sign <;> cases b.sign <;> rfl

/-- N ⊕ V says that the first operand is below the second, signed. -/
theorem sub8_n_xor_v_iff (a b : Byte) :
    Bool.xor (sub8 a b false).n (sub8 a b false).v = true ↔ a.toInt < b.toInt := by
  have hr : (sub8 a b false).r.toNat = (256 - b.toNat + a.toNat) % 256 := by
    rw [sub8_r_eq_sub, BitVec.toNat_sub]
  have ha := sign_iff a
  have hb := sign_iff b
  have hsign := sign_iff (sub8 a b false).r
  have ha256 : a.toNat < 256 := a.isLt
  have hb256 : b.toNat < 256 := b.isLt
  rw [sub8_n_xor_v, BitVec.toInt_eq_toNat_cond, BitVec.toInt_eq_toNat_cond]
  by_cases hsame : a.sign = b.sign
  · rw [if_pos hsame, hsign, hr]
    rw [hsame, hb] at ha
    split <;> split <;> omega
  · rw [if_neg hsame, ha]
    have hdiff : ¬ (128 ≤ a.toNat ↔ 128 ≤ b.toNat) := by rwa [← ha, ← hb, ← Bool.eq_iff_iff]
    split <;> split <;> omega

/-! ### CMPA and a branch -/

/-- The flags that CMPA leaves are those of `A - Opr` (R170), and A is as before the access to the operand. -/
theorem after_cmpa_cc (s : State) (o : Operand) :
    (after (.cmpa o) s).cc = s.cc.withNZVC (sub8 s.a (s.operand o).1 false) := by
  simp only [after, exec, execCmpa, operand_snd_a, operand_snd_cc]

/-- Settles O23: Z, C and N ⊕ V decide the three relations, and each branch takes one of them or its complement,
alone or joined with Z. -/
theorem branchesAfterCompareDecideTheOrder : Obligations.BranchesAfterCompareDecideTheOrder := by
  intro s o off m t
  have hcc : t.cc = s.cc.withNZVC (sub8 s.a m false) := after_cmpa_cc s o
  have heq : t.cc.z = true ↔ s.a = m := by rw [hcc]; exact sub8_z_iff s.a m
  have hlo : t.cc.c = true ↔ s.a.toNat < m.toNat := by rw [hcc]; exact sub8_c_iff s.a m
  have hlt : Bool.xor t.cc.n t.cc.v = true ↔ s.a.toInt < m.toInt := by rw [hcc]; exact sub8_n_xor_v_iff s.a m
  have hls : (t.cc.c || t.cc.z) = true ↔ s.a.toNat ≤ m.toNat := by
    rw [Bool.or_eq_true, hlo, heq, Nat.le_iff_lt_or_eq, BitVec.toNat_inj]
  have hle : (Bool.xor t.cc.n t.cc.v || t.cc.z) = true ↔ s.a.toInt ≤ m.toInt := by
    rw [Bool.or_eq_true, hlt, heq, Int.le_iff_lt_or_eq, BitVec.toInt_inj]
  exact ⟨branch_of_iff heq t off, branch_of_iff (bnot_iff_of_iff heq) t off, branch_of_iff hlo t off,
    branch_of_iff ((bnot_iff_of_iff hlo).trans Nat.not_lt) t off,
    branch_of_iff ((bnot_iff_of_iff hls).trans Nat.not_le) t off, branch_of_iff hls t off,
    branch_of_iff ((bnot_iff_of_iff hle).trans Int.not_le) t off,
    branch_of_iff ((bnot_iff_of_iff hlt).trans Int.not_lt) t off, branch_of_iff hle t off, branch_of_iff hlt t off⟩

end Sys2Proof.Proofs
end

section
/-! PROOFS. The 8-bit sum and difference as arithmetic on integers (`00_scope.md` R6, R7; `43_integer_arithmetic.md`
R162): the result modulo 256, the carry or borrow, and V as signed overflow. -/

namespace Sys2Proof.Proofs

open Sys2Proof.Machine Sys2Proof.Safety Sys2Proof.Laws

/-! ### A result's flags, as the claims write them -/

theorem withNZVC_eq_flags {o : Result} {n z v c : Prop} [Decidable n] [Decidable z] [Decidable v] [Decidable c]
    (hn : o.n = true ↔ n) (hz : o.z = true ↔ z) (hv : o.v = true ↔ v) (hc : o.c = true ↔ c) (cc : CC) :
    cc.withNZVC o = flags cc n z v c := by
  simp only [CC.withNZVC, flags, ← hn, ← hz, ← hv, ← hc, Bool.decide_eq_true]

theorem withNZV_eq_flags {o : Result} {n z v : Prop} [Decidable n] [Decidable z] [Decidable v]
    (hn : o.n = true ↔ n) (hz : o.z = true ↔ z) (hv : o.v = true ↔ v) (cc : CC) :
    cc.withNZV o = flags cc n z v (cc.c = true) := by
  simp only [CC.withNZV, flags, ← hn, ← hz, ← hv, Bool.decide_eq_true]

/-! ### The sum -/

/-- The result of the sum is the sum modulo 256. -/
theorem add8_r_toNat (a b : Byte) (cin : Bool) :
    (add8 a b cin).r.toNat = (a.toNat + b.toNat + cin.toNat) % 256 := by
  rw [add8_r, BitVec.toNat_ofNat]

/-- N is bit 7 of the sum. -/
theorem add8_n_iff (a b : Byte) (cin : Bool) :
    (add8 a b cin).n = true ↔ 128 ≤ (a.toNat + b.toNat + cin.toNat) % 256 := by
  rw [add8_n, sign_iff, add8_r_toNat]

/-- Z says that the sum is a multiple of 256. -/
theorem add8_z_iff (a b : Byte) (cin : Bool) :
    (add8 a b cin).z = true ↔ (a.toNat + b.toNat + cin.toNat) % 256 = 0 := by
  rw [add8_z, beq_iff_eq, ← BitVec.toNat_inj, add8_r_toNat]
  rfl

/-- V of R6 in words: the operands have one sign, and the result has the other. -/
theorem add8_v_iff_signs (a b : Byte) (cin : Bool) :
    (add8 a b cin).v = true ↔ (Negative a ↔ Negative b) ∧ ¬ (Negative (add8 a b cin).r ↔ Negative a) := by
  have hv : (add8 a b cin).v = ((!(add8 a b cin).r.sign && a.sign && b.sign) ||
    ((add8 a b cin).r.sign && !a.sign && !b.sign)) := rfl
  simp only [hv, Negative, ← sign_iff]
  cases (add8 a b cin).r.sign <;> cases a.sign <;> cases b.sign <;> decide

/-- V says that the true signed sum leaves -128..127 (R162): operands of different signs cannot overflow, and operands
of one sign overflow exactly when the result has the other. -/
theorem add8_v_iff (a b : Byte) (cin : Bool) :
    (add8 a b cin).v = true ↔ Overflows (a.toInt + b.toInt + (cin.toNat : Int)) := by
  have hr := add8_r_toNat a b cin
  have ha256 : a.toNat < 256 := a.isLt
  have hb256 : b.toNat < 256 := b.isLt
  have hcin : cin.toNat ≤ 1 := Bool.toNat_le cin
  simp only [add8_v_iff_signs, Negative, hr, BitVec.toInt_eq_toNat_cond]
  split <;> split <;> omega

/-! ### The difference, as the sum with the complement -/

/-- The result of the difference is the difference modulo 256. -/
theorem sub8_r_toNat (a b : Byte) (bin : Bool) :
    ((sub8 a b bin).r.toNat : Int) = ((a.toNat : Int) - b.toNat - bin.toNat) % 256 := by
  have hb256 : b.toNat < 256 := b.isLt
  have hnot : (~~~b).toNat = 255 - b.toNat := BitVec.toNat_not
  have hbin : (!bin).toNat = 1 - bin.toNat := by cases bin <;> rfl
  have hle : bin.toNat ≤ 1 := Bool.toNat_le bin
  rw [sub8_r, add8_r_toNat, hnot, hbin]
  omega

theorem sub8_r_eq_ofInt (a b : Byte) (bin : Bool) :
    (sub8 a b bin).r = BitVec.ofInt 8 ((a.toNat : Int) - b.toNat - bin.toNat) := by
  apply BitVec.eq_of_toNat_eq
  rw [BitVec.toNat_ofInt, ← Int.toNat_natCast (sub8 a b bin).r.toNat, sub8_r_toNat]
  rfl

/-- N is bit 7 of the difference. -/
theorem sub8_n_iff (a b : Byte) (bin : Bool) :
    (sub8 a b bin).n = true ↔ 128 ≤ ((a.toNat : Int) - b.toNat - bin.toNat) % 256 := by
  rw [sub8_n, sign_iff, ← sub8_r_toNat]
  exact Int.ofNat_le.symm

/-- Z says that the difference, borrow included, is a multiple of 256. -/
theorem sub8_z_iff_emod (a b : Byte) (bin : Bool) :
    (sub8 a b bin).z = true ↔ ((a.toNat : Int) - b.toNat - bin.toNat) % 256 = 0 := by
  rw [sub8_z, beq_iff_eq, ← BitVec.toNat_inj, ← sub8_r_toNat]
  exact Int.natCast_eq_zero.symm

/-- C says that the difference is below 0. -/
theorem sub8_c_iff_neg (a b : Byte) (bin : Bool) :
    (sub8 a b bin).c = true ↔ (a.toNat : Int) - b.toNat - bin.toNat < 0 := by
  rw [sub8_c]
  omega

theorem toInt_complement (b : Byte) : (~~~b).toInt = -b.toInt - 1 := by
  have hb256 : b.toNat < 256 := b.isLt
  have hnot : (~~~b).toNat = 255 - b.toNat := BitVec.toNat_not
  rw [BitVec.toInt_eq_toNat_cond, BitVec.toInt_eq_toNat_cond, hnot]
  split <;> split <;> omega

/-- V says that the true signed difference leaves -128..127 (R162): it is the signed sum with `~b`, which is
`-b - 1`, and with the inverted borrow. -/
theorem sub8_v_iff (a b : Byte) (bin : Bool) :
    (sub8 a b bin).v = true ↔ Overflows (a.toInt - b.toInt - (bin.toNat : Int)) := by
  have hbin : (((!bin).toNat : Nat) : Int) = 1 - bin.toNat := by cases bin <;> rfl
  have hv : (sub8 a b bin).v = (add8 a (~~~b) (!bin)).v := rfl
  rw [hv, add8_v_iff, toInt_complement, hbin]
  have hsum : a.toInt + (-b.toInt - 1) + (1 - bin.toNat) = a.toInt - b.toInt - bin.toNat := by ring
  rw [hsum]

end Sys2Proof.Proofs
end

section
/-! PROOFS. Additions and subtractions on A (`43_integer_arithmetic.md` R150 to R153). -/

namespace Sys2Proof.Proofs

open Sys2Proof.Machine Sys2Proof.Safety Sys2Proof.Laws

/-- What the four instructions have in common: a result of A and the operand goes to A, and its flags to CC. -/
def withResultInA (s : State) (o : Operand) (q : Result) : State :=
  { (s.operand o).2 with a := q.r, cc := s.cc.withNZVC q }

/-- ADDA and ADCA are `add8` of A and the operand, with carry in 0 or C; the access to the operand changes neither A
nor C. -/
theorem exec_addition {s : State} {o : Operand} {i : Instr} {cin : Nat}
    (h : (i, cin) ∈ [(.adda o, 0), (.adca o, s.cc.c.toNat)]) :
    ∃ b : Bool, cin = b.toNat ∧ exec i s = .next (withResultInA s o (add8 s.a (s.operand o).1 b)) := by
  simp only [List.mem_cons, Prod.mk.injEq, List.not_mem_nil, or_false] at h
  rcases h with ⟨rfl, rfl⟩ | ⟨rfl, rfl⟩
  · exact ⟨false, rfl, by simp only [exec, execAdda, operand_snd_a, operand_snd_cc, withResultInA]⟩
  · exact ⟨s.cc.c, rfl, by simp only [exec, execAdca, operand_snd_a, operand_snd_cc, withResultInA]⟩

/-- SUBA and SBCA are `sub8` of A and the operand, with borrow in 0 or C. -/
theorem exec_subtraction {s : State} {o : Operand} {i : Instr} {bin : Nat}
    (h : (i, bin) ∈ [(.suba o, 0), (.sbca o, s.cc.c.toNat)]) :
    ∃ b : Bool, bin = b.toNat ∧ exec i s = .next (withResultInA s o (sub8 s.a (s.operand o).1 b)) := by
  simp only [List.mem_cons, Prod.mk.injEq, List.not_mem_nil, or_false] at h
  rcases h with ⟨rfl, rfl⟩ | ⟨rfl, rfl⟩
  · exact ⟨false, rfl, by simp only [exec, execSuba, operand_snd_a, operand_snd_cc, withResultInA]⟩
  · exact ⟨s.cc.c, rfl, by simp only [exec, execSbca, operand_snd_a, operand_snd_cc, withResultInA]⟩

/-- Settles O24: the result is that of `add8`, whose flags are those of the exact sum. ADDA and ADCA are rows 6 and 5 of
the two-operand group. -/
theorem additionsAreExact : Obligations.AdditionsAreExact := by
  refine ⟨fun s o i cin h => ?_, binaryRows_of_encode (row := 0x6#8) fun _ => ⟨rfl, rfl⟩,
    binaryRows_of_encode (row := 0x5#8) fun _ => ⟨rfl, rfl⟩⟩
  obtain ⟨b, rfl, hexec⟩ := exec_addition h
  intro d sum
  rw [hexec, withResultInA, withNZVC_eq_flags (add8_n_iff s.a d.1 b) (add8_z_iff s.a d.1 b) (add8_v_iff s.a d.1 b)
    (add8_c s.a d.1 b), add8_r]

/-- Settles O25: the result is that of `sub8`, whose flags are those of the exact difference. SUBA and SBCA are rows 4
and 3 of the two-operand group. -/
theorem subtractionsAreExact : Obligations.SubtractionsAreExact := by
  refine ⟨fun s o i bin h => ?_, binaryRows_of_encode (row := 0x4#8) fun _ => ⟨rfl, rfl⟩,
    binaryRows_of_encode (row := 0x3#8) fun _ => ⟨rfl, rfl⟩⟩
  obtain ⟨b, rfl, hexec⟩ := exec_subtraction h
  intro d diff
  rw [hexec, withResultInA, withNZVC_eq_flags (sub8_n_iff s.a d.1 b) (sub8_z_iff_emod s.a d.1 b)
    (sub8_v_iff s.a d.1 b) (sub8_c_iff_neg s.a d.1 b), sub8_r_eq_ofInt]

end Sys2Proof.Proofs
end

section
/-! PROOFS. The one-operand arithmetic (`43_integer_arithmetic.md` R154 to R161): CLR is one write, and the forms of
NEG, DEC and INC on memory are read-modify-write (R163). -/

namespace Sys2Proof.Proofs

open Sys2Proof.Machine Sys2Proof.Safety Sys2Proof.Laws

/-! ### Clears -/

/-- Settles O28: CLR is a store of 0 (`storeAt_wrote`, `storeAt_eq`) over the cleared flags, and a store does not read.
CLR is row 5 of the one-operand memory group. -/
theorem clearsWriteZeroWithoutReading : Obligations.ClearsWriteZeroWithoutReading := by
  refine ⟨fun _ => rfl, fun s m => ⟨{ s.storeAt m 0#8 with cc := s.cc.cleared }, rfl, ?_, ?_⟩, ⟨rfl, rfl⟩,
    unaryRows_of_encode (row := 0x5#8) fun _ => ⟨rfl, rfl⟩⟩
  · have h := storeAt_wrote s m 0#8
    exact ⟨h.output, h.quiet, h.stored, h.dropped, h.others⟩
  · exact congrArg (fun t : State => { t with cc := s.cc.cleared }) (storeAt_eq s m 0#8)

/-! ### Read-modify-write forms -/

/-- An instruction that is `State.modify` does what the claims say of a read-modify-write form (R163), with its byte
and flag functions as the claims write them. -/
theorem modifies_of_exec {i : Instr} {m : AddrMode} {s : State} {f r : Byte → CC → Byte} {g cc : Byte → CC → CC}
    (h : exec i s = .next (s.modify m f g)) (hr : ∀ v c, f v c = r v c) (hcc : ∀ v c, g v c = cc v c) :
    Modifies i m r cc s := by
  obtain rfl : f = r := funext₂ hr
  obtain rfl : g = cc := funext₂ hcc
  exact ⟨s.modify m f g, h, modify_wrote s m f g, modify_eq s m f g⟩

/-! ### Signed overflow at the bounds -/

theorem toInt_bounds (v : Byte) : -128 ≤ v.toInt ∧ v.toInt ≤ 127 :=
  ⟨BitVec.le_toInt v, Int.le_of_lt_add_one BitVec.toInt_lt⟩

theorem toInt_eq_min_iff (v : Byte) : v.toInt = -128 ↔ v = 0x80#8 :=
  BitVec.toInt_inj (y := 0x80#8)

theorem toInt_eq_max_iff (v : Byte) : v.toInt = 127 ↔ v = 0x7F#8 :=
  BitVec.toInt_inj (y := 0x7F#8)

/-! ### The negation `0 - v` -/

theorem sub8_zero_r (v : Byte) : (sub8 0#8 v false).r = BitVec.ofNat 8 (256 - v.toNat) := by
  rw [sub8_r_eq_sub]
  rfl

theorem sub8_zero_v_iff (v : Byte) : (sub8 0#8 v false).v = true ↔ v = 0x80#8 := by
  have hbounds := toInt_bounds v
  have hover : Overflows ((0#8 : Byte).toInt - v.toInt - (false.toNat : Int)) ↔ v.toInt = -128 := by
    simp only [BitVec.toInt_zero, Bool.toNat_false]
    omega
  rw [sub8_v_iff, hover, toInt_eq_min_iff]

/-- A negation borrows unless the value is 0. -/
theorem sub8_zero_c_iff (v : Byte) : (sub8 0#8 v false).c = true ↔ v ≠ 0#8 := by
  rw [sub8_c_iff, ne_eq, ← BitVec.toNat_inj]
  exact Nat.pos_iff_ne_zero

theorem withNZVC_sub8_zero (cc : CC) (v : Byte) :
    cc.withNZVC (sub8 0#8 v false) =
      flags cc (Negative (BitVec.ofNat 8 (256 - v.toNat))) (v = 0#8) (v = 0x80#8) (v ≠ 0#8) := by
  refine withNZVC_eq_flags ?_ ((sub8_z_iff 0#8 v).trans eq_comm) (sub8_zero_v_iff v) (sub8_zero_c_iff v) cc
  rw [sub8_n, sign_iff, sub8_zero_r]

/-- Settles O29: NEGA and NEG are `0 - v` (`sub8_zero_r`, `withNZVC_sub8_zero`), on A and as a read-modify-write form.
NEG is row 6 of the one-operand memory group. -/
theorem negationsAreExact : Obligations.NegationsAreExact := by
  unfold Obligations.NegationsAreExact
  intro r cc
  refine ⟨fun s => ?_, fun s m => modifies_of_exec rfl (fun v _ => sub8_zero_r v) (fun v c => withNZVC_sub8_zero c v),
    ⟨rfl, rfl⟩, unaryRows_of_encode (row := 0x6#8) fun _ => ⟨rfl, rfl⟩⟩
  simp only [exec, execNega, sub8_zero_r, withNZVC_sub8_zero, r, cc]

/-! ### The decrement `v + $FF` and the increment `v + 0 + 1` -/

/-- V of a decrement: -1 is added to the signed value. -/
theorem add8_minusOne_v_iff (v : Byte) : (add8 v 0xFF#8 false).v = true ↔ v = 0x80#8 := by
  have hbounds := toInt_bounds v
  have hone : (0xFF#8 : Byte).toInt = -1 := rfl
  have hover : Overflows (v.toInt + (0xFF#8 : Byte).toInt + (false.toNat : Int)) ↔ v.toInt = -128 := by
    rw [hone, Bool.toNat_false]
    omega
  rw [add8_v_iff, hover, toInt_eq_min_iff]

theorem withNZV_decrement (cc : CC) (v : Byte) :
    cc.withNZV (add8 v 0xFF#8 false) =
      flags cc (Negative (BitVec.ofNat 8 (v.toNat + 255))) (v = 1#8) (v = 0x80#8) (cc.c = true) := by
  refine withNZV_eq_flags (sign_iff _) ?_ (add8_minusOne_v_iff v) cc
  have hv := v.isLt
  have hsum : v.toNat + (0xFF#8 : Byte).toNat + false.toNat = v.toNat + 255 := rfl
  have hone : (1#8 : Byte).toNat = 1 := rfl
  rw [add8_z_iff, hsum, ← BitVec.toNat_inj, hone]
  omega

/-- V of an increment: 1 is added to the signed value, as the carry. -/
theorem add8_plusOne_v_iff (v : Byte) : (add8 v 0x00#8 true).v = true ↔ v = 0x7F#8 := by
  have hbounds := toInt_bounds v
  have hover : Overflows (v.toInt + (0x00#8 : Byte).toInt + (true.toNat : Int)) ↔ v.toInt = 127 := by
    simp only [BitVec.toInt_zero, Bool.toNat_true]
    omega
  rw [add8_v_iff, hover, toInt_eq_max_iff]

theorem withNZV_increment (cc : CC) (v : Byte) :
    cc.withNZV (add8 v 0x00#8 true) =
      flags cc (Negative (BitVec.ofNat 8 (v.toNat + 1))) (v = 0xFF#8) (v = 0x7F#8) (cc.c = true) := by
  refine withNZV_eq_flags (sign_iff _) ?_ (add8_plusOne_v_iff v) cc
  have hv := v.isLt
  have hsum : v.toNat + (0x00#8 : Byte).toNat + true.toNat = v.toNat + 1 := rfl
  have hmax : (0xFF#8 : Byte).toNat = 255 := rfl
  rw [add8_z_iff, hsum, ← BitVec.toNat_inj, hmax]
  omega

/-- Settles O30: the byte of each is the sum itself, and the flags are `withNZV_decrement` and `withNZV_increment`,
which keep C. DEC and INC are rows 8 and 7 of the one-operand memory group. -/
theorem decrementsAndIncrementsKeepCarry : Obligations.DecrementsAndIncrementsKeepCarry := by
  unfold Obligations.DecrementsAndIncrementsKeepCarry
  intro down ccDown up ccUp
  have hdown : ∀ v (c : CC), c.withNZV (add8 v 0xFF#8 false) = ccDown v c := fun v c => withNZV_decrement c v
  have hup : ∀ v (c : CC), c.withNZV (add8 v 0x00#8 true) = ccUp v c := fun v c => withNZV_increment c v
  refine ⟨fun s => ?_,
    fun s m => ⟨modifies_of_exec rfl (fun _ _ => rfl) hdown, modifies_of_exec rfl (fun _ _ => rfl) hup⟩,
    ⟨rfl, rfl⟩, unaryRows_of_encode (row := 0x8#8) fun _ => ⟨rfl, rfl⟩,
    ⟨rfl, rfl⟩, unaryRows_of_encode (row := 0x7#8) fun _ => ⟨rfl, rfl⟩⟩
  rw [← hdown, ← hup]
  exact ⟨rfl, rfl⟩

end Sys2Proof.Proofs
end

section
/-! PROOFS. Integer test (`44_integer_test.md` R170 to R176): after the access to its operand an instruction writes
flags only. -/

namespace Sys2Proof.Proofs

open Sys2Proof.Machine Sys2Proof.Safety Sys2Proof.Laws

/-! ### Compares -/

/-- The flags of a difference without borrow in are those of the exact difference (R162), with Z and C as the
order of the operands. -/
theorem withNZVC_sub8_eq_flags (cc : CC) (r m : Byte) :
    cc.withNZVC (sub8 r m false) =
      flags cc (128 ≤ ((r.toNat : Int) - m.toNat) % 256) (r = m) (Overflows (r.toInt - m.toInt))
        (r.toNat < m.toNat) := by
  have hbin : ((false.toNat : Nat) : Int) = 0 := rfl
  have hn := sub8_n_iff r m false
  have hv := sub8_v_iff r m false
  rw [hbin, Int.sub_zero] at hn hv
  exact withNZVC_eq_flags hn (sub8_z_iff r m) hv (sub8_c_iff r m) cc

/-- A compare is `sub8` of its register, as it is before the access to the operand, and the operand. No access changes
A or SP; the operands that CMPX and CMPY have in the map change no X and no Y. -/
theorem exec_compare {s : State} {o : Operand} {i : Instr} {r : Byte}
    (h : (i, r) ∈ [(.cmpa o, s.a), (.cmpx o, s.x), (.cmpy o, s.y), (.cmpsp o, s.sp)]) (hwf : i.wf = true) :
    exec i s = .next { (s.operand o).2 with cc := s.cc.withNZVC (sub8 r (s.operand o).1 false) } := by
  simp only [List.mem_cons, Prod.mk.injEq, List.not_mem_nil, or_false] at h
  rcases h with ⟨rfl, rfl⟩ | ⟨rfl, rfl⟩ | ⟨rfl, rfl⟩ | ⟨rfl, rfl⟩
  · simp only [exec, execCmpa, operand_snd_a, operand_snd_cc]
  · obtain ⟨hx, -⟩ := operand_snd_xy_of_isBinary (s := s) (isBinary_of_isCmpXY hwf)
    simp only [exec, execCmpx, hx, operand_snd_cc]
  · obtain ⟨-, hy⟩ := operand_snd_xy_of_isBinary (s := s) (isBinary_of_isCmpXY hwf)
    simp only [exec, execCmpy, hy, operand_snd_cc]
  · simp only [exec, execCmpsp, operand_snd_sp, operand_snd_cc]

/-- Settles O26: a compare stores the flags of `sub8` and no result (`exec_compare`), and they are those of the exact
difference. CMPA is row 7 of the two-operand group. -/
theorem comparesSetFlagsOnly : Obligations.ComparesSetFlagsOnly := by
  refine ⟨fun s o i r h hwf => ?_, binaryRows_of_encode (row := 0x7#8) fun _ => ⟨rfl, rfl⟩,
    fun _ => ⟨rfl, rfl⟩, fun _ => ⟨rfl, rfl⟩, fun _ => ⟨rfl, rfl⟩, fun _ => ⟨rfl, rfl⟩, fun _ => ⟨rfl, rfl⟩,
    fun _ => ⟨rfl, rfl⟩, fun _ => ⟨rfl, rfl⟩, fun _ => ⟨rfl, rfl⟩⟩
  intro d diff
  rw [exec_compare h hwf, withNZVC_sub8_eq_flags]

/-! ### Tests of bits, of A and of memory -/

/-- The flags of TSTA and TST: N and Z of the byte, V and C cleared (R175, R176). -/
theorem withNZ00_eq_flags (cc : CC) (r : Byte) :
    cc.withNZ00 r = flags cc (Negative r) (IsZero r) False False := by
  simp only [CC.withNZ00, nz, flags, sign_eq_decide, beq_zero_eq_decide, decide_false]

/-- Settles O27: BITA stores the flags of `withNZ0`, which keep C, TSTA and TST those of `withNZ00`, which clear it, and
the access to the operand changes neither A nor CC. BITA is row 8 of the two-operand group, TST row 9 of the one-operand
memory group. -/
theorem bitTestsSetFlagsOnly : Obligations.BitTestsSetFlagsOnly := by
  refine ⟨fun s o => ?bita, fun s => ?tsta, fun s m => ?tst,
    binaryRows_of_encode (row := 0x8#8) fun _ => ⟨rfl, rfl⟩, ⟨rfl, rfl⟩,
    unaryRows_of_encode (row := 0x9#8) fun _ => ⟨rfl, rfl⟩⟩
  case bita => simp only [exec, execBita, operand_snd_a, operand_snd_cc, withNZ0_eq_flags]
  case tsta => simp only [exec, execTsta, withNZ00_eq_flags]
  case tst => simp only [exec, execTst, operand_snd_cc, withNZ00_eq_flags]

end Sys2Proof.Proofs
end

section
/-! PROOFS. Logical operations (`45_logical.md` R180 to R186): bitwise results with V cleared and C kept, and the two
masks on CC. -/

namespace Sys2Proof.Proofs

open Sys2Proof.Machine Sys2Proof.Safety Sys2Proof.Laws

/-! ### The ones' complement -/

/-- The ones' complement is `$FF` minus the value (R185). -/
theorem toNat_complement (v : Byte) : (~~~v).toNat = 255 - v.toNat := BitVec.toNat_not

theorem complement_eq_ofNat (v : Byte) : ~~~v = BitVec.ofNat 8 (255 - v.toNat) := by
  rw [← toNat_complement, BitVec.ofNat_toNat, BitVec.setWidth_eq]

/-- The complement inverts bit 7. -/
theorem negative_complement_iff (v : Byte) : Negative (~~~v) ↔ v.toNat < 128 := by
  rw [Negative, toNat_complement]
  omega

theorem isZero_complement_iff (v : Byte) : IsZero (~~~v) ↔ v = 0xFF#8 := by
  have hv : v.toNat < 256 := v.isLt
  have hmax : (0xFF#8 : Byte).toNat = 255 := rfl
  rw [IsZero, toNat_complement, ← BitVec.toNat_inj, hmax]
  omega

/-- The flags of COMA and COM, from the value before the complement. -/
theorem withNZ0_complement (cc : CC) (v : Byte) :
    cc.withNZ0 (~~~v) = flags cc (v.toNat < 128) (v = 0xFF#8) False (cc.c = true) := by
  simp only [withNZ0_eq_flags, flags, negative_complement_iff, isZero_complement_iff]

/-- Settles O33: the byte is `complement_eq_ofNat` and the flags are `withNZ0_complement`, on A and as a
read-modify-write form (R163). COM is row A of the one-operand memory group. -/
theorem complementsKeepCarry : Obligations.ComplementsKeepCarry := by
  unfold Obligations.ComplementsKeepCarry
  intro r cc
  refine ⟨fun s => ?_,
    fun s m => modifies_of_exec rfl (fun v _ => complement_eq_ofNat v) (fun v c => withNZ0_complement c v),
    ⟨rfl, rfl⟩, unaryRows_of_encode (row := 0xA#8) fun _ => ⟨rfl, rfl⟩⟩
  have hr : ~~~s.a = r s.a := complement_eq_ofNat s.a
  have hcc : s.cc.withNZ0 (~~~s.a) = cc s.a s.cc := withNZ0_complement s.cc s.a
  rw [← hr, ← hcc]
  rfl

/-! ### ANDA, ORA, EORA -/

/-- Each of the three puts its bitwise result of A and the operand in A and stores the flags of `withNZ0`; the access to
the operand changes neither A nor CC. -/
theorem exec_logical {s : State} {o : Operand} {i : Instr} {f : Byte → Byte → Byte}
    (h : (i = .anda o ∧ f = (· &&& ·)) ∨ (i = .ora o ∧ f = (· ||| ·)) ∨ (i = .eora o ∧ f = (· ^^^ ·))) :
    exec i s = .next { (s.operand o).2 with
      a := f s.a (s.operand o).1
      cc := s.cc.withNZ0 (f s.a (s.operand o).1) } := by
  rcases h with ⟨rfl, rfl⟩ | ⟨rfl, rfl⟩ | ⟨rfl, rfl⟩
  · simp only [exec, execAnda, operand_snd_a, operand_snd_cc]
  · simp only [exec, execOra, operand_snd_a, operand_snd_cc]
  · simp only [exec, execEora, operand_snd_a, operand_snd_cc]

/-- Settles O31: the result is that of `exec_logical`, its flags are those of `withNZ0`. ANDA, ORA and EORA are rows 9,
A and B of the two-operand group. -/
theorem logicalOperationsOnA : Obligations.LogicalOperationsOnA := by
  refine ⟨fun s o i f h => ?_, binaryRows_of_encode (row := 0x9#8) fun _ => ⟨rfl, rfl⟩,
    binaryRows_of_encode (row := 0xA#8) fun _ => ⟨rfl, rfl⟩,
    binaryRows_of_encode (row := 0xB#8) fun _ => ⟨rfl, rfl⟩⟩
  intro d
  rw [exec_logical h, withNZ0_eq_flags]

/-! ### ANDCC, ORCC -/

/-- Settles O32: both masks take bits 4 to 0 of the operand (`getLsbD_eq_decide`), one for each flag. -/
theorem flagMasksOnCC : Obligations.FlagMasksOnCC := by
  refine ⟨fun s d => ?_, fun _ => ⟨rfl, rfl⟩, fun _ => ⟨rfl, rfl⟩⟩
  intro bit
  have hbit : ∀ k, d.getLsbD k = decide (bit k) := getLsbD_eq_decide d
  constructor
  · simp only [exec, execAndcc, CC.and, hbit]
  · simp only [exec, execOrcc, CC.or, hbit]

end Sys2Proof.Proofs
end

section
/-! PROOFS. The shift primitives `shl`, `shr`, `sar` (`46_shift_rotate.md` R200): the bits of a result, its value as
arithmetic, and its flags. -/

namespace Sys2Proof.Proofs

open Sys2Proof.Machine Sys2Proof.Safety Sys2Proof.Laws

/-- An exclusive or, as the claims write a difference of two flags. -/
theorem xor_iff_not_iff {a b : Bool} {p q : Prop} (ha : a = true ↔ p) (hb : b = true ↔ q) :
    Bool.xor a b = true ↔ ¬ (p ↔ q) := by
  rw [Bool.xor_iff_ne, Ne, Bool.eq_iff_iff, ha, hb]

/-- Z of a result, from the value of its byte. -/
theorem result_z_iff {q : Result} {n : Nat} (hz : q.z = (q.r == 0#8)) (hr : q.r.toNat = n) :
    q.z = true ↔ n = 0 := by
  rw [hz, beq_zero_eq_decide, decide_eq_true_iff, IsZero, hr]

/-- The carry in, as a byte. -/
theorem carryByte_toNat (b : Bool) : (BitVec.setWidth 8 (BitVec.ofBool b)).toNat = b.toNat := by
  cases b <;> rfl

/-- C of a right shift is bit 0, the remainder of the halving. -/
theorem getLsbD_zero_iff (d : Byte) : d.getLsbD 0 = true ↔ d.toNat % 2 = 1 := by
  rw [getLsbD_eq_decide, decide_eq_true_iff, Nat.pow_zero, Nat.div_one]

/-! ### The left shift -/

/-- `u = d[6:0] ++ cin`. -/
theorem shl_r_getLsbD (d : Byte) (cin : Bool) (k : Nat) :
    (shl d cin).r.getLsbD k = if k = 0 then cin else decide (k < 8) && d.getLsbD (k - 1) := by
  cases k <;> simp [shl]

/-- The result is twice the value, plus the carry in. -/
theorem shl_r_toNat (d : Byte) (cin : Bool) : (shl d cin).r.toNat = (2 * d.toNat + cin.toNat) % 256 := by
  have hcin : cin.toNat < 2 ^ 1 := Bool.toNat_lt cin
  have hshift : (d <<< 1).toNat = 2 ^ 1 * (d.toNat % 128) := by
    rw [BitVec.toNat_shiftLeft, Nat.shiftLeft_eq]
    omega
  have hor : (shl d cin).r.toNat = 2 ^ 1 * (d.toNat % 128) ||| cin.toNat := by
    rw [← hshift, ← carryByte_toNat]
    exact BitVec.toNat_or ..
  rw [hor, ← Nat.two_pow_add_eq_or_of_lt hcin]
  omega

theorem shl_r_eq_ofNat (d : Byte) (cin : Bool) : (shl d cin).r = BitVec.ofNat 8 (2 * d.toNat + cin.toNat) :=
  BitVec.eq_of_toNat_eq ((shl_r_toNat d cin).trans (BitVec.toNat_ofNat _ 8).symm)

theorem shl_n_iff (d : Byte) (cin : Bool) : (shl d cin).n = true ↔ 128 ≤ (2 * d.toNat + cin.toNat) % 256 :=
  (sign_iff (shl d cin).r).trans (by rw [shl_r_toNat])

theorem shl_z_iff (d : Byte) (cin : Bool) : (shl d cin).z = true ↔ (2 * d.toNat + cin.toNat) % 256 = 0 :=
  result_z_iff rfl (shl_r_toNat d cin)

theorem shl_c_iff (d : Byte) (cin : Bool) : (shl d cin).c = true ↔ Negative d := sign_iff d

/-- The old bit 6 is N afterwards, so V of R200 is the difference of C and N afterwards (R192). -/
theorem shl_v_eq_c_xor_n (d : Byte) (cin : Bool) : (shl d cin).v = Bool.xor (shl d cin).c (shl d cin).n := by
  have hn : (shl d cin).n = d.getLsbD 6 := shl_r_getLsbD d cin 7
  rw [hn]
  rfl

theorem withNZVC_shl (cc : CC) (d : Byte) (cin : Bool) :
    cc.withNZVC (shl d cin) =
      flags cc (128 ≤ (2 * d.toNat + cin.toNat) % 256) ((2 * d.toNat + cin.toNat) % 256 = 0)
        (¬ (Negative d ↔ 128 ≤ (2 * d.toNat + cin.toNat) % 256)) (Negative d) :=
  withNZVC_eq_flags (shl_n_iff d cin) (shl_z_iff d cin)
    (shl_v_eq_c_xor_n d cin ▸ xor_iff_not_iff (shl_c_iff d cin) (shl_n_iff d cin)) (shl_c_iff d cin) cc

/-! ### The right shift -/

/-- `u = cin ++ d[7:1]`. -/
theorem shr_r_getLsbD (d : Byte) (cin : Bool) (k : Nat) :
    (shr d cin).r.getLsbD k = if k = 7 then cin else d.getLsbD (k + 1) := by
  obtain rfl | hlow | hhigh : k = 7 ∨ k < 7 ∨ 7 < k := by omega
  · simp [shr]
  · simp [shr, hlow.ne, hlow, Nat.add_comm 1 k]
  · rw [if_neg hhigh.ne', BitVec.getLsbD_of_ge _ k hhigh, BitVec.getLsbD_of_ge d (k + 1) (by omega)]

/-- The result is half the value, rounded down, with the carry in as bit 7. -/
theorem shr_r_toNat (d : Byte) (cin : Bool) : (shr d cin).r.toNat = d.toNat / 2 + 128 * cin.toNat := by
  have hd : d.toNat < 256 := d.isLt
  have hhalf : (d >>> 1).toNat = d.toNat / 2 := BitVec.toNat_ushiftRight d 1
  have hlow : d.toNat / 2 < 2 ^ 7 := by omega
  have hcarry : (BitVec.setWidth 8 (BitVec.ofBool cin) <<< 7).toNat = 2 ^ 7 * cin.toNat := by
    cases cin <;> rfl
  have hor : (shr d cin).r.toNat = d.toNat / 2 ||| 2 ^ 7 * cin.toNat := by
    rw [← hhalf, ← hcarry]
    exact BitVec.toNat_or ..
  rw [hor, Nat.or_comm, ← Nat.two_pow_add_eq_or_of_lt hlow, Nat.add_comm]

theorem shr_r_eq_ofNat (d : Byte) (cin : Bool) : (shr d cin).r = BitVec.ofNat 8 (d.toNat / 2 + 128 * cin.toNat) := by
  rw [← shr_r_toNat, BitVec.ofNat_toNat, BitVec.setWidth_eq]

theorem shr_z_iff (d : Byte) (cin : Bool) : (shr d cin).z = true ↔ d.toNat / 2 + 128 * cin.toNat = 0 :=
  result_z_iff rfl (shr_r_toNat d cin)

/-- V says that the shift changes the sign bit (D17). -/
theorem shr_v_iff (d : Byte) (cin : Bool) : (shr d cin).v = true ↔ ¬ (Negative d ↔ cin.toNat = 1) := by
  have hv : (shr d cin).v = Bool.xor d.sign cin := Bool.xor_comm cin d.sign
  rw [hv, xor_iff_not_iff (sign_iff d) Bool.toNat_eq_one.symm]

theorem withNZVC_shr (cc : CC) (d : Byte) (cin : Bool) :
    cc.withNZVC (shr d cin) =
      flags cc (cin.toNat = 1) (d.toNat / 2 + 128 * cin.toNat = 0) (¬ (Negative d ↔ cin.toNat = 1))
        (d.toNat % 2 = 1) :=
  withNZVC_eq_flags (by rw [shr_n, Bool.toNat_eq_one]) (shr_z_iff d cin) (shr_v_iff d cin)
    (getLsbD_zero_iff d) cc

/-! ### The arithmetic right shift -/

/-- The arithmetic shift is the right shift with the sign bit shifted in. -/
theorem sar_r_eq_shr (d : Byte) : (sar d).r = (shr d d.sign).r := by
  have hsign : d &&& 0x80#8 = BitVec.setWidth 8 (BitVec.ofBool d.sign) <<< 7 := by
    revert d
    decide
  exact congrArg (d >>> 1 ||| ·) hsign

/-- The sign bit as a number is the quotient by its weight. -/
theorem sign_toNat (d : Byte) : d.sign.toNat = d.toNat / 128 := by
  have hd : d.toNat < 256 := d.isLt
  rw [sign_eq_decide]
  by_cases h : 128 ≤ d.toNat
  · rw [decide_eq_true h, Bool.toNat_true]
    omega
  · rw [decide_eq_false h, Bool.toNat_false]
    omega

theorem sar_r_toNat (d : Byte) : (sar d).r.toNat = d.toNat / 2 + 128 * (d.toNat / 128) := by
  rw [sar_r_eq_shr, shr_r_toNat, sign_toNat]

/-- The result is the signed value halved and rounded down. -/
theorem sar_r_eq_ofInt (d : Byte) : (sar d).r = BitVec.ofInt 8 (d.toInt / 2) := by
  have hd : d.toNat < 256 := d.isLt
  apply BitVec.eq_of_toNat_eq
  rw [BitVec.toNat_ofInt, sar_r_toNat, BitVec.toInt_eq_toNat_cond]
  split <;> omega

/-- The shift keeps the sign. -/
theorem sar_n_iff (d : Byte) : (sar d).n = true ↔ d.toInt < 0 := by
  have hn : (sar d).n = (sar d).r.sign := rfl
  have hd : d.toNat < 256 := d.isLt
  rw [hn, sign_iff, sar_r_toNat, BitVec.toInt_eq_toNat_cond]
  split <;> omega

theorem sar_z_iff (d : Byte) : (sar d).z = true ↔ d.toNat < 2 := by
  rw [result_z_iff rfl (sar_r_toNat d)]
  omega

theorem withNZVC_sar (cc : CC) (d : Byte) :
    cc.withNZVC (sar d) = flags cc (d.toInt < 0) (d.toNat < 2) False (d.toNat % 2 = 1) :=
  withNZVC_eq_flags (sar_n_iff d) (sar_z_iff d) (iff_of_false Bool.false_ne_true id) (getLsbD_zero_iff d) cc

end Sys2Proof.Proofs
end

section
/-! PROOFS. The shifts and rotates of A and of memory (`46_shift_rotate.md` R190 to R199): a primitive of R200 with 0 or
the old C shifted in; the forms on memory are read-modify-write (R163). -/

namespace Sys2Proof.Proofs

open Sys2Proof.Machine Sys2Proof.Safety Sys2Proof.Laws

/-- An instruction that puts a result in A and its flags in CC, with the byte and the flags as the claims write them. -/
theorem exec_eq_of_resultInA {i : Instr} {s : State} {q : Result} {r : Byte} {cc : CC}
    (h : exec i s = .next { s with a := q.r, cc := s.cc.withNZVC q }) (hr : q.r = r) (hcc : s.cc.withNZVC q = cc) :
    exec i s = .next { s with a := r, cc := cc } := by
  rw [h, hr, hcc]

/-- Settles O34: LSLA and LSL are `shl` with 0 shifted in, ROLA and ROL with the old C (D19). LSL and ROL are rows B and
D of the one-operand memory group. -/
theorem leftShiftsAreDoubling : Obligations.LeftShiftsAreDoubling := by
  unfold Obligations.LeftShiftsAreDoubling
  intro r cc
  have hr : ∀ v (b : Bool), (shl v b).r = BitVec.ofNat 8 (r v b.toNat) := shl_r_eq_ofNat
  have hcc : ∀ v c (b : Bool), c.withNZVC (shl v b) = cc v c b.toNat := fun v c b => withNZVC_shl c v b
  refine ⟨fun s => ⟨exec_eq_of_resultInA rfl (hr s.a false) (hcc s.a s.cc false),
      exec_eq_of_resultInA rfl (hr s.a s.cc.c) (hcc s.a s.cc s.cc.c)⟩,
    fun s m => ⟨modifies_of_exec rfl (fun v _ => hr v false) (fun v c => hcc v c false),
      modifies_of_exec rfl (fun v c => hr v c.c) (fun v c => hcc v c c.c)⟩,
    ⟨rfl, rfl⟩, ⟨rfl, rfl⟩, unaryRows_of_encode (row := 0xB#8) fun _ => ⟨rfl, rfl⟩,
    unaryRows_of_encode (row := 0xD#8) fun _ => ⟨rfl, rfl⟩⟩

/-- Settles O35: LSRA and LSR are `shr` with 0 shifted in, RORA and ROR with the old C. LSR and ROR are rows C and E of
the one-operand memory group. -/
theorem rightShiftsAreHalving : Obligations.RightShiftsAreHalving := by
  unfold Obligations.RightShiftsAreHalving
  intro r cc
  have hr : ∀ v (b : Bool), (shr v b).r = BitVec.ofNat 8 (r v b.toNat) := shr_r_eq_ofNat
  have hcc : ∀ v c (b : Bool), c.withNZVC (shr v b) = cc v c b.toNat := fun v c b => withNZVC_shr c v b
  refine ⟨fun s => ⟨exec_eq_of_resultInA rfl (hr s.a false) (hcc s.a s.cc false),
      exec_eq_of_resultInA rfl (hr s.a s.cc.c) (hcc s.a s.cc s.cc.c)⟩,
    fun s m => ⟨modifies_of_exec rfl (fun v _ => hr v false) (fun v c => hcc v c false),
      modifies_of_exec rfl (fun v c => hr v c.c) (fun v c => hcc v c c.c)⟩,
    ⟨rfl, rfl⟩, ⟨rfl, rfl⟩, unaryRows_of_encode (row := 0xC#8) fun _ => ⟨rfl, rfl⟩,
    unaryRows_of_encode (row := 0xE#8) fun _ => ⟨rfl, rfl⟩⟩

/-- Settles O36: ASRA and ASR are `sar`, whose byte is `sar_r_eq_ofInt` and whose flags are `withNZVC_sar`. ASR is row F
of the one-operand memory group. -/
theorem arithmeticRightShiftHalvesSigned : Obligations.ArithmeticRightShiftHalvesSigned := by
  unfold Obligations.ArithmeticRightShiftHalvesSigned
  intro r cc
  exact ⟨fun s => exec_eq_of_resultInA rfl (sar_r_eq_ofInt s.a) (withNZVC_sar s.cc s.a),
    fun s m => modifies_of_exec rfl (fun v _ => sar_r_eq_ofInt v) (fun v c => withNZVC_sar c v),
    ⟨rfl, rfl⟩, unaryRows_of_encode (row := 0xF#8) fun _ => ⟨rfl, rfl⟩⟩

end Sys2Proof.Proofs
end

section
/-! PROOFS. The ring of nine: C and the 8 bits of A, turned by one place by each rotate (`46_shift_rotate.md` R196,
R198, D19). -/

namespace Sys2Proof.Proofs

open Sys2Proof.Machine Sys2Proof.Safety Sys2Proof.Laws

/-! ### Nine bits turned by one place -/

theorem getLsbD_rotateLeft_one (x : BitVec 9) {k : Nat} (hk : k < 9) :
    (x.rotateLeft 1).getLsbD k = x.getLsbD ((k + 8) % 9) := by
  rw [BitVec.getLsbD_rotateLeft_of_le (by decide)]
  cases k with
  | zero => rfl
  | succ j =>
    have hplace : (j + 1 + 8) % 9 = j := by omega
    simp [hplace, hk]

theorem getLsbD_rotateRight_one (x : BitVec 9) {k : Nat} (hk : k < 9) :
    (x.rotateRight 1).getLsbD k = x.getLsbD ((k + 1) % 9) := by
  rw [BitVec.getLsbD_rotateRight_of_lt (by decide)]
  obtain rfl | hlow : k = 8 ∨ k < 8 := by omega
  · rfl
  · rw [Nat.mod_eq_of_lt (by omega), Nat.add_comm]
    simp [hlow]

/-- One turn to the right undoes one to the left. -/
theorem rotateRight_leftInverse_rotateLeft :
    Function.LeftInverse (fun x : BitVec 9 => x.rotateRight 1) (fun x : BitVec 9 => x.rotateLeft 1) := by
  intro x
  apply BitVec.eq_of_getLsbD_eq
  intro k hk
  rw [getLsbD_rotateRight_one _ hk, getLsbD_rotateLeft_one _ (Nat.mod_lt _ (by decide))]
  congr 1
  omega

/-- After `n` turns to the left, place `k` holds the bit from `n` places to its right, which is `8 * n` places to its
left. -/
theorem getLsbD_rotateLeft_iterate (x : BitVec 9) (n : Nat) {k : Nat} (hk : k < 9) :
    ((fun y : BitVec 9 => y.rotateLeft 1)^[n] x).getLsbD k = x.getLsbD ((k + 8 * n) % 9) := by
  induction n generalizing k with
  | zero => rw [Function.iterate_zero_apply, Nat.mul_zero, Nat.add_zero, Nat.mod_eq_of_lt hk]
  | succ n ih =>
    rw [Function.iterate_succ_apply', getLsbD_rotateLeft_one _ hk, ih (Nat.mod_lt _ (by decide))]
    congr 1
    omega

theorem rotateLeft_iterate_nine (x : BitVec 9) : (fun y : BitVec 9 => y.rotateLeft 1)^[9] x = x := by
  apply BitVec.eq_of_getLsbD_eq
  intro k hk
  rw [getLsbD_rotateLeft_iterate x 9 hk]
  congr 1
  omega

/-- Nine turns to the right undo nine to the left, which change nothing. -/
theorem rotateRight_iterate_nine (x : BitVec 9) : (fun y : BitVec 9 => y.rotateRight 1)^[9] x = x := by
  have hundo := rotateRight_leftInverse_rotateLeft.iterate 9 x
  rwa [rotateLeft_iterate_nine] at hundo

/-! ### The ring in the machine -/

/-- The ring of a state: C over bits 7 to 0 of A. -/
def carryRing (s : State) : BitVec 9 := BitVec.cons s.cc.c s.a

theorem carryRing_getLsbD (s : State) (k : Nat) :
    (carryRing s).getLsbD k = if k = 8 then s.cc.c else s.a.getLsbD k := BitVec.getLsbD_cons ..

theorem carryRing_inj {s t : State} (h : carryRing s = carryRing t) : s.a = t.a ∧ s.cc.c = t.cc.c := by
  constructor
  · have ha := congrArg (BitVec.setWidth 8) h
    rwa [carryRing, carryRing, BitVec.setWidth_cons, BitVec.setWidth_cons] at ha
  · have hc := congrArg BitVec.msb h
    rwa [carryRing, carryRing, BitVec.msb_cons, BitVec.msb_cons] at hc

theorem after_rola_a (s : State) : (after .rola s).a = (shl s.a s.cc.c).r := rfl
theorem after_rola_c (s : State) : (after .rola s).cc.c = s.a.getLsbD 7 := rfl
theorem after_rora_a (s : State) : (after .rora s).a = (shr s.a s.cc.c).r := rfl
theorem after_rora_c (s : State) : (after .rora s).cc.c = s.a.getLsbD 0 := rfl

/-- ROLA turns the ring to the left. -/
theorem carryRing_rola : Function.Semiconj carryRing (after .rola) (fun x => x.rotateLeft 1) := by
  intro s
  apply BitVec.eq_of_getLsbD_eq
  intro k hk
  rw [getLsbD_rotateLeft_one _ hk, carryRing_getLsbD, carryRing_getLsbD, after_rola_a, after_rola_c, shl_r_getLsbD]
  obtain rfl | rfl | ⟨hpos, hlow⟩ : k = 8 ∨ k = 0 ∨ 0 < k ∧ k < 8 := by omega
  · rfl
  · rfl
  · have hplace : (k + 8) % 9 = k - 1 := by omega
    rw [hplace, if_neg (by omega), if_neg (by omega), if_neg (by omega), decide_eq_true hlow, Bool.true_and]

/-- RORA turns the ring to the right. -/
theorem carryRing_rora : Function.Semiconj carryRing (after .rora) (fun x => x.rotateRight 1) := by
  intro s
  apply BitVec.eq_of_getLsbD_eq
  intro k hk
  rw [getLsbD_rotateRight_one _ hk, carryRing_getLsbD, carryRing_getLsbD, after_rora_a, after_rora_c, shr_r_getLsbD]
  obtain rfl | rfl | hlow : k = 8 ∨ k = 7 ∨ k < 7 := by omega
  · rfl
  · rfl
  · rw [Nat.mod_eq_of_lt (by omega), if_neg (by omega), if_neg (by omega), if_neg (by omega)]

/-- Settles O37: the rotates turn the ring (`carryRing_rola`, `carryRing_rora`), nine turns either way restore it, and a
turn to the right undoes one to the left. -/
theorem rotatesAreARingOfNine : Obligations.RotatesAreARingOfNine := by
  intro s
  have hleft : carryRing ((after .rola)^[9] s) = carryRing s :=
    (carryRing_rola.iterate_right 9 s).trans (rotateLeft_iterate_nine _)
  have hright : carryRing ((after .rora)^[9] s) = carryRing s :=
    (carryRing_rora.iterate_right 9 s).trans (rotateRight_iterate_nine _)
  have hundo : carryRing (after .rora (after .rola s)) = carryRing s := by
    rw [carryRing_rora, carryRing_rola]
    exact rotateRight_leftInverse_rotateLeft _
  obtain ⟨hleftA, hleftC⟩ := carryRing_inj hleft
  obtain ⟨hrightA, hrightC⟩ := carryRing_inj hright
  obtain ⟨hundoA, hundoC⟩ := carryRing_inj hundo
  exact ⟨hleftA, hleftC, hrightA, hrightC, hundoA, hundoC⟩

end Sys2Proof.Proofs
end

section
/-! PROOFS. The stack instructions (`47_stack.md` R210 to R217): a push writes below SP and moves SP there, a pull reads
at SP and moves SP up. -/

namespace Sys2Proof.Proofs

open Sys2Proof.Machine Sys2Proof.Safety Sys2Proof.Laws

/-! ### Registers -/

/-- SP one down, as the claims write it. -/
theorem ofNat_toNat_add_255 (b : Byte) : BitVec.ofNat 8 (b.toNat + 255) = b - 1#8 := by
  rw [ofNat_toNat_add, BitVec.sub_eq_add_neg]
  rfl

/-- Each of the three is a push of its register's byte. -/
theorem exec_pushRegister {s : State} {i : Instr} {v : Byte}
    (h : (i, v) ∈ [(.psha, s.a), (.pshx, s.x), (.pshy, s.y)]) : exec i s = .next (s.push v) := by
  simp only [List.mem_cons, Prod.mk.injEq, List.not_mem_nil, or_false] at h
  rcases h with ⟨rfl, rfl⟩ | ⟨rfl, rfl⟩ | ⟨rfl, rfl⟩ <;> rfl

/-- Settles O38: what a push writes is `push_wrote`, and what it leaves alone is `push_eq`. -/
theorem pushesWriteBelowTheStack : Obligations.PushesWriteBelowTheStack := by
  refine ⟨fun s i v h => ?_, ⟨rfl, rfl⟩, ⟨rfl, rfl⟩, ⟨rfl, rfl⟩⟩
  rw [ofNat_toNat_add_255]
  exact ⟨_, exec_pushRegister h, push_wrote s v, push_eq s v⟩

/-- Settles O39: each is one pull, the byte put in its register. -/
theorem pullsReadTheTopOfStack : Obligations.PullsReadTheTopOfStack := by
  refine ⟨fun s => ?_, ⟨rfl, rfl⟩, ⟨rfl, rfl⟩, ⟨rfl, rfl⟩⟩
  rw [ofNat_toNat_add]
  exact ⟨rfl, rfl, rfl⟩

/-! ### CC -/

/-- A read of CC touches nothing that a write to memory uses, so a push after it writes what a push before it
would. -/
theorem push_ccRead_wrote (s : State) (v : Byte) : Wrote s (s.ccRead.2.push v) (s.sp - 1#8) v :=
  let h := push_wrote s.ccRead.2 v
  ⟨h.output, h.quiet, h.stored, h.dropped, h.others⟩

/-- Settles O40: PSHCC is a read of CC (`toByte_eq_ofNat`) and a push, PULCC a pull and a write of CC (`ofByte_eq`). -/
theorem conditionCodesOnTheStack : Obligations.ConditionCodesOnTheStack := by
  refine ⟨fun s => ?pshcc, fun s => ?pulcc, ⟨rfl, rfl⟩, ⟨rfl, rfl⟩⟩
  case pshcc =>
    intro byte
    have hbyte : byte = s.ccRead.1 := (toByte_eq_ofNat s.cc _).symm
    rw [hbyte]
    exact ⟨_, rfl, push_ccRead_wrote s _, push_eq s.ccRead.2 _⟩
  case pulcc =>
    intro d
    rw [← ofByte_eq]
    rfl

end Sys2Proof.Proofs
end

section
/-! PROOFS. NOP, and that every step has a successor (`48_misc.md` R220, `93_implementation_defined.md` section 2). -/

namespace Sys2Proof.Proofs

open Sys2Proof.Machine Sys2Proof.Safety Sys2Proof.Laws

/-- The byte `$00` is NOP, whatever follows it (R52). -/
theorem decode_nop (rest : List Byte) : decode (0x00#8 :: rest) = .ok (.nop, rest) :=
  decode_of_one rest rfl

/-- Settles O41: the step is the meaning of the byte decoded (`step_of_decode_stored`), and the boundary and the fetch
make the changes that the claim lists. -/
theorem nopOnlyMovesPC : Obligations.NopOnlyMovesPC := by
  refine ⟨fun _ => rfl, fun s hs hp hbyte => ?_, rfl, rfl⟩
  have hdecode : decode [s.byteAt s.pc, s.byteAt (s.pc + 1#8)] = .ok (.nop, [s.byteAt (s.pc + 1#8)]) := by
    rw [hbyte, decode_nop]
  exact ⟨_, step_of_decode_stored hs hp (fun h => absurd h (by decide)) hdecode, rfl, hbyte⟩

/-- No arm of the dispatch answers with a fault or a refusal. -/
theorem exec_eq_after (i : Instr) (s : State) : exec i s = .next (after i s) := by
  cases i <;> rfl

/-- Settles O49: the reset sequence and an interrupt entry are next states, and so is an instruction's meaning
(`exec_eq_after`). -/
theorem everyStateHasASuccessor : Obligations.EveryStateHasASuccessor := by
  intro s
  cases hphase : s.phase with
  | vectorFetch => exact ⟨_, step_of_vectorFetch hphase⟩
  | newFetch =>
    cases hreset : s.resetActive with
    | true => exact ⟨_, step_of_resetActive hphase hreset⟩
    | false =>
      cases hirq : s.irqAccepted with
      | true => exact ⟨_, step_of_irqAccepted hphase hreset hirq⟩
      | false => exact ⟨_, (step_of_instruction hphase hreset hirq).trans (exec_eq_after _ _)⟩

end Sys2Proof.Proofs
end

section
/-! PROOFS. Trap, interrupt entry and reset (`60_exceptions.md` R252 to R256, R262; `70_reset_and_hazards.md` R280,
R281): both entries are `State.enter`, whose frame and vector read are `enter_eq`. -/

namespace Sys2Proof.Proofs

open Sys2Proof.Machine Sys2Proof.Safety Sys2Proof.Laws

/-- The trap's treatment of I, as the claims write it: set where `TRAP_SETS_I` (D5). -/
theorem or_eq_if (i set : Bool) : (i || set) = if set then true else i := by
  cases set <;> simp

/-- Settles O42: the trap is exception entry through the trap's vector, which is storage (`enter_eq`). -/
theorem trapPushesTheFrame : Obligations.TrapPushesTheFrame := by
  intro s op f
  rw [← or_eq_if]
  exact congrArg Host.Outcome.next (enter_eq s Config.trapVector s.pc Config.trapSetsI (by decide))

/-- Passing a boundary touches nothing that exception entry uses, or changes itself. -/
theorem enter_passBoundary (s : State) {vector : Byte} (returnPc : Byte) (setI : Bool) (hv : ¬ Port vector) :
    s.passBoundary.enter vector returnPc setI = (s.enter vector returnPc setI).passBoundary := by
  rw [enter_eq _ _ _ _ hv, enter_eq _ _ _ _ hv]
  simp only [memWrite_passBoundary, passBoundary_sp, passBoundary_a, passBoundary_x, passBoundary_y, passBoundary_cc,
    passBoundary_ccReads]
  rfl

/-- Settles O43: the step is an interrupt entry, which is exception entry (`enter_eq`) and the passing of the boundary;
what the latter uses up and counts is as it was before the frame's writes. -/
theorem interruptEntryPushesTheFrame : Obligations.InterruptEntryPushesTheFrame := by
  intro s hphase hsamples hi f
  have hinputs := boundaryInputs_of_samples hsamples
  have hreset : s.resetActive = false := by rw [State.resetActive, hinputs]
  have hirq : s.irqAccepted = true := by rw [State.irqAccepted, hinputs, hi]; rfl
  have hvector : ¬ Port Config.irqVector := by decide
  have hsample : f.inputs = s.inputs := by simp only [f, memWrite_inputs]
  have hboundary : f.boundary = s.boundary := by simp only [f, memWrite_boundary]
  refine ⟨_, step_of_irqAccepted hphase hreset hirq, ?_⟩
  rw [irqEntry_eq, enter_passBoundary s _ true hvector, enter_eq s _ _ true hvector, Bool.or_true, ← hsample,
    ← hboundary]
  rfl

/-! ### Reset -/

/-- While reset is in progress, and at a boundary where `Reset` is active, the step is the reset sequence after the step
was counted, which changes no byte and makes no access. -/
theorem step_of_reset {s : State} (h : s.phase = .vectorFetch ∨ ∃ irq, Samples s true irq) :
    ∃ t : State, step s = .next t.resetSequence ∧ t.mem = s.mem ∧ t.ports = s.ports ∧ t.readOnly = s.readOnly := by
  cases hphase : s.phase with
  | vectorFetch => exact ⟨s.countStep, step_of_vectorFetch hphase, rfl, rfl, rfl⟩
  | newFetch =>
    rcases h with hvector | ⟨irq, hsamples⟩
    · cases hphase.symm.trans hvector
    · have hreset : s.resetActive = true := by rw [State.resetActive, boundaryInputs_of_samples hsamples]
      exact ⟨s.passBoundary, step_of_resetActive hphase hreset, rfl, rfl, rfl⟩

/-- Settles O47: the reset sequence (`step_of_reset`) loads PC from the vector and writes nothing. The image lists what
the vector's address then reads as. -/
theorem resetLoadsTheVector : Obligations.ResetLoadsTheVector := by
  refine ⟨fun s h => ?_, fun image v hv => ?_⟩
  · obtain ⟨t, hstep, hmem, hports, hreadOnly⟩ := step_of_reset h
    have hpc : t.resetSequence.pc = s.byteAt 0xFF#8 := (resetSequence_pc t).trans (byteAt_congr hmem _)
    exact ⟨_, hstep, hpc, hmem, hports, rfl, hreadOnly⟩
  · have hbyte : { State.reset with mem := image : State }.byteAt 0xFF#8 = v := congrArg (Option.getD · _) hv
    exact ⟨_, step_of_vectorFetch rfl, hbyte, rfl, rfl⟩

end Sys2Proof.Proofs
end

section
/-! PROOFS. The ALU's function table (`49_alu_and_control_signals.md` R225 to R227) against the primitives of the
instructions: R6 and R7 for the sums, R200 for the shifts. -/

namespace Sys2Proof.Proofs

open Sys2Proof.Machine Sys2Proof.Laws

/-! ### A row -/

/-- Note (1) is the test for 0. -/
theorem aluZero_eq (u : Byte) : aluZero u = (u == 0#8) := by
  revert u
  decide

theorem aluRow_eq (u : Byte) (v c : Bool) : aluRow u v c = ⟨u, u.sign, u == 0#8, v, c⟩ := by
  rw [aluRow, aluZero_eq]

/-! ### The adding rows -/

/-- Nine bits hold the whole sum. -/
theorem aluSum_toNat (d e : Byte) (cin : Bool) : (aluSum d e cin).toNat = d.toNat + e.toNat + cin.toNat := by
  have hd : d.toNat < 256 := d.isLt
  have he : e.toNat < 256 := e.isLt
  have hcin : cin.toNat ≤ 1 := Bool.toNat_le cin
  simp only [aluSum, BitVec.toNat_add, BitVec.toNat_setWidth, BitVec.toNat_ofBool]
  omega

/-- An adding row is the sum of R6: U is the sum modulo 256 and `c8` its carry, and note (2) is V of R6. -/
theorem aluAdd_eq_add8 (d e : Byte) (cin : Bool) : aluAdd d e cin = add8 d e cin := by
  have hr : (aluSum d e cin).setWidth 8 = (add8 d e cin).r := by
    apply BitVec.eq_of_toNat_eq
    rw [BitVec.toNat_setWidth, aluSum_toNat, add8_r_toNat]
  have hc : (aluSum d e cin).getLsbD 8 = (add8 d e cin).c := by
    have hsum := (aluSum d e cin).isLt
    rw [Bool.eq_iff_iff, add8_c, ← aluSum_toNat, BitVec.getLsbD, Nat.testBit_eq_decide_div_mod_eq, decide_eq_true_iff]
    omega
  simp only [aluAdd, hr, hc, aluRow_eq]
  rfl

/-- With C inverted, function 1100 is the difference of R7 (C17). -/
theorem aluAdd_complement_eq_sub8 (d e : Byte) (bin : Bool) :
    { aluAdd d (~~~e) (!bin) with c := !(aluAdd d (~~~e) (!bin)).c } = sub8 d e bin := by
  rw [aluAdd_eq_add8]
  rfl

/-- Function 0101 with carry in 1 is the negation: V and C of its row are those of `0 - D`. -/
theorem alu_negation (d e : Byte) : alu 5#4 d e true = sub8 0#8 d false := by
  have hr : ~~~d + (BitVec.ofBool true).setWidth 8 = (sub8 0#8 d false).r := by
    rw [sub8_r_eq_sub, BitVec.zero_sub, BitVec.neg_eq_not_add]
    rfl
  have hv : (d == 0x80#8) = (sub8 0#8 d false).v := by
    rw [Bool.eq_iff_iff, sub8_zero_v_iff, beq_iff_eq]
  have hc : (!(d == 0x00#8)) = (sub8 0#8 d false).c := by
    rw [Bool.eq_iff_iff, sub8_zero_c_iff, bnot_iff_of_iff beq_iff_eq]
  have hrow : alu 5#4 d e true = aluRow _ _ _ := rfl
  rw [hrow, hr, hv, hc, aluRow_eq]
  rfl

/-! ### The shifts -/

theorem append_carry_eq_shl (d : Byte) (cin : Bool) : d.extractLsb' 0 7 ++ BitVec.ofBool cin = (shl d cin).r := by
  apply BitVec.eq_of_getLsbD_eq
  intro k hk
  rw [shl_r_getLsbD, BitVec.getLsbD_append]
  cases k with
  | zero => simp
  | succ j =>
    have hlow : j < 7 := by omega
    have hbound : j + 1 < 8 := hk
    simp [hlow, hbound]

theorem carry_append_eq_shr (d : Byte) (cin : Bool) : BitVec.ofBool cin ++ d.extractLsb' 1 7 = (shr d cin).r := by
  apply BitVec.eq_of_getLsbD_eq
  intro k hk
  rw [shr_r_getLsbD, BitVec.getLsbD_append]
  obtain rfl | hlow : k = 7 ∨ k < 7 := by omega
  · simp
  · simp [hlow, hlow.ne, Nat.add_comm 1 k]

/-- Function 1101 is the left shift, with the carry in at bit 0. -/
theorem alu_shl (d e : Byte) (cin : Bool) : alu 13#4 d e cin = shl d cin := by
  have hrow : alu 13#4 d e cin = aluRow _ _ _ := rfl
  rw [hrow, aluRow_eq, append_carry_eq_shl]
  rfl

/-- Function 1110 is the right shift, with the carry in at bit 7. -/
theorem alu_shr (d e : Byte) (cin : Bool) : alu 14#4 d e cin = shr d cin := by
  have hrow : alu 14#4 d e cin = aluRow _ _ _ := rfl
  rw [hrow, aluRow_eq, carry_append_eq_shr]
  rfl

/-- Function 1111 is the arithmetic right shift: the right shift with the sign bit shifted in (`sar_r_eq_shr`). -/
theorem alu_sar (d e : Byte) (cin : Bool) : alu 15#4 d e cin = sar d := by
  have hrow : alu 15#4 d e cin = aluRow _ _ _ := rfl
  rw [hrow, aluRow_eq, carry_append_eq_shr, ← sar_r_eq_shr]
  rfl

/-! ### The table -/

/-- Functions 0100, 0110, 0111 and 1000 pass E or are logical: N and Z are those of U (R8), V and C are 0. -/
theorem alu_logical_flags (d e : Byte) (cin : Bool) :
    ∀ f ∈ [4#4, 6#4, 7#4, 8#4], ((alu f d e cin).n, (alu f d e cin).z) = nz (alu f d e cin).r ∧
      (alu f d e cin).v = false ∧ (alu f d e cin).c = false := by
  have row (u : Byte) : ((aluRow u false false).n, (aluRow u false false).z) = nz (aluRow u false false).r ∧
      (aluRow u false false).v = false ∧ (aluRow u false false).c = false := by
    rw [aluRow_eq]
    exact ⟨rfl, rfl, rfl⟩
  simp only [List.forall_mem_cons]
  exact ⟨row e, row (d ||| e), row (d &&& e), row (d ^^^ e), List.forall_mem_nil _⟩

/-- Function 0101 with carry in 0 is the ones' complement. -/
theorem alu_complement_r (d e : Byte) : (alu 5#4 d e false).r = ~~~d := by
  have hrow : (alu 5#4 d e false).r = ~~~d + 0#8 := rfl
  rw [hrow, BitVec.add_zero]

/-- Settles O58: the adding rows are `aluAdd_eq_add8`, the shifts are `alu_shl`, `alu_shr` and `alu_sar`; the bytes of
the logical functions and of the constants are the table's own. -/
theorem aluTableGivesTheInstructionResults : Obligations.AluTableGivesTheInstructionResults :=
  fun d e cin => ⟨aluAdd_eq_add8 d e cin, aluAdd_complement_eq_sub8 d e cin, aluAdd_eq_add8 d _ true,
    aluAdd_eq_add8 d _ false, alu_negation d e, alu_complement_r d e, alu_shl d e cin, alu_shr d e cin,
    alu_sar d e cin, rfl, rfl, rfl, alu_logical_flags d e cin, rfl⟩

end Sys2Proof.Proofs
end

section
/-! PROOFS. The mapping of R228 and the selectors of R230 and R231 (`49_alu_and_control_signals.md`): per ALU use the
byte and the flags that the clock pulse takes from it, and per family of instructions that they are those of the
meaning. -/

namespace Sys2Proof.Proofs

open Sys2Proof.Machine Sys2Proof.Safety Sys2Proof.Laws

/-! ### What an ALU use gives -/

/-- On the operands `d` and `e`, with CC `old` before the pulse, the ALU use `u` gives `r` as U, and with U on the bus
its selectors give CC `new`. -/
structure Gives (u : AluUse) (d e : Byte) (old : CC) (r : Byte) (new : CC) : Prop where
  byte : (alu u.f d e (selectCarryIn u.gCin old.c)).r = r
  flags : selectCC u.gI u.gN u.gZ u.gV u.gC (flagsToCC u.f (alu u.f d e (selectCarryIn u.gCin old.c))) r old = new

namespace Gives

/-! The patterns of the flag selectors: N, Z, V, C from the ALU, C unchanged or cleared, V cleared, or all five flags
from the bus. -/

section
variable (o : Result) (bus : Byte) (old : CC)

theorem selectCC_nzvc : selectCC 0#2 0#2 0#2 0#2 0#2 o bus old = old.withNZVC o := rfl
theorem selectCC_nzv : selectCC 0#2 0#2 0#2 0#2 3#2 o bus old = old.withNZV o := rfl
theorem selectCC_nzv0 : selectCC 0#2 0#2 0#2 0#2 2#2 o bus old = { old.withNZV o with c := false } := rfl
theorem selectCC_nz0 : selectCC 0#2 0#2 0#2 2#2 3#2 o bus old = { old.withNZV o with v := false } := rfl
theorem selectCC_bus : selectCC 1#2 1#2 1#2 1#2 1#2 o bus old = CC.ofByte bus := rfl

end

variable {f : BitVec 4} {gCin : BitVec 2} {d e : Byte} {old : CC}

theorem nzvc {q : Result} (h : flagsToCC f (alu f d e (selectCarryIn gCin old.c)) = q) :
    Gives { f := f, gCin := gCin } d e old q.r (old.withNZVC q) := by
  subst h
  exact ⟨rfl, selectCC_nzvc _ _ old⟩

theorem nzv {q : Result} (h : flagsToCC f (alu f d e (selectCarryIn gCin old.c)) = q) :
    Gives { f := f, gCin := gCin, gC := 3#2 } d e old q.r (old.withNZV q) := by
  subst h
  exact ⟨rfl, selectCC_nzv _ _ old⟩

/-- A function without carry and overflow, C unchanged. -/
theorem nz0 {r : Byte} (h : flagsToCC f (alu f d e (selectCarryIn gCin old.c)) = aluRow r false false) :
    Gives { f := f, gCin := gCin, gC := 3#2 } d e old r (old.withNZ0 r) := by
  rw [aluRow_eq] at h
  exact nzv h

/-! The functions of R228. -/

/-- LDA, LDX, LDY, LDSP. -/
theorem load : Gives { f := 4#4, gC := 3#2 } d e old e (old.withNZ0 e) := nz0 rfl

/-- ADDA. -/
theorem add : Gives { f := 11#4 } d e old (add8 d e false).r (old.withNZVC (add8 d e false)) :=
  nzvc (aluAdd_eq_add8 d e false)

/-- ADCA: the carry in is C. -/
theorem addWithCarry :
    Gives { f := 11#4, gCin := 2#2 } d e old (add8 d e old.c).r (old.withNZVC (add8 d e old.c)) :=
  nzvc (aluAdd_eq_add8 d e old.c)

/-- SUBA and the compares: the carry in 1 is the inverse of borrow 0. -/
theorem sub : Gives { f := 12#4, gCin := 1#2 } d e old (sub8 d e false).r (old.withNZVC (sub8 d e false)) :=
  nzvc (aluAdd_complement_eq_sub8 d e false)

/-- SBCA: the carry in is C inverted. -/
theorem subWithBorrow :
    Gives { f := 12#4, gCin := 3#2 } d e old (sub8 d e old.c).r (old.withNZVC (sub8 d e old.c)) :=
  nzvc (aluAdd_complement_eq_sub8 d e old.c)

/-- INCA, INC. -/
theorem increment :
    Gives { f := 9#4, gCin := 1#2, gC := 3#2 } d e old (add8 d 0x00#8 true).r (old.withNZV (add8 d 0x00#8 true)) :=
  nzv (aluAdd_eq_add8 d 0x00#8 true)

/-- DECA, DEC. -/
theorem decrement :
    Gives { f := 10#4, gC := 3#2 } d e old (add8 d 0xFF#8 false).r (old.withNZV (add8 d 0xFF#8 false)) :=
  nzv (aluAdd_eq_add8 d 0xFF#8 false)

/-- NEGA, NEG. -/
theorem negation :
    Gives { f := 5#4, gCin := 1#2 } d e old (sub8 0#8 d false).r (old.withNZVC (sub8 0#8 d false)) :=
  nzvc (alu_negation d e)

/-- COMA, COM: N and Z are those of the complement, and the selector clears V. -/
theorem complement :
    Gives { f := 5#4, gV := 2#2, gC := 3#2 } d e old (~~~d) (old.withNZ0 (~~~d)) := by
  have hr : (alu 5#4 d e false).r = ~~~d := alu_complement_r d e
  have hrow : alu 5#4 d e false = aluRow (alu 5#4 d e false).r _ _ := rfl
  rw [hr, aluRow_eq] at hrow
  refine ⟨hr, (selectCC_nz0 (flagsToCC 5#4 (alu 5#4 d e false)) _ old).trans ?_⟩
  rw [hrow]
  rfl

/-- CLRA, CLR. -/
theorem clear : Gives { f := 0#4 } d e old 0x00#8 old.cleared := ⟨rfl, rfl⟩

/-- TSTA, TST: the selector clears C. -/
theorem test : Gives { f := 4#4, gC := 2#2 } d e old e (old.withNZ00 e) := by
  refine ⟨rfl, (selectCC_nzv0 (aluRow e false false) _ old).trans ?_⟩
  rw [aluRow_eq]
  rfl

/-- ANDA, BITA. -/
theorem bitAnd : Gives { f := 7#4, gC := 3#2 } d e old (d &&& e) (old.withNZ0 (d &&& e)) := nz0 rfl

/-- ORA. -/
theorem bitOr : Gives { f := 6#4, gC := 3#2 } d e old (d ||| e) (old.withNZ0 (d ||| e)) := nz0 rfl

/-- EORA. -/
theorem bitXor : Gives { f := 8#4, gC := 3#2 } d e old (d ^^^ e) (old.withNZ0 (d ^^^ e)) := nz0 rfl

/-- LSLA, LSL. -/
theorem shiftLeft : Gives { f := 13#4 } d e old (shl d false).r (old.withNZVC (shl d false)) := nzvc (alu_shl d e false)

/-- ROLA, ROL. -/
theorem rotateLeft : Gives { f := 13#4, gCin := 2#2 } d e old (shl d old.c).r (old.withNZVC (shl d old.c)) :=
  nzvc (alu_shl d e old.c)

/-- LSRA, LSR. -/
theorem shiftRight : Gives { f := 14#4 } d e old (shr d false).r (old.withNZVC (shr d false)) :=
  nzvc (alu_shr d e false)

/-- RORA, ROR. -/
theorem rotateRight : Gives { f := 14#4, gCin := 2#2 } d e old (shr d old.c).r (old.withNZVC (shr d old.c)) :=
  nzvc (alu_shr d e old.c)

/-- ASRA, ASR. -/
theorem arithmeticShiftRight : Gives { f := 15#4 } d e old (sar d).r (old.withNZVC (sar d)) := nzvc (alu_sar d e false)

/-- ANDCC: all five flags come from the bus. -/
theorem andCC {hi : BitVec 3} :
    Gives { f := 7#4, gI := 1#2, gN := 1#2, gZ := 1#2, gV := 1#2, gC := 1#2 } (old.toByte hi) e old
      (old.toByte hi &&& e) (old.and e) := by
  have hand : CC.ofByte (old.toByte hi &&& e) = (CC.ofByte (old.toByte hi)).and e := by
    simp only [CC.ofByte, CC.and, BitVec.getLsbD_and]
  rw [ofByte_toByte] at hand
  exact ⟨rfl, (selectCC_bus _ _ old).trans hand⟩

/-- ORCC: all five flags come from the bus. -/
theorem orCC {hi : BitVec 3} :
    Gives { f := 6#4, gI := 1#2, gN := 1#2, gZ := 1#2, gV := 1#2, gC := 1#2 } (old.toByte hi) e old
      (old.toByte hi ||| e) (old.or e) := by
  have hor : CC.ofByte (old.toByte hi ||| e) = (CC.ofByte (old.toByte hi)).or e := by
    simp only [CC.ofByte, CC.or, BitVec.getLsbD_or]
  rw [ofByte_toByte] at hor
  exact ⟨rfl, (selectCC_bus _ _ old).trans hor⟩

end Gives

/-! ### What an instruction leaves -/

/-- After `i` CC is `cc`, and where `i` stores a byte, in A or in writable storage, that byte is `r`. -/
structure LeavesResult (i : Instr) (s : State) (r : Byte) (cc : CC) : Prop where
  flags : (after i s).cc = cc
  inA : writesA i = true → (after i s).a = r
  inMemory : ∀ adr ∈ storedTo i s, Stores s adr → (after i s).byteAt adr = r

namespace LeavesResult

variable {i : Instr} {s t : State}

/-- An instruction that stores nothing in memory. -/
theorem of_no_store {r : Byte} (hexec : exec i s = .next t) (hA : writesA i = true → t.a = r)
    (hstores : storedTo i s = []) : LeavesResult i s r t.cc := by
  obtain rfl := after_eq hexec
  refine ⟨rfl, hA, ?_⟩
  rw [hstores]
  exact List.forall_mem_nil _

/-- An instruction that stores one byte in memory and none in A. -/
theorem of_store {adr r : Byte} (hexec : exec i s = .next t) (hA : writesA i = false)
    (hstores : storedTo i s = [adr]) (hwrote : Stores s adr → t.byteAt adr = r) : LeavesResult i s r t.cc := by
  obtain rfl := after_eq hexec
  refine ⟨rfl, ?_, ?_⟩
  · rw [hA]
    exact nofun
  · rw [hstores, List.forall_mem_singleton]
    exact hwrote

end LeavesResult

/-! ### The families of instructions -/

/-- The ALU use `u` on the operands `ops` gives the byte and the flags that `i` leaves. -/
def AluAgrees (i : Instr) (u : AluUse) (s : State) (ops : Byte × Byte) : Prop :=
  ∃ r cc, LeavesResult i s r cc ∧ Gives u ops.1 ops.2 s.cc r cc

namespace AluAgrees

variable {i : Instr} {u : AluUse} {s t : State} {d e : Byte} {o : Operand} {m : AddrMode}

/-- The forms on A without an operand: a result of A and CC, stored in A. -/
theorem inherent {f : Byte → CC → Byte} {g : Byte → CC → CC} (h : ∀ d c, Gives u d e c (f d c) (g d c))
    (hexec : exec i s = .next { s with a := f s.a s.cc, cc := g s.a s.cc }) (hstores : storedTo i s = []) :
    AluAgrees i u s (s.a, e) :=
  ⟨_, _, .of_no_store hexec (fun _ => rfl) hstores, h s.a s.cc⟩

/-- The read-modify-write forms (R163): a result of the byte read and CC, written back. -/
theorem modify {f : Byte → CC → Byte} {g : Byte → CC → CC} (h : ∀ d c, Gives u d e c (f d c) (g d c))
    (hexec : exec i s = .next (s.modify m f g)) (hA : writesA i = false) (hstores : storedTo i s = [(s.ea m).1]) :
    AluAgrees i u s ((s.operand (.mem m)).1, e) := by
  refine ⟨_, _, .of_store hexec hA hstores fun hs => (modify_wrote s m f g).stored ?_, ?_⟩
  · rwa [Stores, memRead_snd_readOnly, ea_snd_readOnly]
  · rw [modify_eq]
    exact h _ _

/-- The forms with a result of the operand alone: the loads and TST. The access to the operand does not change CC. -/
theorem operandOnly {f : Byte → Byte} {g : Byte → CC → CC} (h : ∀ e c, Gives u d e c (f e) (g e c))
    (hexec : exec i s = .next t) (hcc : t.cc = g (s.operand o).1 (s.operand o).2.cc)
    (hA : writesA i = true → t.a = f (s.operand o).1) (hstores : storedTo i s = []) :
    AluAgrees i u s (d, (s.operand o).1) := by
  refine ⟨_, _, .of_no_store hexec hA hstores, ?_⟩
  rw [hcc, operand_snd_cc]
  exact h _ _

/-- The forms with a result of A and the operand: the access to the operand changes neither A nor CC. -/
theorem accumulator {f : Byte → Byte → CC → Byte} {g : Byte → Byte → CC → CC}
    (h : ∀ d e c, Gives u d e c (f d e c) (g d e c)) (hexec : exec i s = .next t)
    (hcc : t.cc = g (s.operand o).2.a (s.operand o).1 (s.operand o).2.cc)
    (hA : writesA i = true → t.a = f (s.operand o).2.a (s.operand o).1 (s.operand o).2.cc)
    (hstores : storedTo i s = []) : AluAgrees i u s (s.a, (s.operand o).1) := by
  refine ⟨_, _, .of_no_store hexec hA hstores, ?_⟩
  rw [hcc, operand_snd_a, operand_snd_cc]
  exact h _ _ _

/-- The compares (`exec_compare`): the flags of a difference whose byte is stored nowhere. -/
theorem compare {r : Byte} (h : (i, r) ∈ [(.cmpa o, s.a), (.cmpx o, s.x), (.cmpy o, s.y), (.cmpsp o, s.sp)])
    (hwf : i.wf = true) (hA : writesA i = false) (hstores : storedTo i s = []) :
    AluAgrees i { f := 12#4, gCin := 1#2 } s (r, (s.operand o).1) := by
  refine ⟨_, _, .of_no_store (exec_compare h hwf) ?_ hstores, .sub⟩
  rw [hA]
  exact nofun

end AluAgrees

/-- The mapping of R228 holds of every well-formed instruction, family by family. -/
theorem aluAgrees_of_aluUse {i : Instr} {u : AluUse} (s : State) (idle : Byte) (hi : BitVec 3) (hwf : i.wf = true)
    (hu : aluUse i = some u) : AluAgrees i u s (aluOperands idle hi s i) := by
  cases i with
  | lda o => cases hu; exact .operandOnly (fun _ _ => .load) rfl rfl (fun _ => rfl) rfl
  | ldx o | ldy o | ldsp o => cases hu; exact .operandOnly (fun _ _ => .load) rfl rfl nofun rfl
  | adda o => cases hu; exact .accumulator (fun _ _ _ => .add) rfl rfl (fun _ => rfl) rfl
  | adca o => cases hu; exact .accumulator (fun _ _ _ => .addWithCarry) rfl rfl (fun _ => rfl) rfl
  | suba o => cases hu; exact .accumulator (fun _ _ _ => .sub) rfl rfl (fun _ => rfl) rfl
  | sbca o => cases hu; exact .accumulator (fun _ _ _ => .subWithBorrow) rfl rfl (fun _ => rfl) rfl
  | anda o => cases hu; exact .accumulator (fun _ _ _ => .bitAnd) rfl rfl (fun _ => rfl) rfl
  | ora o => cases hu; exact .accumulator (fun _ _ _ => .bitOr) rfl rfl (fun _ => rfl) rfl
  | eora o => cases hu; exact .accumulator (fun _ _ _ => .bitXor) rfl rfl (fun _ => rfl) rfl
  | bita o => cases hu; exact .accumulator (fun _ _ _ => .bitAnd) rfl rfl nofun rfl
  | cmpa o | cmpx o | cmpy o | cmpsp o => cases hu; exact .compare (by simp) hwf rfl rfl
  | tsta => cases hu; exact ⟨s.a, _, .of_no_store rfl nofun rfl, .test⟩
  | tst m => cases hu; exact .operandOnly (fun _ _ => .test) rfl rfl nofun rfl
  | andcc v => cases hu; exact ⟨_, _, .of_no_store rfl nofun rfl, .andCC⟩
  | orcc v => cases hu; exact ⟨_, _, .of_no_store rfl nofun rfl, .orCC⟩
  | clra => cases hu; exact ⟨_, _, .of_no_store rfl (fun _ => rfl) rfl, .clear⟩
  | clr m => cases hu; exact ⟨_, _, .of_store rfl rfl rfl (storeAt_wrote s m 0#8).stored, .clear⟩
  | inca => cases hu; exact .inherent (fun _ _ => .increment) rfl rfl
  | inc m => cases hu; exact .modify (fun _ _ => .increment) rfl rfl rfl
  | deca => cases hu; exact .inherent (fun _ _ => .decrement) rfl rfl
  | dec m => cases hu; exact .modify (fun _ _ => .decrement) rfl rfl rfl
  | nega => cases hu; exact .inherent (fun _ _ => .negation) rfl rfl
  | neg m => cases hu; exact .modify (fun _ _ => .negation) rfl rfl rfl
  | coma => cases hu; exact .inherent (fun _ _ => .complement) rfl rfl
  | com m => cases hu; exact .modify (fun _ _ => .complement) rfl rfl rfl
  | lsla => cases hu; exact .inherent (fun _ _ => .shiftLeft) rfl rfl
  | lsl m => cases hu; exact .modify (fun _ _ => .shiftLeft) rfl rfl rfl
  | rola => cases hu; exact .inherent (fun _ _ => .rotateLeft) rfl rfl
  | rol m => cases hu; exact .modify (fun _ _ => .rotateLeft) rfl rfl rfl
  | lsra => cases hu; exact .inherent (fun _ _ => .shiftRight) rfl rfl
  | lsr m => cases hu; exact .modify (fun _ _ => .shiftRight) rfl rfl rfl
  | rora => cases hu; exact .inherent (fun _ _ => .rotateRight) rfl rfl
  | ror m => cases hu; exact .modify (fun _ _ => .rotateRight) rfl rfl rfl
  | asra => cases hu; exact .inherent (fun _ _ => .arithmeticShiftRight) rfl rfl
  | asr m => cases hu; exact .modify (fun _ _ => .arithmeticShiftRight) rfl rfl rfl
  | _ => cases hu

/-- Settles O59: the pulse takes what the mapping's ALU use gives (`clock_signals`), and that is what the instruction
leaves (`aluAgrees_of_aluUse`). The whole writes of CC come from the bus, and an interrupt entry sets I (`enter_cc`). -/
theorem selectorsGiveTheStoredFlags : Obligations.SelectorsGiveTheStoredFlags := by
  refine ⟨fun i u s idle intoR intoTA hi hwf hu => ?_, fun s o bus => ⟨rfl, rfl, ?_⟩⟩
  · intro d q
    obtain ⟨r, cc, hleaves, hgives⟩ := aluAgrees_of_aluUse s idle hi hwf hu
    have hr : q.r = r := hgives.byte
    rw [clock_signals, hr]
    exact ⟨hleaves.flags.trans hgives.flags.symm, hleaves.inA, hleaves.inMemory⟩
  · rw [irqEntry_eq]
    have hcc : (s.enter Config.irqVector s.pc true).cc = { s.cc with i := s.cc.i || true } := enter_cc s _ _ true
    rw [Bool.or_true] at hcc
    exact hcc

end Sys2Proof.Proofs
end
